-- ==== Sys2Proof/Word.lean ====
section
/-!
DEFINITION. The word types of the OWC (00_scope R9, R10) and nothing else.
-/

namespace Sys2Proof

/-- One line sample, flag or address bit (R9): `true` is 1, `false` is 0. -/
abbrev Bit := Bool

/-- A bus data byte, an 8-bit checksum or an 8-bit counter (R9). -/
abbrev Byte := BitVec 8

/-- A 16-bit checksum or a `LEN` field (R9, R90). -/
abbrev Half := BitVec 16

/-- A host word: the host data path is 32 bits (R9). -/
abbrev Word := BitVec 32

/-- A device address: its `ADDR_BITS` bits (R8), at most the 64 positions of R9, from bit 0 on. The bits above them are
neither read nor written. -/
abbrev Address := BitVec 64

/-- A byte offset into the 2 KiB host window (20_memory R60). -/
abbrev Offset := BitVec 11

end Sys2Proof
end

