-- ==== Sys2Proof/Config.lean ====
section
/-!
DEFINITION. The implementation parameters of 00_scope R8, with this hardware's numbers and the open ones, and the free
values the spec leaves to the bus and to a busy `STATUS` read.
-/

namespace Sys2Proof

/-- A line event of the bus history `H` (20_memory R73), with its time in units of 0.25 us. -/
inductive LineEvent where
  /-- `LOW(t)`: the driver was enabled at level 0. -/
  | low (t : Nat)
  /-- `REL(t)`: the driver was disabled. -/
  | rel (t : Nat)
  /-- `SMP(t, v)`: the line was sampled and read `v`. -/
  | smp (t : Nat) (v : Bit)
  deriving DecidableEq, Repr

/-- A timing profile: ten named durations in units of 0.25 us (40_bus_transport R120, R121). -/
structure TimingProfile where
  writeRecoveryLow : Nat
  write1RecoveryHigh : Nat
  write0Low : Nat
  write0RecoveryHigh : Nat
  readRecoveryLow : Nat
  readSampleWindow : Nat
  resetPreDelay : Nat
  resetLowDuration : Nat
  presenceSampleDelay : Nat
  presenceRecoveryDelay : Nat
  deriving DecidableEq, Repr

/-- The two timing profiles, `TP_STD` and `TP_OD` (R8). -/
structure Timings where
  std : TimingProfile
  od : TimingProfile
  deriving DecidableEq, Repr

/-- The strength and the mode `configurePullMode` takes (20_memory R74), as numbers of the platform's choice. -/
structure PullConfig where
  strength : Nat
  mode : Nat
  deriving DecidableEq, Repr

/-- The parameters of R8, all nine. A machine carries them in its state and no step changes them
(notes/assumptions/12.md). -/
structure Params where
  /-- `TP_STD` and `TP_OD`. -/
  timings : Timings
  /-- `MAXDEV_RESET`. -/
  maxdevReset : Nat
  /-- `RESULT_CAP`. -/
  resultCap : Nat
  /-- `BUF_BYTES`. -/
  bufBytes : Nat
  /-- `CLK_HZ`. -/
  clkHz : Nat
  /-- `PULL_CFG`. -/
  pullCfg : PullConfig
  /-- `STACK_DEPTH`. -/
  stackDepth : Nat
  /-- `ADDR_BITS`. -/
  addrBits : Nat
  deriving DecidableEq, Repr

/-- The bytes of a device address: 8 for the 64 bits of this hardware (R8, 20_memory R76). -/
def Params.addrBytes (p : Params) : Nat := p.addrBits / 8

/-- The ranges of the parameters. R8 allows `RESULT_CAP` 1 to 128 and `BUF_BYTES` a multiple of 4 from 8 to 768. DEDUCED
(notes/assumptions/12.md): an address is whole bytes (20_memory R76) of at most the 64 bit positions of R9, and the
stack has room for every position, or it could overflow (41_discovery R186). -/
abbrev Params.legal (p : Params) : Prop :=
  (1 ≤ p.resultCap ∧ p.resultCap ≤ 128) ∧ (p.bufBytes % 4 = 0 ∧ 8 ≤ p.bufBytes ∧ p.bufBytes ≤ 768) ∧
    (p.addrBits % 8 = 0 ∧ 0 < p.addrBits ∧ p.addrBits ≤ 64) ∧ p.addrBits ≤ p.stackDepth

/-- `BUF_BYTES` of this hardware (R8, 92_eei_decisions D27). -/
def Config.bufBytes : Nat := 256

/-- `RESULT_CAP` of this hardware (R8, D27). -/
def Config.resultCap : Nat := 51

/-- `MAXDEV_RESET`, the source's default (R8). -/
def Config.maxdevReset : Nat := 50

/-- `STACK_DEPTH` of this hardware (R8, 41_discovery R186). -/
def Config.stackDepth : Nat := 64

/-- `ADDR_BITS` of this hardware (R8). -/
def Config.addrBits : Nat := 64

/-- `OWC_BASE` is open and 2 KiB aligned (R60): a platform address falls in the window of a given base when it is
within 2 KiB above it, and its offset is the distance. -/
def Config.windowOffset (base addr : Nat) : Option Offset :=
  if base ≤ addr ∧ addr < base + 2048 then some (BitVec.ofNat 11 (addr - base)) else none

/-- OPEN PARAMETER. `CLK_HZ` of this hardware (R8). No body (notes/assumptions/13.md). -/
opaque Config.clkHz : Nat

/-- OPEN PARAMETER. The strength of this hardware's `PULL_CFG` (R8). No body (notes/assumptions/13.md). -/
opaque Config.pullStrength : Nat

/-- OPEN PARAMETER. The mode of this hardware's `PULL_CFG` (R8). No body (notes/assumptions/13.md). -/
opaque Config.pullMode : Nat

/-- The clock cycles the delay generator counts for `d` units of 0.25 us: whole cycles, rounded up (60_exceptions R275). No
operation of the model reads it. -/
def Params.delayCycles (p : Params) (d : Nat) : Nat := (d * p.clkHz + 3999999) / 4000000

/-- FREE VALUE. `LineOracle(H, NOW)` of 20_memory R75 has no law. Oracle number `k` is the oracle of one epoch between
block resets. No body: nothing is known of its answers (notes/assumptions/3.md, 4.md). -/
opaque Config.lineOracle : Nat → List LineEvent → Nat → Bit

/-- FREE VALUE. The `PRESENCE` (bit 0), `SPEED` (bit 1) and `RESULT` (bits 5:2) that the `n`-th `STATUS` read made while
a command runs returns (10_state R28). No body (notes/assumptions/10.md). -/
opaque Config.busyStatus : Nat → BitVec 6

end Sys2Proof
end

