-- ==== Sys2Proof/Syntax.lean ====
section
/-!
DEFINITION. The commands: one constructor per row of spec/opcode_table.json (30_encoding R95), carrying the operands the
command uses (R92, R93). Ignored fields (R94) are no part of a command.
-/

namespace Sys2Proof

/-- The 16 commands of 30_encoding R95. -/
inductive Instr where
  /-- `ow.reset` (40_bus_transport R140). -/
  | reset
  /-- `ow.wbit b` (R141), `b = ARG[0]`. -/
  | writeBit (b : Bit)
  /-- `ow.rbit` (R142). -/
  | readBit
  /-- `ow.wbyte imm8` (R143), `value = ARG`. -/
  | writeByte (v : Byte)
  /-- `ow.rbyte` (R144). -/
  | readByte
  /-- `ow.touch imm8` (R145), `value = ARG`. -/
  | touchByte (v : Byte)
  /-- `ow.block n` (R146), `n = LEN` bytes. -/
  | block (n : Half)
  /-- `ow.speed s` (R147), `s = ARG[0]`. -/
  | setSpeed (b : Bit)
  /-- `ow.odskip` (R148). -/
  | speedSkip
  /-- `ow.match` (R149). -/
  | matchAddress
  /-- `ow.skip` (R150). -/
  | skipAddress
  /-- `ow.search` (41_discovery R180). -/
  | search
  /-- `ow.crc8 n` (42_checksum R223), `n = LEN` bytes. -/
  | crc8 (n : Half)
  /-- `ow.crc8t n` (R224), `n = LEN` bytes. -/
  | crc8Table (n : Half)
  /-- `ow.crc8chk n` (R225), `n = LEN` bytes, the last the expected checksum. -/
  | crc8Check (n : Half)
  /-- `ow.crc16 n` (R228), `n = LEN` 16-bit words. -/
  | crc16 (n : Half)
  deriving DecidableEq, Repr

end Sys2Proof
end

