-- ==== Sys2Proof/WellFormed.lean ====
section
/-!
DEFINITION. Well-formed commands: the `LEN` limits of 30_encoding R97. Every other operand fits its field by its type.
A command that is not well-formed still has a meaning: it is a bad command (R96).
-/

namespace Sys2Proof

/-- The `LEN` of a command is within the limits of R97, for a `BUF` of so many bytes. -/
def Instr.wellFormedFor (bufBytes : Nat) : Instr → Bool
  | .block n => n.toNat ≤ bufBytes
  | .crc8 n => n.toNat ≤ bufBytes
  | .crc8Table n => n.toNat ≤ bufBytes
  | .crc8Check n => 1 ≤ n.toNat && n.toNat ≤ bufBytes
  | .crc16 n => 2 * n.toNat ≤ bufBytes
  | .reset | .writeBit _ | .readBit | .writeByte _ | .readByte | .touchByte _ | .setSpeed _ | .speedSkip
  | .matchAddress | .skipAddress | .search => true

/-- The `LEN` of a command is within the limits of R97 on this hardware. -/
def Instr.wellFormed (i : Instr) : Bool := i.wellFormedFor Config.bufBytes

end Sys2Proof
end

