-- ==== Sys2Proof/Decode.lean ====
section
/-!
DEFINITION. The command word (30_encoding R90 to R98): decoder, encoder, and the assembler and disassembler of R100.
-/

namespace Sys2Proof

/-- `OP = CMD[7:0]` (R90). -/
def opField (w : Word) : Byte := w.extractLsb' 0 8

/-- `ARG = CMD[15:8]` (R90). -/
def argField (w : Word) : Byte := w.extractLsb' 8 8

/-- `LEN = CMD[31:16]` (R90). -/
def lenField (w : Word) : Half := w.extractLsb' 16 16

/-- The bit immediate `ARG[0]` (R92). -/
def argBit (w : Word) : Bit := (argField w).getLsbD 0

/-- What a command word decodes to: a command, or the reserved opcode that makes it a bad command (R96). -/
inductive Decoded where
  | instr (i : Instr)
  | reserved (op : Byte)
  deriving DecidableEq, Repr

/-- The decoder selects on `OP` alone (R91, R95); every other `OP` is reserved (R96). -/
def decode (w : Word) : Decoded :=
  match (opField w).toNat with
  | 0x01 => .instr .reset
  | 0x02 => .instr (.writeBit (argBit w))
  | 0x03 => .instr .readBit
  | 0x04 => .instr (.writeByte (argField w))
  | 0x05 => .instr .readByte
  | 0x06 => .instr (.touchByte (argField w))
  | 0x07 => .instr (.block (lenField w))
  | 0x08 => .instr (.setSpeed (argBit w))
  | 0x09 => .instr .speedSkip
  | 0x0A => .instr .matchAddress
  | 0x0B => .instr .skipAddress
  | 0x0C => .instr .search
  | 0x10 => .instr (.crc8 (lenField w))
  | 0x11 => .instr (.crc8Table (lenField w))
  | 0x12 => .instr (.crc8Check (lenField w))
  | 0x13 => .instr (.crc16 (lenField w))
  | _ => .reserved (opField w)

/-- The opcode of R95. -/
def Instr.opcode : Instr → Byte
  | .reset => 0x01
  | .writeBit _ => 0x02
  | .readBit => 0x03
  | .writeByte _ => 0x04
  | .readByte => 0x05
  | .touchByte _ => 0x06
  | .block _ => 0x07
  | .setSpeed _ => 0x08
  | .speedSkip => 0x09
  | .matchAddress => 0x0A
  | .skipAddress => 0x0B
  | .search => 0x0C
  | .crc8 _ => 0x10
  | .crc8Table _ => 0x11
  | .crc8Check _ => 0x12
  | .crc16 _ => 0x13

/-- The `ARG` field of a command's word, 0 where the command ignores it (R92, R94). -/
def Instr.arg : Instr → Byte
  | .writeBit b => if b then 1 else 0
  | .writeByte v => v
  | .touchByte v => v
  | .setSpeed b => if b then 1 else 0
  | .reset | .readBit | .readByte | .block _ | .speedSkip | .matchAddress | .skipAddress | .search | .crc8 _
  | .crc8Table _ | .crc8Check _ | .crc16 _ => 0

/-- The `LEN` field of a command's word, 0 where the command ignores it (R93, R94). -/
def Instr.len : Instr → Half
  | .block n => n
  | .crc8 n => n
  | .crc8Table n => n
  | .crc8Check n => n
  | .crc16 n => n
  | .reset | .writeBit _ | .readBit | .writeByte _ | .readByte | .touchByte _ | .setSpeed _ | .speedSkip
  | .matchAddress | .skipAddress | .search => 0

/-- The command word `{LEN, ARG, OP}` (R90). -/
def encode (i : Instr) : Word := i.len ++ i.arg ++ i.opcode

/-- The fields an opcode uses, as a mask over the word (R94, R95): ignored bits are 0. -/
def usedMask (op : Byte) : Word :=
  match op.toNat with
  | 0x02 | 0x08 => 0x000001FF#32
  | 0x04 | 0x06 => 0x0000FFFF#32
  | 0x07 | 0x10 | 0x11 | 0x12 | 0x13 => 0xFFFF00FF#32
  | _ => 0x000000FF#32

/-- The command of a table row's word, whose bits above `nbits` are 0: none where the opcode is reserved. -/
def decodeTableWord (nbits w : Nat) : Option Instr :=
  match decode (BitVec.ofNat 32 (w % 2 ^ nbits)) with
  | .instr i => some i
  | .reserved _ => none

/-- The assembly forms of R100, whose operands are integer literals. -/
inductive Asm where
  | reset
  | wbit (b : Nat)
  | rbit
  | wbyte (imm8 : Nat)
  | rbyte
  | touch (imm8 : Nat)
  | block (n : Nat)
  | speed (s : Nat)
  | odskip
  | matchRom
  | skip
  | search
  | crc8 (n : Nat)
  | crc8t (n : Nat)
  | crc8chk (n : Nat)
  | crc16 (n : Nat)
  deriving DecidableEq, Repr

/-- A literal below its bound, shifted into place and added to the opcode; an out-of-range literal is an assembly error
(R100). -/
def asmOperand (bound shift op v : Nat) : Option Word :=
  if v < bound then some (BitVec.ofNat 32 (v * 2 ^ shift + op)) else none

/-- Each assembly form assembles to exactly one command word (R100). -/
def assemble : Asm → Option Word
  | .reset => some 0x00000001#32
  | .wbit b => asmOperand 2 8 0x02 b
  | .rbit => some 0x00000003#32
  | .wbyte v => asmOperand 256 8 0x04 v
  | .rbyte => some 0x00000005#32
  | .touch v => asmOperand 256 8 0x06 v
  | .block n => asmOperand 65536 16 0x07 n
  | .speed s => asmOperand 2 8 0x08 s
  | .odskip => some 0x00000009#32
  | .matchRom => some 0x0000000A#32
  | .skip => some 0x0000000B#32
  | .search => some 0x0000000C#32
  | .crc8 n => asmOperand 65536 16 0x10 n
  | .crc8t n => asmOperand 65536 16 0x11 n
  | .crc8chk n => asmOperand 65536 16 0x12 n
  | .crc16 n => asmOperand 65536 16 0x13 n

/-- The assembly form that stands for a command (R100). -/
def Instr.asm : Instr → Asm
  | .reset => .reset
  | .writeBit b => .wbit b.toNat
  | .readBit => .rbit
  | .writeByte v => .wbyte v.toNat
  | .readByte => .rbyte
  | .touchByte v => .touch v.toNat
  | .block n => .block n.toNat
  | .setSpeed b => .speed b.toNat
  | .speedSkip => .odskip
  | .matchAddress => .matchRom
  | .skipAddress => .skip
  | .search => .search
  | .crc8 n => .crc8 n.toNat
  | .crc8Table n => .crc8t n.toNat
  | .crc8Check n => .crc8chk n.toNat
  | .crc16 n => .crc16 n.toNat

/-- The `digits` low hexadecimal digits of a number, most significant first. -/
def hexDigits : Nat → Nat → String
  | 0, _ => ""
  | digits + 1, v => hexDigits digits (v / 16) ++ String.singleton (Nat.digitChar (v % 16)).toUpper

/-- The text of an assembly form (R100). -/
def Asm.text : Asm → String
  | .reset => "ow.reset"
  | .wbit b => "ow.wbit " ++ toString b
  | .rbit => "ow.rbit"
  | .wbyte v => "ow.wbyte 0x" ++ hexDigits 2 v
  | .rbyte => "ow.rbyte"
  | .touch v => "ow.touch 0x" ++ hexDigits 2 v
  | .block n => "ow.block " ++ toString n
  | .speed s => "ow.speed " ++ toString s
  | .odskip => "ow.odskip"
  | .matchRom => "ow.match"
  | .skip => "ow.skip"
  | .search => "ow.search"
  | .crc8 n => "ow.crc8 " ++ toString n
  | .crc8t n => "ow.crc8t " ++ toString n
  | .crc8chk n => "ow.crc8chk " ++ toString n
  | .crc16 n => "ow.crc16 " ++ toString n

/-- The disassembler of R100: a reserved `OP` prints as a `.word`, and ignored bits print only when they are not zero, as
a trailing comment (its layout is the model's, notes/assumptions/23.md). -/
def disassemble (w : Word) : String :=
  match decode w with
  | .reserved _ => ".word 0x" ++ hexDigits 8 w.toNat
  | .instr i =>
    let ignored := w &&& ~~~ usedMask (opField w)
    if ignored = 0#32 then i.asm.text else i.asm.text ++ " ; ignored 0x" ++ hexDigits 8 ignored.toNat

end Sys2Proof
end

