-- ==== Sys2Proof/Machine/Params.lean ====
section
/-!
DEFINITION. The parameters of this hardware: its two timing profiles (40_bus_transport R120) and the values of 00_scope R8.
-/

namespace Sys2Proof.Machine

/-- `TP_STD`, in units of 0.25 us (R120). -/
def tpStd : TimingProfile where
  writeRecoveryLow := 24
  write1RecoveryHigh := 256
  write0Low := 240
  write0RecoveryHigh := 40
  readRecoveryLow := 36
  readSampleWindow := 220
  resetPreDelay := 0
  resetLowDuration := 1920
  presenceSampleDelay := 280
  presenceRecoveryDelay := 1640

/-- `TP_OD`, in units of 0.25 us (R120). -/
def tpOd : TimingProfile where
  writeRecoveryLow := 6
  write1RecoveryHigh := 30
  write0Low := 30
  write0RecoveryHigh := 10
  readRecoveryLow := 3
  readSampleWindow := 28
  resetPreDelay := 10
  resetLowDuration := 280
  presenceSampleDelay := 34
  presenceRecoveryDelay := 160

/-- The timing profiles of this hardware (R8, 40_bus_transport R120). -/
def Timings.owc : Timings := { std := tpStd, od := tpOd }

/-- The parameters of this hardware (R8). -/
def Params.owc : Params where
  timings := Timings.owc
  maxdevReset := Config.maxdevReset
  resultCap := Config.resultCap
  bufBytes := Config.bufBytes
  clkHz := Config.clkHz
  pullCfg := { strength := Config.pullStrength, mode := Config.pullMode }
  stackDepth := Config.stackDepth
  addrBits := Config.addrBits

end Sys2Proof.Machine
end

