-- ==== Sys2Proof/Machine/State.lean ====
section
/-!
DEFINITION. The state of the OWC and of the agents around it (10_state, 20_memory R74, 00_scope R7), the fault and refusal
reasons (60_exceptions R262), and the state after block reset (R44, 70_reset_and_hazards R290, R292).
-/

namespace Sys2Proof.Machine

/-- The sequencer `SEQ` (R21). -/
inductive Seq where
  | idle
  | busy
  deriving DecidableEq, Repr

/-- The speed-select bit `SPEED` (R26, R36): 0 is the standard profile, 1 the overdrive profile. -/
inductive Speed where
  | standard
  | overdrive
  deriving DecidableEq, Repr

/-- The result codes 0 to 5 of `STATUS.RESULT` (R27). Codes 6 to 15 are never written, so they have no constructor. -/
inductive ResultCode where
  | ok
  | noPresence
  | protocolViolation
  | deviceLimit
  | checksumMismatch
  | badCommand
  deriving DecidableEq, Repr

/-- The direction of the pin (20_memory R74): output enables the driver, input disables it. -/
inductive PinDir where
  | input
  | output
  deriving DecidableEq, Repr

/-- The pin behind the contract of R74; `pull` is the configuration last applied (R292). -/
structure Pin where
  dir : PinDir
  latch : Bit
  pull : PullConfig
  deriving DecidableEq, Repr

/-- What the pin does to the line: `LINE` of R37 is `low` or `rel`. A driver enabled with the latch at 1 would drive the
line `high`, which no run does (R74). -/
inductive Line where
  | low
  | high
  | rel
  deriving DecidableEq, Repr

/-- The bus side of the OWC: the pin, and the ghost time `NOW` and history `H`, oldest event first (R41, R73). -/
structure Wire where
  pin : Pin
  now : Nat
  hist : List LineEvent
  deriving DecidableEq, Repr

/-- The discovery engine's internal state: `STK[0..SP-1]` with the top first, of `STACK_DEPTH` entries at most (R38),
`WADDR` (R39) and `SAFE` (R40). -/
structure Discovery where
  stk : List (Fin 64)
  waddr : Address
  safe : Byte
  deriving DecidableEq, Repr

/-- Which line oracle answers the samples (20_memory R75). `free` is the oracle with no law; the others are the test
fixtures the spec names (40_bus_transport R153, 41_discovery R187, 95_test_vectors), which read the history by the timing
profiles and the address width they are given. notes/assumptions/3.md, 18.md. -/
inductive Bus where
  /-- Oracle number `k` of `Config.lineOracle`: nothing is known of it. -/
  | free (k : Nat)
  /-- The `n`-th sample of the history is answered by entry `n` of `answers`, and after the last one by oracle `k`. -/
  | script (answers : List Bit) (k : Nat)
  /-- Every sample is answered `b`: `ALL0`, `ALL1`. -/
  | always (b : Bit)
  /-- The loopback oracle `LB` of R153. -/
  | loopback (T : Timings)
  /-- The device-population oracle `DP(S)` of R187, for addresses of this many bits. -/
  | population (T : Timings) (bits : Nat) (devices : List Address)
  /-- `ROM(a)` of 95_test_vectors, for an address of this many bits. -/
  | readRom (T : Timings) (bits : Nat) (device : Address)
  deriving DecidableEq, Repr

/-- The kinds of host access (R61). -/
inductive AccessKind where
  | read
  | write
  | fetch
  deriving DecidableEq, Repr

/-- A host access to the window: its byte offset, its width in bytes, and the word a write carries (R11, R61). -/
structure Access where
  kind : AccessKind
  off : Offset
  width : Nat
  value : Word
  deriving DecidableEq, Repr

/-- The host instructions of 30_encoding R101, with labels resolved to positions, and a raw access of any kind and width
(R61). -/
inductive HostInstr where
  /-- `st OFF, imm32`. -/
  | stImm (off : Offset) (imm : Word)
  /-- `st OFF, hN`. -/
  | stReg (off : Offset) (r : Nat)
  /-- `ld hN, OFF`. -/
  | ld (r : Nat) (off : Offset)
  /-- `if (hN & imm32) != 0 goto L`. -/
  | ifNonzero (r : Nat) (mask : Word) (target : Nat)
  /-- `if (hN & imm32) == 0 goto L`. -/
  | ifZero (r : Nat) (mask : Word) (target : Nat)
  /-- `halt`. -/
  | halt
  /-- Any access the bus can carry; a value read is dropped. -/
  | access (a : Access)
  deriving DecidableEq, Repr

/-- The host agent: its program, its position, and its registers `hN` by number, an unlisted one holding 0
(notes/assumptions/14.md). -/
structure HostCpu where
  prog : List HostInstr
  pc : Nat
  regs : List (Nat × Word)
  deriving DecidableEq, Repr

/-- Who moves next (R7, 70_reset_and_hazards R301; notes/assumptions/2.md). -/
inductive Turn where
  /-- The host executes its next instruction. -/
  | host
  /-- The controller runs the command in `CMD` to its end. -/
  | controller
  /-- The host lets `g` units of time pass between two commands (20_memory R73). -/
  | gap (g : Nat)
  /-- Block reset: while a command runs, after its first `k` line events and `d` units of time after the last of them
  (R291; notes/assumptions/6.md). -/
  | blockReset (k d : Nat)
  deriving DecidableEq, Repr

/-- The bytes of `BUF` and `RES` by window offset, offsets strictly rising (20_memory R62, R63). An unlisted offset is an
undefined byte (10_state R42). -/
abbrev Memory := List Host.Cell

/-- The state: the parameters the OWC was built with (00_scope R8), its own state (10_state R44), then the model's
fields for the bus, the host and the order of moves. -/
structure State where
  params : Params
  seq : Seq
  cmd : Word
  presence : Bit
  speed : Speed
  result : ResultCode
  data : Byte
  crc8r : Byte
  crc16r : Half
  maxdev : Byte
  devcount : Byte
  mem : Memory
  disc : Discovery
  wire : Wire
  past : List (List LineEvent)
  bus : Bus
  draws : Nat
  turns : List Turn
  host : HostCpu
  deriving DecidableEq, Repr

/-- What read an undefined byte (60_exceptions R262). -/
inductive UndefinedAt where
  /-- A host read at this offset. -/
  | hostRead (off : Offset)
  /-- A command: its word and the lowest undefined byte index it consumes. -/
  | command (word : Word) (index : Nat)
  deriving DecidableEq, Repr

/-- The model faults of 60_exceptions R262. All three are safe: the hardware does something the spec does not fix. -/
inductive Fault where
  /-- A host access that is not 32 bits wide, not at a multiple of 4, or a fetch; raised by `hostAccess` (R61). Safe. -/
  | hostAccess (off : Offset) (width : Nat)
  /-- A host access other than a `STATUS` read while a command runs; raised by `hostAccess` (R69). Safe. -/
  | busyAccess (off : Offset) (kind : AccessKind)
  /-- An undefined `BUF` or `RES` byte read by the host or consumed by a command; raised by `hostAccess` and
  `bufCommand` (R42). Safe. -/
  | undefinedRead (what : UndefinedAt)
  deriving DecidableEq, Repr

/-- The reasons to refuse a command. -/
inductive Refusal where
  /-- An arm of `exec` whose command has no meaning yet. Safe. No arm of this model uses it. -/
  | notModelled (mnemonic : String)
  deriving DecidableEq, Repr

/-- Right after block reset of an OWC with these parameters (R44, R290, R292): idle, standard speed, nothing defined,
the line released, the latch at 0 and `PULL_CFG` applied. `waddr` has no reset value in the spec
(notes/assumptions/8.md); the fields from `past` on are the model's (notes/assumptions/25.md). -/
def State.resetOf (p : Params) : State where
  params := p
  seq := .idle
  cmd := 0
  presence := false
  speed := .standard
  result := .ok
  data := 0
  crc8r := 0
  crc16r := 0
  maxdev := BitVec.ofNat 8 (min p.maxdevReset (p.resultCap - 1))
  devcount := 0
  mem := []
  disc := { stk := [], waddr := 0, safe := 0 }
  wire := { pin := { dir := .input, latch := false, pull := p.pullCfg }, now := 0, hist := [] }
  past := []
  bus := .free 0
  draws := 0
  turns := []
  host := { prog := [], pc := 0, regs := [] }

/-- This hardware right after block reset (R8, R44). -/
def State.reset : State := State.resetOf Params.owc

end Sys2Proof.Machine
end

