-- ==== Sys2Proof/Machine/Profile.lean ====
section
/-!
DEFINITION. The selection between the two timing profiles (40_bus_transport R122), and the bus-protocol bytes (30_encoding
R99).
-/

namespace Sys2Proof.Machine

/-- The profile a speed selects (R122). -/
def profileOf (T : Timings) : Speed → TimingProfile
  | .standard => T.std
  | .overdrive => T.od

/-- `profile()` (R122). -/
def State.profile (s : State) : TimingProfile := profileOf s.params.timings s.speed

/-- The search command byte (R99). -/
def searchByte : Byte := 0xF0

/-- The match-address command byte (R99). -/
def matchAddressByte : Byte := 0x55

/-- The skip-address command byte (R99). -/
def skipAddressByte : Byte := 0xCC

/-- The speed-upgrade command byte (R99). -/
def speedUpgradeByte : Byte := 0x3C

/-- The read-address byte: no command sends it (R99, 41_discovery R192); `ROM(a)` listens for it. -/
def readAddressByte : Byte := 0x33

end Sys2Proof.Machine
end

