-- ==== Sys2Proof/Machine/Ops.lean ====
section
/-!
DEFINITION. The named operations: the cells of memory, bit and byte order, the pin and the line actions, and the one way a
command ends. The OWC takes no exception and has no return from one (60_exceptions R260, R272): every outcome is reported
by `State.complete` (R261).
-/

namespace Sys2Proof.Machine

/-- The value listed at a key. -/
def cellsRead {β : Type} : List (Nat × β) → Nat → Option β
  | [], _ => none
  | c :: rest, a => if c.1 = a then some c.2 else cellsRead rest a

/-- List a value at a key, in rising order of keys. -/
def cellsWrite {β : Type} : List (Nat × β) → Nat → β → List (Nat × β)
  | [], a, v => [(a, v)]
  | c :: rest, a, v =>
    if a < c.1 then (a, v) :: c :: rest
    else if c.1 = a then (a, v) :: rest
    else c :: cellsWrite rest a v

/-- The byte at a window offset; none is an undefined byte (10_state R42). -/
def Memory.read (m : Memory) (a : Nat) : Option Byte := cellsRead m a

/-- Store a byte, which defines it (10_state R34, R35). -/
def Memory.write (m : Memory) (a : Nat) (b : Byte) : Memory := cellsWrite m a b

/-- Store bytes at consecutive offsets. -/
def Memory.writeBytes : Memory → Nat → List Byte → Memory
  | m, _, [] => m
  | m, a, b :: bs => Memory.writeBytes (Memory.write m a b) (a + 1) bs

/-- Mark every byte of offsets `lo` up to, not including, `hi` undefined (41_discovery R180). -/
def Memory.clear (m : Memory) (lo hi : Nat) : Memory := m.filter fun c => !(decide (lo ≤ c.1) && decide (c.1 < hi))

/-- The canonical form: offsets strictly rising. An unlisted offset reads as no value, which no entry can equal. -/
abbrev Memory.wf (m : Memory) : Prop := m.Pairwise fun c d => c.1 < d.1

/-- The window offset of `BUF[0]` (20_memory R63). -/
def bufBase : Nat := 0x100

/-- The window offset of `RES[0][0]` (20_memory R63). -/
def resBase : Nat := 0x400

/-- The window offset after the last byte of `BUF` (20_memory R63). -/
def State.bufEnd (s : State) : Nat := bufBase + s.params.bufBytes

/-- The window offset after the last byte of `RES`: its entries are addresses of `ADDR_BITS` bits (20_memory R63). -/
def State.resEnd (s : State) : Nat := resBase + s.params.addrBytes * s.params.resultCap

/-- The window offset of `RES[e][j]` (20_memory R62). -/
def State.resAddr (s : State) (e j : Nat) : Nat := resBase + s.params.addrBytes * e + j

/-- `BUF[k]` (10_state R34). -/
def State.bufByte (s : State) (k : Nat) : Option Byte := Memory.read s.mem (bufBase + k)

/-- `RES[e][j]` (10_state R35). -/
def State.resByte (s : State) (e j : Nat) : Option Byte := Memory.read s.mem (s.resAddr e j)

/-- `zext_8` of a bit (00_scope R10). -/
def bitByte (b : Bit) : Byte := if b then 1 else 0

/-- `{b3, b2, b1, b0}`: host words are little-endian (20_memory R62). -/
def wordOfBytes (b0 b1 b2 b3 : Byte) : Word := b3 ++ b2 ++ b1 ++ b0

/-- The four bytes of a host word, low byte first (20_memory R62). -/
def bytesOfWord (w : Word) : List Byte := [w.extractLsb' 0 8, w.extractLsb' 8 8, w.extractLsb' 16 8, w.extractLsb' 24 8]

/-- The bits of a byte, least significant first (20_memory R76). -/
def bitsOfByte (v : Byte) : List Bit := (List.range 8).map v.getLsbD

/-- The first `n` bytes of a device address, family code first: address bit `i` is bit `i mod 8` of byte `i div 8`
(20_memory R76). -/
def bytesOfAddress (n : Nat) (a : Address) : List Byte := (List.range n).map fun j => a.extractLsb' (8 * j) 8

/-- Record bit `i` of an address. -/
def setAddressBit (a : Address) (i : Fin 64) (b : Bit) : Address :=
  if b then a ||| (1#64 <<< i.val) else a &&& ~~~(1#64 <<< i.val)

/-- `LINE` (10_state R37) as the pin drives it. -/
def Pin.line (p : Pin) : Line :=
  match p.dir with
  | .input => .rel
  | .output => if p.latch then .high else .low

/-- `setOutputDirection()` (20_memory R74). -/
def Pin.setOutputDirection (p : Pin) : Pin := { p with dir := .output }

/-- `setInputDirection()` (20_memory R74). -/
def Pin.setInputDirection (p : Pin) : Pin := { p with dir := .input }

/-- `writeLevel(level)` (20_memory R74). -/
def Pin.writeLevel (p : Pin) (level : Bit) : Pin := { p with latch := level }

/-- `configurePullMode(...)` (20_memory R74). -/
def Pin.configurePullMode (p : Pin) (pull : PullConfig) : Pin := { p with pull := pull }

/-- The pin calls of block reset, in order (20_memory R74, 70_reset_and_hazards R292). -/
def Pin.blockReset (p : Pin) (pullCfg : PullConfig) : Pin :=
  ((p.configurePullMode pullCfg).writeLevel false).setInputDirection

/-- `DriveLow()` (00_scope R12, 20_memory R73, R74). -/
def Wire.driveLow (w : Wire) : Wire := { w with pin := w.pin.setOutputDirection, hist := w.hist ++ [.low w.now] }

/-- `Release()` (00_scope R12, 20_memory R73, R74). -/
def Wire.release (w : Wire) : Wire := { w with pin := w.pin.setInputDirection, hist := w.hist ++ [.rel w.now] }

/-- `Delay(d)` (20_memory R73). -/
def Wire.delay (w : Wire) (d : Nat) : Wire := { w with now := w.now + d }

/-- `SMP(NOW, v)` joins the history when a sample read `v` (20_memory R73). -/
def Wire.recordSample (w : Wire) (v : Bit) : Wire := { w with hist := w.hist ++ [.smp w.now v] }

/-- Put the bus side after some line actions back into the state. -/
def State.setWire (s : State) (w : Wire) : State := { s with wire := w }

/-- `DATA <- zext_32(v)` (10_state R29). -/
def State.setData (s : State) (v : Byte) : State := { s with data := v }

/-- `STATUS.PRESENCE <- p` (10_state R25). -/
def State.setPresence (s : State) (p : Bit) : State := { s with presence := p }

/-- `SPEED <- v` (10_state R36). -/
def State.setSpeed (s : State) (v : Speed) : State := { s with speed := v }

/-- `CRC8R <- zext_32(c)` (10_state R30). -/
def State.setCrc8 (s : State) (c : Byte) : State := { s with crc8r := c }

/-- `CRC16R <- zext_32(c)` (10_state R31). -/
def State.setCrc16 (s : State) (c : Half) : State := { s with crc16r := c }

/-- Store bytes into the window's memory. -/
def State.storeBytes (s : State) (a : Nat) (bs : List Byte) : State := { s with mem := Memory.writeBytes s.mem a bs }

/-- The discovery engine's state after some of its steps. -/
def State.setDisc (s : State) (d : Discovery) : State := { s with disc := d }

/-- `Complete(code)`: the last action of every command (60_exceptions R261). -/
def State.complete (s : State) (code : ResultCode) : State := { s with result := code, seq := .idle }

/-- `BadCommand()` (30_encoding R96): nothing but the result code changes. -/
def State.badCommand (s : State) : State := s.complete .badCommand

end Sys2Proof.Machine
end

