-- ==== Sys2Proof/Machine/Bus.lean ====
section
/-!
DEFINITION. The line oracle (20_memory R75): the free one, which has no law, and the test fixtures of the spec, which read
the history as a sequence of slots.
-/

namespace Sys2Proof.Machine

/-- A slot of the history, as 40_bus_transport R125 to R127 shape them. -/
inductive Slot where
  /-- A bus reset and its presence sample. -/
  | busReset (v : Bit)
  /-- A write slot and its bit. -/
  | write (b : Bit)
  /-- A read slot and its sample. -/
  | read (v : Bit)
  deriving DecidableEq, Repr

/-- A low pulse of this length is a bus reset's, at either speed (41_discovery R187). -/
def isResetPulse (T : Timings) (d : Nat) : Bool := d == T.std.resetLowDuration || d == T.od.resetLowDuration

/-- The bit of a write slot with a low pulse of this length: 1 for `writeRecoveryLow`, at either speed, else 0 (R153). -/
def pulseBit (T : Timings) (d : Nat) : Bit := d == T.std.writeRecoveryLow || d == T.od.writeRecoveryLow

/-- The completed slots of a history. `low` is the time of the last `LOW`, and `pulse` the length of a low pulse whose slot
is still open: the next `LOW` shows it was a write slot, a sample that it was a reset or a read slot. -/
def slotsFrom (T : Timings) (low : Nat) (pulse : Option Nat) : List LineEvent → List Slot
  | [] => []
  | .low t :: rest =>
    match pulse with
    | some d => .write (pulseBit T d) :: slotsFrom T t none rest
    | none => slotsFrom T t none rest
  | .rel t :: rest => slotsFrom T low (some (t - low)) rest
  | .smp _ v :: rest =>
    match pulse with
    | some d => (if isResetPulse T d then .busReset v else .read v) :: slotsFrom T low none rest
    | none => slotsFrom T low none rest

/-- The completed slots of a history. -/
def slotsOf (T : Timings) (h : List LineEvent) : List Slot := slotsFrom T 0 none h

/-- The low pulse of the slot in progress at the end of a history. -/
def openPulse (low : Nat) (pulse : Nat) : List LineEvent → Nat
  | [] => pulse
  | .low t :: rest => openPulse t pulse rest
  | .rel t :: rest => openPulse low (t - low) rest
  | .smp _ _ :: rest => openPulse low pulse rest

/-- The sample asked for is a bus reset's presence sample. -/
def atPresenceSample (T : Timings) (h : List LineEvent) : Bool := isResetPulse T (openPulse 0 0 h)

/-- How many samples a history holds. -/
def sampleCount : List LineEvent → Nat
  | [] => 0
  | .smp _ _ :: rest => sampleCount rest + 1
  | .low _ :: rest => sampleCount rest
  | .rel _ :: rest => sampleCount rest

/-- The bits of the write slots, in order. -/
def writtenBits : List Slot → List Bit
  | [] => []
  | .write b :: rest => b :: writtenBits rest
  | .busReset _ :: rest => writtenBits rest
  | .read _ :: rest => writtenBits rest

/-- How many read slots there are. -/
def readCount : List Slot → Nat
  | [] => 0
  | .read _ :: rest => readCount rest + 1
  | .busReset _ :: rest => readCount rest
  | .write _ :: rest => readCount rest

/-- `LB` (R153): read slot number `k` is answered with the bit of write slot number `k`, or 1 when there is none. -/
def loopbackAnswer (T : Timings) (h : List LineEvent) : Bit :=
  if atPresenceSample T h then true else (writtenBits (slotsOf T h)).getD (readCount (slotsOf T h)) true

/-- Where the devices of a fixture are in the protocol. -/
inductive DeviceMode where
  /-- Listening to nothing until the next bus reset. -/
  | quiet
  /-- After a bus reset, the bits of the command byte received so far. -/
  | command (bits : List Bit)
  /-- Searching, before the first read slot of bit `i`. -/
  | bit (i : Nat)
  /-- Searching, before the second read slot of bit `i`. -/
  | complementBit (i : Nat)
  /-- Searching, before the write slot of bit `i`. -/
  | direction (i : Nat)
  deriving DecidableEq, Repr

/-- The devices of a fixture: those still taking part, and where they are. -/
structure Devices where
  active : List Address
  mode : DeviceMode
  deriving DecidableEq, Repr

/-- The mode after one more bit of a command byte: the byte `start` begins the answers. -/
def commandMode (start : Byte) (bits : List Bit) : DeviceMode :=
  if bits.length < 8 then .command bits else if bits = bitsOfByte start then .bit 0 else .quiet

/-- `DP(S)` follows one slot (R187). DESIGN CHOICE (notes/assumptions/27.md): R187 says nothing of a slot out of the search's
order (a write slot before the two reads of a bit, a third read before its write slot, a read slot inside the command
byte). On one, and after another command byte or the last bit, the devices go quiet: they lose their place, and every slot
gets 1 until the next bus reset. -/
def populationSlot (bits : Nat) (devices : List Address) (d : Devices) (slot : Slot) : Devices :=
  match slot, d.mode with
  | .busReset _, _ => { active := devices, mode := .command [] }
  | .write b, .command sent => { d with mode := commandMode searchByte (sent ++ [b]) }
  | .read _, .bit i => { d with mode := .complementBit i }
  | .read _, .complementBit i => { d with mode := .direction i }
  | .write b, .direction i =>
    { active := d.active.filter fun a => a.getLsbD i == b, mode := if i + 1 < bits then .bit (i + 1) else .quiet }
  | .write _, .quiet | .write _, .bit _ | .write _, .complementBit _ | .read _, .quiet | .read _, .command _
  | .read _, .direction _ => { d with mode := .quiet }

/-- `DP(S)` after a history. -/
def populationAfter (T : Timings) (bits : Nat) (devices : List Address) (h : List LineEvent) : Devices :=
  (slotsOf T h).foldl (populationSlot bits devices) { active := devices, mode := .quiet }

/-- The answer of `DP(S)`: the wired-AND of the active devices (R187). -/
def populationAnswer (T : Timings) (bits : Nat) (devices : List Address) (h : List LineEvent) : Bit :=
  if atPresenceSample T h then devices.isEmpty
  else
    match (populationAfter T bits devices h).mode with
    | .bit i => (populationAfter T bits devices h).active.all fun a => a.getLsbD i
    | .complementBit i => (populationAfter T bits devices h).active.all fun a => !a.getLsbD i
    | .quiet | .command _ | .direction _ => true

/-- `ROM(a)` follows one slot: after the byte 0x33 it answers one read slot for each bit, 64 on this
hardware (95_test_vectors). DESIGN CHOICE
(notes/assumptions/27.md): a read slot inside the command byte or another command byte makes it quiet until the next bus
reset, and a write slot among those reads does not count. -/
def readRomSlot (bits : Nat) (m : DeviceMode) (slot : Slot) : DeviceMode :=
  match slot, m with
  | .busReset _, _ => .command []
  | .write b, .command sent => commandMode readAddressByte (sent ++ [b])
  | .read _, .bit i => if i + 1 < bits then .bit (i + 1) else .quiet
  | .write _, .bit i => .bit i
  | .write _, _ => .quiet
  | .read _, _ => .quiet

/-- The answer of `ROM(a)` (95_test_vectors). -/
def readRomAnswer (T : Timings) (bits : Nat) (device : Address) (h : List LineEvent) : Bit :=
  if atPresenceSample T h then false
  else
    match (slotsOf T h).foldl (readRomSlot bits) .quiet with
    | .bit i => device.getLsbD i
    | .quiet | .command _ | .complementBit _ | .direction _ => true

/-- `LineOracle(H, NOW)` (20_memory R75). -/
def Bus.answer (b : Bus) (h : List LineEvent) (now : Nat) : Bit :=
  match b with
  | .free k => Config.lineOracle k h now
  | .script answers k => answers.getD (sampleCount h) (Config.lineOracle k h now)
  | .always v => v
  | .loopback T => loopbackAnswer T h
  | .population T bits devices => populationAnswer T bits devices h
  | .readRom T bits device => readRomAnswer T bits device h

/-- Block reset empties the history, and the free oracle of the new epoch is a fresh one (notes/assumptions/4.md). -/
def Bus.afterReset : Bus → Bus
  | .free k => .free (k + 1)
  | .script answers k => .script answers (k + 1)
  | .always v => .always v
  | .loopback T => .loopback T
  | .population T bits devices => .population T bits devices
  | .readRom T bits device => .readRom T bits device

/-- `v <- Sample()`: the bit and the bus side after it (00_scope R12, 20_memory R73, R75). -/
def Wire.sample (w : Wire) (bus : Bus) : Bit × Wire :=
  (bus.answer w.hist w.now, w.recordSample (bus.answer w.hist w.now))

end Sys2Proof.Machine
end

