-- ==== Sys2Proof/Machine/Flags.lean ====
section
/-!
DEFINITION. The OWC's only flags are the `STATUS` fields (10_state R43): their positions (R24 to R28) and the word a host
read of `STATUS` returns.
-/

namespace Sys2Proof.Machine

/-- The code of a result (R27). -/
def ResultCode.code : ResultCode → BitVec 4
  | .ok => 0
  | .noPresence => 1
  | .protocolViolation => 2
  | .deviceLimit => 3
  | .checksumMismatch => 4
  | .badCommand => 5

/-- The speed-select bit (R26). -/
def Speed.bit : Speed → Bit
  | .standard => false
  | .overdrive => true

/-- The speed a bit selects (R26, 40_bus_transport R147). -/
def speedOfBit (b : Bit) : Speed := if b then .overdrive else .standard

/-- `STATUS.BUSY` is `SEQ = BUSY` (R21, R24). -/
def State.busyBit (s : State) : Bit := s.seq == .busy

/-- A `STATUS` word from its fields: `BUSY` at 0, `PRESENCE` at 1, `SPEED` at 2, `RESULT` at 7:4, reserved bits 0 (R24 to
R28). -/
def statusWord (busy presence speed : Bit) (result : BitVec 4) : Word :=
  (0#24 ++ result ++ 0#1 ++ BitVec.ofBool speed ++ BitVec.ofBool presence ++ BitVec.ofBool busy : BitVec 32)

/-- `STATUS` as an idle OWC returns it (R24 to R28). -/
def State.status (s : State) : Word := statusWord s.busyBit s.presence s.speed.bit s.result.code

/-- `STATUS` as read while a command runs: `BUSY = 1` and the other fields drawn (R28). -/
def busyStatusWord (draw : BitVec 6) : Word :=
  statusWord true (draw.getLsbD 0) (draw.getLsbD 1) (draw.extractLsb' 2 4)

end Sys2Proof.Machine
end

