-- ==== Sys2Proof/Machine/Operands.lean ====
section
/-!
DEFINITION. The operands a command takes from `BUF` (30_encoding R93), the `LEN` limits (R97), and the checks every such
command makes before anything else (60_exceptions R269).
-/

namespace Sys2Proof.Machine

/-- The limit of BLOCK, CRC8 and CRC8_TABLE: `0 <= LEN <= BUF_BYTES` (R97). -/
def lenBytesLegal (bufBytes : Nat) (n : Half) : Bool := decide (n.toNat ≤ bufBytes)

/-- The limit of CRC8_CHECK: `1 <= LEN <= BUF_BYTES` (R97). -/
def lenCheckLegal (bufBytes : Nat) (n : Half) : Bool := decide (1 ≤ n.toNat) && decide (n.toNat ≤ bufBytes)

/-- The limit of CRC16: `2*LEN <= BUF_BYTES` (R97). -/
def lenWordsLegal (bufBytes : Nat) (n : Half) : Bool := decide (2 * n.toNat ≤ bufBytes)

/-- `BUF[k .. k+n-1]`, or the lowest index of an undefined byte among them (10_state R42, 60_exceptions R262). -/
def State.bufOperand (s : State) (k : Nat) : Nat → Except Nat (List Byte)
  | 0 => .ok []
  | n + 1 =>
    match s.bufByte k with
    | none => .error k
    | some b =>
      match s.bufOperand (k + 1) n with
      | .error j => .error j
      | .ok bs => .ok (b :: bs)

/-- The 16-bit words of a byte string, each little-endian: word `k` is `{BUF[2k+1], BUF[2k]}` (42_checksum R226, R228). -/
def wordsOfBytes : List Byte → List Half
  | b0 :: b1 :: rest => (b1 ++ b0) :: wordsOfBytes rest
  | _ => []

/-- A command over the first `n` bytes of `BUF`: a bad `LEN` is a bad command, then an undefined byte faults, and only then
the command runs (60_exceptions R269, checks 4 to 6). -/
def bufCommand (legal : Bool) (n : Nat) (run : List Byte → State) (s : State) : Host.Outcome State Fault Refusal :=
  if legal then
    match s.bufOperand 0 n with
    | .error j => .fault (.undefinedRead (.command s.cmd j))
    | .ok bs => .next (run bs)
  else .next s.badCommand

end Sys2Proof.Machine
end

