-- ==== Sys2Proof/Machine/Checksum.lean ====
section
/-!
DEFINITION. The checksum engine (42_checksum): the functions of section 1 and one meaning for each command of section 2.
-/

namespace Sys2Proof.Machine

/-- One shift of the bitwise 8-bit update (R220). -/
def crc8Shift (c : Byte) : Byte := if c.getLsbD 0 then (c >>> 1) ^^^ 0x8C else c >>> 1

/-- `n` shifts in a row. -/
def crc8Shifts : Nat → Byte → Byte
  | 0, c => c
  | n + 1, c => crc8Shifts n (crc8Shift c)

/-- `Crc8Step(c, x)` (R220). -/
def crc8Step (c x : Byte) : Byte := crc8Shifts 8 (c ^^^ x)

/-- `Crc8` of a byte string, seed 0 (R220). -/
def crc8Of (bs : List Byte) : Byte := bs.foldl crc8Step 0

/-- `T8[0x0 .. 0x1f]` (R221). -/
def crc8Row0 : List Byte :=
  [0x00, 0x5E, 0xBC, 0xE2, 0x61, 0x3F, 0xDD, 0x83,
   0xC2, 0x9C, 0x7E, 0x20, 0xA3, 0xFD, 0x1F, 0x41,
   0x9D, 0xC3, 0x21, 0x7F, 0xFC, 0xA2, 0x40, 0x1E,
   0x5F, 0x01, 0xE3, 0xBD, 0x3E, 0x60, 0x82, 0xDC]

/-- `T8[0x20 .. 0x3f]` (R221). -/
def crc8Row1 : List Byte :=
  [0x23, 0x7D, 0x9F, 0xC1, 0x42, 0x1C, 0xFE, 0xA0,
   0xE1, 0xBF, 0x5D, 0x03, 0x80, 0xDE, 0x3C, 0x62,
   0xBE, 0xE0, 0x02, 0x5C, 0xDF, 0x81, 0x63, 0x3D,
   0x7C, 0x22, 0xC0, 0x9E, 0x1D, 0x43, 0xA1, 0xFF]

/-- `T8[0x40 .. 0x5f]` (R221). -/
def crc8Row2 : List Byte :=
  [0x46, 0x18, 0xFA, 0xA4, 0x27, 0x79, 0x9B, 0xC5,
   0x84, 0xDA, 0x38, 0x66, 0xE5, 0xBB, 0x59, 0x07,
   0xDB, 0x85, 0x67, 0x39, 0xBA, 0xE4, 0x06, 0x58,
   0x19, 0x47, 0xA5, 0xFB, 0x78, 0x26, 0xC4, 0x9A]

/-- `T8[0x60 .. 0x7f]` (R221). -/
def crc8Row3 : List Byte :=
  [0x65, 0x3B, 0xD9, 0x87, 0x04, 0x5A, 0xB8, 0xE6,
   0xA7, 0xF9, 0x1B, 0x45, 0xC6, 0x98, 0x7A, 0x24,
   0xF8, 0xA6, 0x44, 0x1A, 0x99, 0xC7, 0x25, 0x7B,
   0x3A, 0x64, 0x86, 0xD8, 0x5B, 0x05, 0xE7, 0xB9]

/-- `T8[0x80 .. 0x9f]` (R221). -/
def crc8Row4 : List Byte :=
  [0x8C, 0xD2, 0x30, 0x6E, 0xED, 0xB3, 0x51, 0x0F,
   0x4E, 0x10, 0xF2, 0xAC, 0x2F, 0x71, 0x93, 0xCD,
   0x11, 0x4F, 0xAD, 0xF3, 0x70, 0x2E, 0xCC, 0x92,
   0xD3, 0x8D, 0x6F, 0x31, 0xB2, 0xEC, 0x0E, 0x50]

/-- `T8[0xa0 .. 0xbf]` (R221). -/
def crc8Row5 : List Byte :=
  [0xAF, 0xF1, 0x13, 0x4D, 0xCE, 0x90, 0x72, 0x2C,
   0x6D, 0x33, 0xD1, 0x8F, 0x0C, 0x52, 0xB0, 0xEE,
   0x32, 0x6C, 0x8E, 0xD0, 0x53, 0x0D, 0xEF, 0xB1,
   0xF0, 0xAE, 0x4C, 0x12, 0x91, 0xCF, 0x2D, 0x73]

/-- `T8[0xc0 .. 0xdf]` (R221). -/
def crc8Row6 : List Byte :=
  [0xCA, 0x94, 0x76, 0x28, 0xAB, 0xF5, 0x17, 0x49,
   0x08, 0x56, 0xB4, 0xEA, 0x69, 0x37, 0xD5, 0x8B,
   0x57, 0x09, 0xEB, 0xB5, 0x36, 0x68, 0x8A, 0xD4,
   0x95, 0xCB, 0x29, 0x77, 0xF4, 0xAA, 0x48, 0x16]

/-- `T8[0xe0 .. 0xff]` (R221). -/
def crc8Row7 : List Byte :=
  [0xE9, 0xB7, 0x55, 0x0B, 0x88, 0xD6, 0x34, 0x6A,
   0x2B, 0x75, 0x97, 0xC9, 0x4A, 0x14, 0xF6, 0xA8,
   0x74, 0x2A, 0xC8, 0x96, 0x15, 0x4B, 0xA9, 0xF7,
   0xB6, 0xE8, 0x0A, 0x54, 0xD7, 0x89, 0x6B, 0x35]

/-- The 256-entry table `T8` as the spec prints it (R221). -/
def crc8Table : List Byte :=
  crc8Row0 ++ crc8Row1 ++ crc8Row2 ++ crc8Row3 ++ crc8Row4 ++ crc8Row5 ++ crc8Row6 ++ crc8Row7

/-- `Crc8TStep(c, x) = T8[c ^ x]` (R221). -/
def crc8TableStep (c x : Byte) : Byte := crc8Table.getD (c ^^^ x).toNat 0

/-- `Crc8T` of a byte string, seed 0 (R221). -/
def crc8TableOf (bs : List Byte) : Byte := bs.foldl crc8TableStep 0

/-- `ODDP`, the parity of a nibble (R226). -/
def oddp : List Bit :=
  [false, true, true, false, true, false, false, true, true, false, false, true, false, true, true, false]

/-- The parity of a byte by two nibble lookups (R226). -/
def oddParity (d : Byte) : Bit := oddp.getD (d.toNat % 16) false ^^ oddp.getD (d.toNat / 16) false

/-- `Crc16Step(c, w)` (R226): the high byte of the word is not used. -/
def crc16Step (c w : Half) : Half :=
  let d : Byte := w.extractLsb' 0 8 ^^^ c.extractLsb' 0 8
  let c1 := c >>> 8
  let c2 := if oddParity d then c1 ^^^ 0xC001 else c1
  (c2 ^^^ (d.setWidth 16 <<< 6)) ^^^ (d.setWidth 16 <<< 7)

/-- `Crc16` of a word string, seed 0 (R226). -/
def crc16Of (ws : List Half) : Half := ws.foldl crc16Step 0

/-- CRC8 (R223). -/
def execCrc8 (n : Half) (s : State) : Host.Outcome State Fault Refusal :=
  bufCommand (lenBytesLegal s.params.bufBytes n) n.toNat (fun bs => (s.setCrc8 (crc8Of bs)).complete .ok) s

/-- CRC8_TABLE (R224). -/
def execCrc8Table (n : Half) (s : State) : Host.Outcome State Fault Refusal :=
  bufCommand (lenBytesLegal s.params.bufBytes n) n.toNat (fun bs => (s.setCrc8 (crc8TableOf bs)).complete .ok) s

/-- The last byte of a buffer is the checksum of the others (R225). -/
def checksumMatches (bs : List Byte) : Bool := crc8Of bs.dropLast == bs.getLastD 0

/-- CRC8_CHECK (R225). -/
def execCrc8Check (n : Half) (s : State) : Host.Outcome State Fault Refusal :=
  bufCommand (lenCheckLegal s.params.bufBytes n) n.toNat (fun bs =>
    (s.setCrc8 (crc8Of bs.dropLast)).complete (if checksumMatches bs then .ok else .checksumMismatch)) s

/-- CRC16 (R228). -/
def execCrc16 (n : Half) (s : State) : Host.Outcome State Fault Refusal :=
  bufCommand (lenWordsLegal s.params.bufBytes n) (2 * n.toNat) (fun bs => (s.setCrc16 (crc16Of (wordsOfBytes bs))).complete .ok) s

end Sys2Proof.Machine
end

