-- ==== Sys2Proof/Machine/Sequences.lean ====
section
/-!
DEFINITION. The line sequences every transport command is built from (40_bus_transport section 2), over the bus side alone:
`P` is the profile, read once (R123), and `bus` answers the samples.
-/

namespace Sys2Proof.Machine

/-- `ResetSeq()` (R125): the presence bit and the bus side after it. -/
def Wire.resetSeq (bus : Bus) (P : TimingProfile) (w : Wire) : Bit × Wire :=
  let low := (w.delay P.resetPreDelay).driveLow.delay P.resetLowDuration
  let r := (low.release.delay P.presenceSampleDelay).sample bus
  (!r.1, r.2.delay P.presenceRecoveryDelay)

/-- `WriteBitSeq(b)` (R126). -/
def Wire.writeBitSeq (P : TimingProfile) (b : Bit) (w : Wire) : Wire :=
  if b then (w.driveLow.delay P.writeRecoveryLow).release.delay P.write1RecoveryHigh
  else (w.driveLow.delay P.write0Low).release.delay P.write0RecoveryHigh

/-- `ReadBitSeq()` (R127). -/
def Wire.readBitSeq (bus : Bus) (P : TimingProfile) (w : Wire) : Bit × Wire :=
  let r := ((w.driveLow.delay P.writeRecoveryLow).release.delay P.readRecoveryLow).sample bus
  (r.1, r.2.delay P.readSampleWindow)

/-- Write slots for a list of bits, in order. -/
def Wire.writeBits (P : TimingProfile) : List Bit → Wire → Wire
  | [], w => w
  | b :: bs, w => Wire.writeBits P bs (w.writeBitSeq P b)

/-- `WriteByteSeq(v)` (R128): least significant bit first. -/
def Wire.writeByteSeq (P : TimingProfile) (v : Byte) (w : Wire) : Wire := Wire.writeBits P (bitsOfByte v) w

/-- Bytes in order, each by `WriteByteSeq`. -/
def Wire.writeBytesSeq (P : TimingProfile) : List Byte → Wire → Wire
  | [], w => w
  | v :: vs, w => Wire.writeBytesSeq P vs (w.writeByteSeq P v)

/-- `acc <- (acc >> 1) | (bit << 7)` (R129). -/
def shiftIn (acc : Byte) (b : Bit) : Byte := (acc >>> 1) ||| (bitByte b <<< 7)

/-- `n` read slots shifted into an accumulator (R129). -/
def Wire.readBits (bus : Bus) (P : TimingProfile) : Nat → Byte → Wire → Byte × Wire
  | 0, acc, w => (acc, w)
  | n + 1, acc, w => Wire.readBits bus P n (shiftIn acc (w.readBitSeq bus P).1) (w.readBitSeq bus P).2

/-- `ReadByteSeq()` (R129). -/
def Wire.readByteSeq (bus : Bus) (P : TimingProfile) (w : Wire) : Byte × Wire := Wire.readBits bus P 8 0 w

/-- One slot of a touch: a 1 is read, a 0 is written and sensed as 0 (R130). -/
def Wire.touchBitSeq (bus : Bus) (P : TimingProfile) (b : Bit) (w : Wire) : Bit × Wire :=
  if b then w.readBitSeq bus P else (false, w.writeBitSeq P false)

/-- Touch slots for a list of bits shifted into an accumulator (R130). -/
def Wire.touchBits (bus : Bus) (P : TimingProfile) : List Bit → Byte → Wire → Byte × Wire
  | [], acc, w => (acc, w)
  | b :: bs, acc, w =>
    Wire.touchBits bus P bs (shiftIn acc (w.touchBitSeq bus P b).1) (w.touchBitSeq bus P b).2

/-- `TouchByteSeq(v)` (R130). -/
def Wire.touchByteSeq (bus : Bus) (P : TimingProfile) (v : Byte) (w : Wire) : Byte × Wire :=
  Wire.touchBits bus P (bitsOfByte v) 0 w

/-- Each byte of a buffer touched, in index order: the bytes sensed (R146). -/
def Wire.touchBytesSeq (bus : Bus) (P : TimingProfile) : List Byte → Wire → List Byte × Wire
  | [], w => ([], w)
  | v :: vs, w =>
    let r := w.touchByteSeq bus P v
    let rest := Wire.touchBytesSeq bus P vs r.2
    (r.1 :: rest.1, rest.2)

/-- `ResetSeq()` with its write of `STATUS.PRESENCE` (R125, 10_state R25). -/
def State.resetSeq (s : State) : Bit × State :=
  let r := s.wire.resetSeq s.bus s.profile
  (r.1, (s.setWire r.2).setPresence r.1)

end Sys2Proof.Machine
end

