-- ==== Sys2Proof/Machine/Discovery.lean ====
section
/-!
DEFINITION. The discovery engine (41_discovery): one search pass.
-/

namespace Sys2Proof.Machine

/-- `SP`, the depth of the discrepancy stack (10_state R38). -/
def Discovery.sp (d : Discovery) : Nat := d.stk.length

/-- `push(i)` on a stack of `STACK_DEPTH` entries (10_state R38, 00_scope R8). DESIGN CHOICE (notes/assumptions/29.md): a
full stack stays as it is. R186 proves that it never is one where there is an entry for every bit position. -/
def Discovery.push (depth : Nat) (d : Discovery) (i : Fin 64) : Discovery :=
  if d.sp < depth then { d with stk := i :: d.stk } else d

/-- `WADDR[i] <- b` (R181). -/
def Discovery.record (d : Discovery) (i : Fin 64) (b : Bit) : Discovery := { d with waddr := setAddressBit d.waddr i b }

/-- `ChooseDirection(i)` (R182, 90_conflicts C1): the bit to take and the stack after it. -/
def chooseDirection (depth : Nat) (i : Fin 64) (d : Discovery) : Bit × Discovery :=
  match d.stk with
  | [] => (false, d.push depth i)
  | t :: rest =>
    if i = t then (true, { d with stk := rest })
    else if t < i then (false, d.push depth i)
    else (d.waddr.getLsbD i.val, d)

/-- How a walk ends (R181). -/
inductive WalkResult where
  | done
  | noPresence
  | protocolViolation
  deriving DecidableEq, Repr

/-- A walk in progress: how it ended so far, the engine and the bus side. -/
structure WalkEnd where
  result : WalkResult
  disc : Discovery
  wire : Wire
  deriving DecidableEq, Repr

/-- The direction at bit `i` after the two reads: the bit all agree on, or the discrepancy rule (R181). -/
def walkDirection (depth : Nat) (i : Fin 64) (b bc : Bit) (d : Discovery) : Bit × Discovery :=
  if b != bc then (b, d) else chooseDirection depth i d

/-- Step c of a walk over the bit positions still to come (R181). -/
def walkBits (depth : Nat) (bus : Bus) (P : TimingProfile) : List (Fin 64) → Discovery → Wire → WalkEnd
  | [], d, w => { result := .done, disc := d, wire := w }
  | i :: is, d, w =>
    let b := w.readBitSeq bus P
    let bc := b.2.readBitSeq bus P
    if b.1 && bc.1 then { result := .protocolViolation, disc := d, wire := bc.2 }
    else
      let c := walkDirection depth i b.1 bc.1 d
      walkBits depth bus P is (c.2.record i c.1) (bc.2.writeBitSeq P c.1)

/-- The bit positions of an address of this many bits: 0 to 63 on this hardware (R181, 00_scope R8). -/
def bitPositions (addrBits : Nat) : List (Fin 64) := (List.finRange 64).take addrBits

/-- Steps b and c of a walk, after a reset that found presence: the search command, then the bits of an address
(R181). -/
def walkAddress (s : State) : WalkResult × State :=
  let e := walkBits s.params.stackDepth s.bus s.profile (bitPositions s.params.addrBits) s.disc
    (s.wire.writeByteSeq s.profile searchByte)
  (e.result, (s.setWire e.wire).setDisc e.disc)

/-- `SearchWalk()` (R181). -/
def searchWalk (s : State) : WalkResult × State :=
  if s.resetSeq.1 then walkAddress s.resetSeq.2 else (.noPresence, s.resetSeq.2)

/-- `AppendAddress()` (R183). -/
def appendAddress (s : State) : State :=
  { s.storeBytes (s.resAddr s.devcount.toNat 0) (bytesOfAddress s.params.addrBytes s.disc.waddr) with
    devcount := s.devcount + 1 }

/-- The end of a pass: the stack is emptied, whatever the outcome (10_state R38, R185). -/
def endPass (s : State) (code : ResultCode) : State := (s.setDisc { s.disc with stk := [] }).complete code

/-- `SAFE <- SAFE + 1` (R184). -/
def countWalk (s : State) : State := s.setDisc { s.disc with safe := s.disc.safe + 1 }

/-- The loop of a pass (R180), for at most so many walks. The comparison `SAFE > MAXDEV` is on naturals (00_scope R10), so
a pass started with `SAFE = 0` and `MAXDEV + 1` walks to go never runs out of them (R190; notes/assumptions/17.md). -/
def searchLoop : Nat → State → State
  | 0, s => endPass s .deviceLimit
  | n + 1, s =>
    match searchWalk s with
    | (.noPresence, s1) => endPass s1 .noPresence
    | (.protocolViolation, s1) => endPass s1 .protocolViolation
    | (.done, s1) =>
      if (appendAddress s1).disc.stk = [] then endPass (appendAddress s1) .ok
      else if s1.disc.safe.toNat + 1 > s1.maxdev.toNat then endPass (countWalk (appendAddress s1)) .deviceLimit
      else searchLoop n (countWalk (appendAddress s1))

/-- The start of a pass: `SP`, `DEVCOUNT`, `RES` and `SAFE` cleared (R180). -/
def startPass (s : State) : State :=
  { s with disc := { s.disc with stk := [], safe := 0 }, devcount := 0, mem := Memory.clear s.mem resBase s.resEnd }

/-- SEARCH (R180). -/
def execSearch (s : State) : Host.Outcome State Fault Refusal :=
  .next (searchLoop (s.maxdev.toNat + 1) (startPass s))

end Sys2Proof.Machine
end

