-- ==== Sys2Proof/Machine/Transport.lean ====
section
/-!
DEFINITION. The transport commands (40_bus_transport section 3): one meaning each.
-/

namespace Sys2Proof.Machine

/-- RESET (R140). -/
def execReset (s : State) : Host.Outcome State Fault Refusal :=
  .next ((s.resetSeq.2.setData (bitByte s.resetSeq.1)).complete (if s.resetSeq.1 then .ok else .noPresence))

/-- WRITE_BIT (R141). -/
def execWriteBit (b : Bit) (s : State) : Host.Outcome State Fault Refusal :=
  .next ((s.setWire (s.wire.writeBitSeq s.profile b)).complete .ok)

/-- READ_BIT (R142). -/
def execReadBit (s : State) : Host.Outcome State Fault Refusal :=
  let r := s.wire.readBitSeq s.bus s.profile
  .next (((s.setWire r.2).setData (bitByte r.1)).complete .ok)

/-- WRITE_BYTE (R143). -/
def execWriteByte (v : Byte) (s : State) : Host.Outcome State Fault Refusal :=
  .next ((s.setWire (s.wire.writeByteSeq s.profile v)).complete .ok)

/-- READ_BYTE (R144). -/
def execReadByte (s : State) : Host.Outcome State Fault Refusal :=
  let r := s.wire.readByteSeq s.bus s.profile
  .next (((s.setWire r.2).setData r.1).complete .ok)

/-- TOUCH_BYTE (R145). -/
def execTouchByte (v : Byte) (s : State) : Host.Outcome State Fault Refusal :=
  let r := s.wire.touchByteSeq s.bus s.profile v
  .next (((s.setWire r.2).setData r.1).complete .ok)

/-- BLOCK (R146): nothing else reads `BUF` while the command runs, so the bytes sensed are stored at its end. -/
def execBlock (n : Half) (s : State) : Host.Outcome State Fault Refusal :=
  bufCommand (lenBytesLegal s.params.bufBytes n) n.toNat (fun bs =>
    let r := s.wire.touchBytesSeq s.bus s.profile bs
    ((s.setWire r.2).storeBytes bufBase r.1).complete .ok) s

/-- SET_SPEED (R147). -/
def execSetSpeed (b : Bit) (s : State) : Host.Outcome State Fault Refusal :=
  .next ((s.setSpeed (speedOfBit b)).complete .ok)

/-- The part of SPEED_SKIP after a first reset that found presence: the speed-upgrade byte at standard speed, then a reset
in overdrive (R148). -/
def speedUpgrade (s : State) : State :=
  let fast := (s.setWire (s.wire.writeByteSeq s.profile speedUpgradeByte)).setSpeed .overdrive
  (fast.resetSeq.2.setData (bitByte fast.resetSeq.1)).complete (if fast.resetSeq.1 then .ok else .noPresence)

/-- SPEED_SKIP (R148). -/
def execSpeedSkip (s : State) : Host.Outcome State Fault Refusal :=
  let first := (s.setSpeed .standard).resetSeq
  .next (if first.1 then speedUpgrade first.2 else (first.2.setData 0).complete .noPresence)

/-- MATCH_ADDRESS (R149): the bytes of one address, `BUF[0..7]` on this hardware. -/
def execMatchAddress (s : State) : Host.Outcome State Fault Refusal :=
  bufCommand true s.params.addrBytes (fun bs =>
    (s.setWire (s.wire.writeBytesSeq s.profile (matchAddressByte :: bs))).complete .ok) s

/-- SKIP_ADDRESS (R150). -/
def execSkipAddress (s : State) : Host.Outcome State Fault Refusal :=
  .next ((s.setWire (s.wire.writeByteSeq s.profile skipAddressByte)).complete .ok)

end Sys2Proof.Machine
end

