-- ==== Sys2Proof/Machine/Dispatch.lean ====
section
/-!
DEFINITION. One arm per command: the meaning it calls (30_encoding R95).
-/

namespace Sys2Proof.Machine

def exec (i : Instr) (s : State) : Host.Outcome State Fault Refusal :=
  match i with
  -- bus transport (40_bus_transport)
  | .reset => Sys2Proof.Machine.execReset s
  | .writeBit b => Sys2Proof.Machine.execWriteBit b s
  | .readBit => Sys2Proof.Machine.execReadBit s
  | .writeByte v => Sys2Proof.Machine.execWriteByte v s
  | .readByte => Sys2Proof.Machine.execReadByte s
  | .touchByte v => Sys2Proof.Machine.execTouchByte v s
  | .block n => Sys2Proof.Machine.execBlock n s
  | .setSpeed b => Sys2Proof.Machine.execSetSpeed b s
  | .speedSkip => Sys2Proof.Machine.execSpeedSkip s
  | .matchAddress => Sys2Proof.Machine.execMatchAddress s
  | .skipAddress => Sys2Proof.Machine.execSkipAddress s
  -- discovery engine (41_discovery)
  | .search => Sys2Proof.Machine.execSearch s
  -- checksum engine (42_checksum)
  | .crc8 n => Sys2Proof.Machine.execCrc8 n s
  | .crc8Table n => Sys2Proof.Machine.execCrc8Table n s
  | .crc8Check n => Sys2Proof.Machine.execCrc8Check n s
  | .crc16 n => Sys2Proof.Machine.execCrc16 n s

end Sys2Proof.Machine
end

