-- ==== Sys2Proof/Machine/Controller.lean ====
section
/-!
DEFINITION. The controller agent (00_scope R7, 10_state R21): while `SEQ = BUSY` it runs the command in `CMD` to its end, in
one step (notes/assumptions/1.md).
-/

namespace Sys2Proof.Machine

/-- Run what a command word decodes to: a reserved `OP` is a bad command (30_encoding R96). -/
def runDecoded (d : Decoded) (s : State) : Host.Outcome State Fault Refusal :=
  match d with
  | .instr i => exec i s
  | .reserved _ => .next s.badCommand

/-- The controller's move: an idle sequencer has nothing to run. -/
def controllerStep (s : State) : Host.Outcome State Fault Refusal :=
  match s.seq with
  | .idle => .next s
  | .busy => runDecoded (decode s.cmd) s

end Sys2Proof.Machine
end

