-- ==== Sys2Proof/Machine/BlockReset.lean ====
section
/-!
DEFINITION. Block reset (70_reset_and_hazards R290 to R292), at rest and in the middle of a command, and the gap between two
commands (20_memory R73).
-/

namespace Sys2Proof.Machine

/-- The time of a line event. -/
def eventTime : LineEvent → Nat
  | .low t => t
  | .rel t => t
  | .smp t _ => t

/-- Whether the driver is enabled after some line events. -/
def lowAfter (low : Bool) : List LineEvent → Bool
  | [] => low
  | .low _ :: rest => lowAfter true rest
  | .rel _ :: rest => lowAfter false rest
  | .smp _ _ :: rest => lowAfter low rest

/-- The bus side at the end of the running command, had it not been stopped; the present one when none runs, or when the
command faults before its first line action. -/
def wireAtEnd (s : State) : Wire :=
  match controllerStep s with
  | .next t => t.wire
  | .fault _ => s.wire
  | .refused _ => s.wire

/-- The events the running command had made when block reset came, after the first `k` of them. -/
def eventsBefore (k : Nat) (s : State) : List LineEvent := ((wireAtEnd s).hist.drop s.wire.hist.length).take k

/-- The time of block reset: `d` after the last of those events, but no later than the next one (notes/assumptions/6.md). -/
def resetTime (k d : Nat) (s : State) : Nat :=
  let later := (wireAtEnd s).hist.drop (s.wire.hist.length + k)
  let last := ((eventsBefore k s).getLast?.map eventTime).getD s.wire.now
  let limit := (later.head?.map eventTime).getD (wireAtEnd s).now
  min (last + d) limit

/-- The history as block reset leaves it behind: a line held low is released at that time (R291). -/
def abandonedHistory (k d : Nat) (s : State) : List LineEvent :=
  s.wire.hist ++ eventsBefore k s ++
    (if lowAfter (s.wire.pin.dir == .output) (eventsBefore k s) then [.rel (resetTime k d s)] else [])

/-- Block reset: every state of the OWC takes its reset value (R290, R291), the pin by the calls of R292. The host and the
order of moves are not the OWC's and go on. -/
def blockReset (k d : Nat) (s : State) : State :=
  { State.resetOf s.params with
    wire := { (State.resetOf s.params).wire with pin := s.wire.pin.blockReset s.params.pullCfg }
    past := s.past ++ [abandonedHistory k d s]
    bus := s.bus.afterReset
    draws := s.draws
    turns := s.turns
    host := s.host }

/-- The host's gap between two commands: the line rests released and time passes (20_memory R73, 70_reset_and_hazards
R302). While a command runs the time is the command's own. -/
def passGap (g : Nat) (s : State) : State :=
  match s.seq with
  | .idle => s.setWire (s.wire.delay g)
  | .busy => s

end Sys2Proof.Machine
end

