-- ==== Sys2Proof/Machine/Window.lean ====
section
/-!
DEFINITION. The host register window (20_memory section 1): the register map, what an access returns and what it changes.
-/

namespace Sys2Proof.Machine

/-- The registers of the map (R63). -/
inductive Reg where
  | cmd
  | status
  | data
  | crc8r
  | crc16r
  | maxdev
  | devcount
  | buf
  | res
  | reserved
  deriving DecidableEq, Repr

/-- The register at a word offset (R63). DESIGN CHOICE (notes/assumptions/30.md): where `RES` is no whole number of words, which
takes an `ADDR_BITS` other than this hardware's 64, the word across its end counts as `RES`. -/
def State.regAt (s : State) (off : Offset) : Reg :=
  if off.toNat = 0x000 then .cmd
  else if off.toNat = 0x004 then .status
  else if off.toNat = 0x008 then .data
  else if off.toNat = 0x00C then .crc8r
  else if off.toNat = 0x010 then .crc16r
  else if off.toNat = 0x014 then .maxdev
  else if off.toNat = 0x018 then .devcount
  else if bufBase ≤ off.toNat ∧ off.toNat < s.bufEnd then .buf
  else if resBase ≤ off.toNat ∧ off.toNat < s.resEnd then .res
  else .reserved

/-- The offset of `STATUS` (R63). -/
def statusOffset : Offset := 0x004

/-- The offset of `CMD` (R63). -/
def cmdOffset : Offset := 0x000

/-- The little-endian word of four bytes of `BUF` or `RES`; none if one of them is undefined (R62, 10_state R42). DESIGN CHOICE
(notes/assumptions/30.md): the bytes past the end of `RES` in its last word hold no value, so that word has none. -/
def State.memWord (s : State) (a : Nat) : Option Word :=
  match Memory.read s.mem a, Memory.read s.mem (a + 1), Memory.read s.mem (a + 2), Memory.read s.mem (a + 3) with
  | some b0, some b1, some b2, some b3 => some (wordOfBytes b0 b1 b2 b3)
  | _, _, _, _ => none

/-- What a read of an idle OWC returns; none where the word holds an undefined byte (10_state R23 to R35, R42, 20_memory
R63, R64). -/
def State.readReg (s : State) (off : Offset) : Option Word :=
  match s.regAt off with
  | .cmd => some s.cmd
  | .status => some s.status
  | .data => some (s.data.setWidth 32)
  | .crc8r => some (s.crc8r.setWidth 32)
  | .crc16r => some (s.crc16r.setWidth 32)
  | .maxdev => some (s.maxdev.setWidth 32)
  | .devcount => some (s.devcount.setWidth 32)
  | .buf => s.memWord off.toNat
  | .res => s.memWord off.toNat
  | .reserved => some 0

/-- A write to `CMD` captures the word and starts the command (10_state R21, R23). -/
def State.startCommand (s : State) (w : Word) : State := { s with cmd := w, seq := .busy }

/-- `MAXDEV` stores `min(v[7:0], RESULT_CAP - 1)` (10_state R32). -/
def State.writeMaxdev (s : State) (w : Word) : State :=
  { s with maxdev := BitVec.ofNat 8 (min (w.extractLsb' 0 8).toNat (s.params.resultCap - 1)) }

/-- What a write to an idle OWC changes (20_memory R64, R65, R67). -/
def State.writeReg (s : State) (off : Offset) (w : Word) : State :=
  match s.regAt off with
  | .cmd => s.startCommand w
  | .maxdev => s.writeMaxdev w
  | .buf => s.storeBytes off.toNat (bytesOfWord w)
  | .status | .data | .crc8r | .crc16r | .devcount | .res | .reserved => s

/-- An access of a form the window has no meaning for (20_memory R61). -/
def Access.malformed (a : Access) : Bool := a.kind == .fetch || a.width != 4 || a.off.toNat % 4 != 0

/-- A `STATUS` read while a command runs draws the fields other than `BUSY` (10_state R28, 20_memory R69). -/
def State.drawStatus (s : State) : State × Word :=
  ({ s with draws := s.draws + 1 }, busyStatusWord (Config.busyStatus s.draws))

/-- An access that reaches an idle OWC: the state after it and the word read, 0 for a write. -/
def idleAccess (a : Access) (s : State) : Host.Outcome (State × Word) Fault Refusal :=
  match a.kind with
  | .read =>
    match s.readReg a.off with
    | some w => .next (s, w)
    | none => .fault (.undefinedRead (.hostRead a.off))
  | .write => .next (s.writeReg a.off a.value, 0)
  | .fetch => .fault (.hostAccess a.off a.width)

/-- An access that reaches a running OWC (20_memory R69). -/
def busyAccess (a : Access) (s : State) : Host.Outcome (State × Word) Fault Refusal :=
  if a.kind = .read ∧ a.off = statusOffset then .next s.drawStatus else .fault (.busyAccess a.off a.kind)

/-- A host access, its checks in the order of 60_exceptions R269. -/
def hostAccess (a : Access) (s : State) : Host.Outcome (State × Word) Fault Refusal :=
  if a.malformed then .fault (.hostAccess a.off a.width)
  else
    match s.seq with
    | .busy => busyAccess a s
    | .idle => idleAccess a s

end Sys2Proof.Machine
end

