-- ==== Sys2Proof/Machine/HostAgent.lean ====
section
/-!
DEFINITION. The host agent (00_scope R7, 30_encoding R101): its instructions, one a step, and the pseudo-instructions and
labels of a host program expanded to them.
-/

namespace Sys2Proof.Machine

/-- `hN`: an unlisted register holds 0 (notes/assumptions/14.md). -/
def HostCpu.reg (h : HostCpu) (r : Nat) : Word := (cellsRead h.regs r).getD 0

/-- `hN <- v`. -/
def HostCpu.setReg (h : HostCpu) (r : Nat) (v : Word) : HostCpu := { h with regs := cellsWrite h.regs r v }

/-- The host goes to a position of its program. -/
def HostCpu.goto (h : HostCpu) (pc : Nat) : HostCpu := { h with pc := pc }

/-- The state with another host agent. -/
def State.setHost (s : State) (h : HostCpu) : State := { s with host := h }

/-- The host makes an access and goes on to its next instruction; `keep` is the register a read value goes to. -/
def hostTransfer (a : Access) (keep : Option Nat) (s : State) : Host.Outcome State Fault Refusal :=
  match hostAccess a s with
  | .next (t, w) =>
    let h := match keep with
      | some r => t.host.setReg r w
      | none => t.host
    .next (t.setHost (h.goto (t.host.pc + 1)))
  | .fault f => .fault f
  | .refused r => .refused r

/-- A branch of a host program changes only the host's position. -/
def hostBranch (taken : Bool) (target : Nat) (s : State) : State :=
  s.setHost (s.host.goto (if taken then target else s.host.pc + 1))

/-- One host instruction (R101). `halt` ends the program: the host stays where it is. -/
def hostExec (i : HostInstr) (s : State) : Host.Outcome State Fault Refusal :=
  match i with
  | .stImm off imm => hostTransfer { kind := .write, off := off, width := 4, value := imm } none s
  | .stReg off r => hostTransfer { kind := .write, off := off, width := 4, value := s.host.reg r } none s
  | .ld r off => hostTransfer { kind := .read, off := off, width := 4, value := 0 } (some r) s
  | .ifNonzero r mask target => .next (hostBranch (s.host.reg r &&& mask != 0) target s)
  | .ifZero r mask target => .next (hostBranch (s.host.reg r &&& mask == 0) target s)
  | .halt => .next s
  | .access a => hostTransfer a none s

/-- The host's move: past the end of its program it does nothing. -/
def hostStep (s : State) : Host.Outcome State Fault Refusal :=
  match s.host.prog[s.host.pc]? with
  | some i => hostExec i s
  | none => .next s

/-- The forms a host program is written in (R101): labels have numbers, and a branch names one. -/
inductive HostForm where
  | instr (i : HostInstr)
  | label (l : Nat)
  | ifNonzero (r : Nat) (mask : Word) (l : Nat)
  | ifZero (r : Nat) (mask : Word) (l : Nat)
  /-- `wait` with scratch register `r`. -/
  | wait (r : Nat)
  /-- `do` with the command word to write and scratch register `r`. -/
  | doCommand (w : Word) (r : Nat)
  deriving DecidableEq, Repr

/-- How many host instructions a form expands to. -/
def HostForm.size : HostForm → Nat
  | .instr _ => 1
  | .label _ => 0
  | .ifNonzero _ _ _ => 1
  | .ifZero _ _ _ => 1
  | .wait _ => 2
  | .doCommand _ _ => 3

/-- The position a label names, for forms that start at a position. DESIGN CHOICE (notes/assumptions/28.md): R101 does
not say which of two equal labels a branch means; it is the first in program order. -/
def labelAt (l : Nat) : Nat → List HostForm → Option Nat
  | _, [] => none
  | pos, .label l' :: rest => if l' = l then some pos else labelAt l pos rest
  | pos, f :: rest => labelAt l (pos + f.size) rest

/-- `wait` placed at a position: poll `STATUS` until `BUSY` reads 0 (R101). -/
def expandWait (pos r : Nat) : List HostInstr := [.ld r statusOffset, .ifNonzero r 1 pos]

/-- One form placed at a position; a branch to a label that stands nowhere is an error. -/
def expandForm (all : List HostForm) (pos : Nat) : HostForm → Option (List HostInstr)
  | .instr i => some [i]
  | .label _ => some []
  | .ifNonzero r mask l => (labelAt l 0 all).map fun t => [.ifNonzero r mask t]
  | .ifZero r mask l => (labelAt l 0 all).map fun t => [.ifZero r mask t]
  | .wait r => some (expandWait pos r)
  | .doCommand w r => some (.stImm cmdOffset w :: expandWait (pos + 1) r)

/-- The forms from a position on, expanded. -/
def expandForms (all : List HostForm) : Nat → List HostForm → Option (List HostInstr)
  | _, [] => some []
  | pos, f :: rest => do
    let here ← expandForm all pos f
    let others ← expandForms all (pos + f.size) rest
    pure (here ++ others)

/-- A host program from its written forms (R101). -/
def assembleHost (forms : List HostForm) : Option (List HostInstr) := expandForms forms 0 forms

end Sys2Proof.Machine
end

