-- ==== Sys2Proof/Machine/Turns.lean ====
section
/-!
DEFINITION. The order of moves (00_scope R7, 70_reset_and_hazards R301): whose turn it is, and the move of each turn.
-/

namespace Sys2Proof.Machine

/-- Whose turn it is. With no turn laid down, a running command is never starved: the controller moves (R301). -/
def State.nextTurn (s : State) : Turn :=
  match s.turns with
  | t :: _ => t
  | [] =>
    match s.seq with
    | .busy => .controller
    | .idle => .host

/-- The state with its turn taken off. -/
def State.takeTurn (s : State) : State := { s with turns := s.turns.tail }

/-- The move of one turn. -/
def runTurn (t : Turn) (s : State) : Host.Outcome State Fault Refusal :=
  match t with
  | .host => hostStep s
  | .controller => controllerStep s
  | .gap g => .next (passGap g s)
  | .blockReset k d => .next (blockReset k d s)

/-- The state right after an accepted host write of a command word to `CMD` (10_state R21), with the controller's turn
next. -/
def State.placeCommand (s : State) (w : Word) : State :=
  { s.startCommand w with turns := .controller :: s.turns }

end Sys2Proof.Machine
end

