-- ==== Sys2Proof/Machine/Step.lean ====
section
/-!
DEFINITION. One step of the whole: the agent whose turn it is moves (00_scope R7, 70_reset_and_hazards R301).
-/

namespace Sys2Proof.Machine

/-- One step. -/
def step (s : State) : Host.Outcome State Fault Refusal := runTurn s.nextTurn s.takeTurn

/-- The state in which the next step runs a command word, as right after an accepted host write to `CMD`. Bits above
`nbits` are 0. -/
def State.withFetchWord (s : State) (nbits w : Nat) : State := s.placeCommand (BitVec.ofNat 32 (w % 2 ^ nbits))

end Sys2Proof.Machine
end

