-- ==== Sys2Proof/Safety.lean ====
section
/-!
DEFINITION. The terms claims are stated in: the invariant of the machine, the shape of a history, the traces and durations
the line sequences make, which outcomes a command may report, and the specification functions of the laws.
-/

namespace Sys2Proof.Machine

/-- A history the OWC can make: it drives a released line low, releases a low line, samples a released line, and leaves the
line released (20_memory R75, 40_bus_transport R124). `low` is whether the line is low before it. -/
def legalHistory (low : Bool) : List LineEvent → Bool
  | [] => !low
  | .low _ :: rest => !low && legalHistory true rest
  | .rel _ :: rest => low && legalHistory false rest
  | .smp _ _ :: rest => !low && legalHistory low rest

/-- The times of a history never go back (20_memory R73). -/
def timesRise (h : List LineEvent) : Prop := h.Pairwise fun a b => eventTime a ≤ eventTime b

/-- What holds between two steps of the OWC. -/
structure State.Inv (s : State) : Prop where
  /-- The parameters are in the ranges of 00_scope R8. -/
  paramsLegal : s.params.legal
  /-- Memory is in its canonical form. -/
  memWf : Memory.wf s.mem
  /-- Only bytes of `BUF` and of the entries below `DEVCOUNT` are defined (10_state R34, R35). -/
  memPlaced : ∀ c ∈ s.mem, (bufBase ≤ c.1 ∧ c.1 < s.bufEnd) ∨
    (resBase ≤ c.1 ∧ c.1 < resBase + s.params.addrBytes * s.devcount.toNat)
  /-- Every byte of the entries below `DEVCOUNT` is defined (R35). -/
  resDefined : ∀ a, resBase ≤ a → a < resBase + s.params.addrBytes * s.devcount.toNat → (Memory.read s.mem a).isSome
  /-- `MAXDEV <= RESULT_CAP - 1` (R32). -/
  maxdevLegal : s.maxdev.toNat ≤ s.params.resultCap - 1
  /-- `DEVCOUNT <= RESULT_CAP` (R33). -/
  devcountLegal : s.devcount.toNat ≤ s.params.resultCap
  /-- `SAFE` counts the walks of a pass (41_discovery R190). -/
  safeLegal : s.disc.safe.toNat ≤ s.params.resultCap
  /-- `SP = 0` between passes (R38). -/
  stackEmpty : s.disc.stk = []
  /-- The line is released between commands (R37). -/
  released : s.wire.pin.dir = .input
  /-- The output latch holds 0 (20_memory R74). -/
  latchLow : s.wire.pin.latch = false
  /-- `PULL_CFG` is applied (70_reset_and_hazards R292). -/
  pullSet : s.wire.pin.pull = s.params.pullCfg
  /-- The history is one the OWC can make. -/
  histLegal : legalHistory false s.wire.hist = true
  /-- Its times never go back. -/
  histTimes : timesRise s.wire.hist
  /-- None of them lies in the future. -/
  histPast : ∀ e ∈ s.wire.hist, eventTime e ≤ s.wire.now

/-- The low pulse of a write slot (40_bus_transport R126). -/
def writePulse (P : TimingProfile) (b : Bit) : Nat := if b then P.writeRecoveryLow else P.write0Low

/-- The length of a write slot (R126). -/
def writeSlotTime (P : TimingProfile) (b : Bit) : Nat :=
  if b then P.writeRecoveryLow + P.write1RecoveryHigh else P.write0Low + P.write0RecoveryHigh

/-- When a read slot is sampled, from its start (R127). -/
def readSampleTime (P : TimingProfile) : Nat := P.writeRecoveryLow + P.readRecoveryLow

/-- The length of a read slot (R127). -/
def readSlotTime (P : TimingProfile) : Nat := P.writeRecoveryLow + P.readRecoveryLow + P.readSampleWindow

/-- The length of a reset sequence (R125). -/
def resetTimeOf (P : TimingProfile) : Nat :=
  P.resetPreDelay + P.resetLowDuration + P.presenceSampleDelay + P.presenceRecoveryDelay

/-- The events of write slots for some bits, the first starting at `t` (R126). -/
def writeTrace (P : TimingProfile) : List Bit → Nat → List LineEvent
  | [], _ => []
  | b :: bs, t => .low t :: .rel (t + writePulse P b) :: writeTrace P bs (t + writeSlotTime P b)

/-- The time of write slots for some bits. -/
def writeTime (P : TimingProfile) : List Bit → Nat
  | [] => 0
  | b :: bs => writeSlotTime P b + writeTime P bs

/-- The bits of bytes in order, each least significant bit first (20_memory R76). -/
def bitsOfBytes (bs : List Byte) : List Bit := bs.flatMap bitsOfByte

/-- How many bits of a byte are 1 (`n1` of 70_reset_and_hazards R300). -/
def onesOfByte (v : Byte) : Nat := (bitsOfByte v).count true

/-- How many bits of some bytes are 1. -/
def onesOfBytes (bs : List Byte) : Nat := (bitsOfBytes bs).count true

/-- One touch slot: the bit sent and the bit sensed (R130). -/
abbrev TouchSlot := Bit × Bit

/-- The time of a touch slot (R130). -/
def touchSlotTime (P : TimingProfile) (b : Bit) : Nat := if b then readSlotTime P else writeSlotTime P false

/-- The events of a touch slot that starts at `t` (R130). -/
def touchSlotTrace (P : TimingProfile) (slot : TouchSlot) (t : Nat) : List LineEvent :=
  if slot.1 then [.low t, .rel (t + P.writeRecoveryLow), .smp (t + readSampleTime P) slot.2]
  else [.low t, .rel (t + P.write0Low)]

/-- The events of touch slots, the first starting at `t` (R130). A read slot is a touch slot that sends 1. -/
def touchTrace (P : TimingProfile) : List TouchSlot → Nat → List LineEvent
  | [], _ => []
  | slot :: rest, t => touchSlotTrace P slot t ++ touchTrace P rest (t + touchSlotTime P slot.1)

/-- The time of touch slots. -/
def touchTime (P : TimingProfile) : List TouchSlot → Nat
  | [] => 0
  | slot :: rest => touchSlotTime P slot.1 + touchTime P rest

/-- The bits sensed are the answers of the bus, each asked at its own sample, after history `h` and from time `t` (R127,
R130, 20_memory R75): a slot that sends 0 senses 0. -/
def touchAnswered (bus : Bus) (P : TimingProfile) : List TouchSlot → List LineEvent → Nat → Prop
  | [], _, _ => True
  | slot :: rest, h, t =>
    slot.2 = (slot.1 && bus.answer (h ++ [.low t, .rel (t + P.writeRecoveryLow)]) (t + readSampleTime P)) ∧
      touchAnswered bus P rest (h ++ touchSlotTrace P slot t) (t + touchSlotTime P slot.1)

/-- The result codes a command may complete with (60_exceptions R268). -/
def mayComplete : Instr → List ResultCode
  | .reset => [.ok, .noPresence]
  | .writeBit _ => [.ok]
  | .readBit => [.ok]
  | .writeByte _ => [.ok]
  | .readByte => [.ok]
  | .touchByte _ => [.ok]
  | .block _ => [.ok, .badCommand]
  | .setSpeed _ => [.ok]
  | .speedSkip => [.ok, .noPresence]
  | .matchAddress => [.ok]
  | .skipAddress => [.ok]
  | .search => [.ok, .noPresence, .protocolViolation, .deviceLimit]
  | .crc8 _ => [.ok, .badCommand]
  | .crc8Table _ => [.ok, .badCommand]
  | .crc8Check _ => [.ok, .checksumMismatch, .badCommand]
  | .crc16 _ => [.ok, .badCommand]

/-- The commands that may raise `UndefinedRead` (R268). -/
def mayFault : Instr → Bool
  | .block _ | .matchAddress | .crc8 _ | .crc8Table _ | .crc8Check _ | .crc16 _ => true
  | .reset | .writeBit _ | .readBit | .writeByte _ | .readByte | .touchByte _ | .setSpeed _ | .speedSkip
  | .skipAddress | .search => false

/-- `BUF[0 .. n-1]` is defined and holds these bytes. -/
def State.bufHolds (s : State) (bs : List Byte) : Prop := ∀ k, k < bs.length → s.bufByte k = bs[k]?

/-- One shift of the bitwise 16-bit update with polynomial 0xA001 (42_checksum R227). -/
def crc16Shift (c : Half) : Half := if c.getLsbD 0 then (c >>> 1) ^^^ 0xA001 else c >>> 1

/-- `n` of them in a row. -/
def crc16Shifts : Nat → Half → Half
  | 0, c => c
  | n + 1, c => crc16Shifts n (crc16Shift c)

/-- `Crc16Bitwise(c, x)` (R227). -/
def crc16Bitwise (c : Half) (x : Byte) : Half := crc16Shifts 8 (c ^^^ x.setWidth 16)

/-- Address `a` comes before `b` when both are read as 64-bit strings with bit 0 most significant (41_discovery R188). -/
def searchBefore (a b : Address) : Prop :=
  ∃ i, i < 64 ∧ (∀ j, j < i → a.getLsbD j = b.getLsbD j) ∧ a.getLsbD i = false ∧ b.getLsbD i = true

/-- The slot is a bus reset. -/
def Slot.isReset : Slot → Bool
  | .busReset _ => true
  | .write _ => false
  | .read _ => false

/-- How many bus resets a history holds, read by these profiles: one for each walk of a pass (R181). -/
def busResetCount (T : Timings) (h : List LineEvent) : Nat := (slotsOf T h).countP Slot.isReset

/-- The profiles tell the slots of the fixtures apart by their low pulses: no write or read slot's pulse is as long as a
reset's, and no write-1 pulse as long as a write-0 one (40_bus_transport R153, 41_discovery R187). -/
abbrev readableTimings (T : Timings) : Prop :=
  (∀ r ∈ [T.std.resetLowDuration, T.od.resetLowDuration],
    ∀ a ∈ [T.std.writeRecoveryLow, T.od.writeRecoveryLow, T.std.write0Low, T.od.write0Low], r ≠ a) ∧
  ∀ a ∈ [T.std.writeRecoveryLow, T.od.writeRecoveryLow], ∀ b ∈ [T.std.write0Low, T.od.write0Low], a ≠ b

/-- The state in which walk number `k` of the pass SEARCH makes from `s` begins, counted from 0: none where the pass has
ended before it (41_discovery R180). -/
def passAfter (s : State) : Nat → Option State
  | 0 => some (startPass s)
  | k + 1 =>
    match passAfter s k with
    | none => none
    | some u =>
      match searchWalk u with
      | (.noPresence, _) => none
      | (.protocolViolation, _) => none
      | (.done, v) =>
        if v.disc.stk = [] ∨ v.maxdev.toNat < v.disc.safe.toNat + 1 then none else some (countWalk (appendAddress v))

end Sys2Proof.Machine
end

