-- ==== Sys2Proof/Certificates/Slice0/Obligations.lean ====
section
/-!
DEFINITION. The statements for the provers. Each docstring names the rule of spec/ it formalises.
-/

open Sys2Proof Sys2Proof.Machine

/-! ### Encoding (30_encoding) -/

/-- The words of 95_test_vectors "Encoding and decode" decode as the table says, and every opcode of R95, in the words of
R100, decodes to its command (R91, R95, R96). -/
def Obligations.ListedWordsDecode : Prop :=
  (decode 0x00000001 = .instr .reset ∧ decode 0x00000102 = .instr (.writeBit true) ∧
    decode 0x0000FE02 = .instr (.writeBit false) ∧ decode 0xFFFF0103 = .instr .readBit ∧
    decode 0x0000CC04 = .instr (.writeByte 0xCC) ∧ decode 0x01000007 = .instr (.block 256) ∧
    decode 0x01010007 = .instr (.block 257) ∧ decode 0x00000012 = .instr (.crc8Check 0) ∧
    decode 0x00800013 = .instr (.crc16 128) ∧ decode 0x00810013 = .instr (.crc16 129) ∧
    decode 0x00000000 = .reserved 0x00 ∧ decode 0x0000000D = .reserved 0x0D ∧ decode 0x000000FF = .reserved 0xFF) ∧
  decode 0x00000005 = .instr .readByte ∧ decode 0x0000F006 = .instr (.touchByte 0xF0) ∧
  decode 0x00000008 = .instr (.setSpeed false) ∧ decode 0x00000108 = .instr (.setSpeed true) ∧
  decode 0x00000009 = .instr .speedSkip ∧ decode 0x0000000A = .instr .matchAddress ∧
  decode 0x0000000B = .instr .skipAddress ∧ decode 0x0000000C = .instr .search ∧
  decode 0x00070010 = .instr (.crc8 7) ∧ decode 0x00010011 = .instr (.crc8Table 1) ∧
  decode 0x00080012 = .instr (.crc8Check 8) ∧ decode 0x00020013 = .instr (.crc16 2)

/-- The decoder reads back every command from its word, at every operand value (R90, R92, R93, R95). -/
def Obligations.DecodeOfEncodeIsTheCommand : Prop :=
  ∀ i : Instr, decode (encode i) = .instr i

/-- R91: the command is the one whose opcode is `OP`; where no command has that opcode the word is reserved. Equal `OP`
fields so select commands of equal opcodes, whatever `ARG` and `LEN` are. -/
def Obligations.OpAloneSelectsTheCommand : Prop :=
  (∀ w : Word, (∃ i, decode w = .instr i ∧ i.opcode = w.extractLsb' 0 8) ∨
    (decode w = .reserved (w.extractLsb' 0 8) ∧ ∀ i : Instr, i.opcode ≠ w.extractLsb' 0 8)) ∧
  ∀ v w : Word, v &&& 0x000000FF = w &&& 0x000000FF →
    (∃ i j, decode v = .instr i ∧ decode w = .instr j ∧ i.opcode = j.opcode) ∨ decode v = decode w

/-- R94: a word's ignored fields do not change what it decodes to. Two words that agree on `OP` and on the field their
opcode uses (R95) decode alike. -/
def Obligations.IgnoredFieldsDoNotMatter : Prop :=
  ∀ v w : Word, v.extractLsb' 0 8 = w.extractLsb' 0 8 →
    (w.extractLsb' 0 8 = 0x02#8 ∨ w.extractLsb' 0 8 = 0x08#8 → v.getLsbD 8 = w.getLsbD 8) →
    (w.extractLsb' 0 8 = 0x04#8 ∨ w.extractLsb' 0 8 = 0x06#8 → v.extractLsb' 8 8 = w.extractLsb' 8 8) →
    (w.extractLsb' 0 8 = 0x07#8 ∨ w.extractLsb' 0 8 = 0x10#8 ∨ w.extractLsb' 0 8 = 0x11#8 ∨
        w.extractLsb' 0 8 = 0x12#8 ∨ w.extractLsb' 0 8 = 0x13#8 → v.extractLsb' 16 16 = w.extractLsb' 16 16) →
    decode v = decode w

/-- R96 and R97: a reserved `OP` (0x00, 0x0D to 0x0F, 0x14 to 0xFF) and a `LEN` out of its command's range are bad
commands: in every state, for every `BUF_BYTES` and whatever `BUF` holds, nothing changes but `RESULT <- 5` and
`SEQ <- IDLE`. -/
def Obligations.BadCommandChangesOnlyTheResult : Prop :=
  (∀ w : Word, (∃ op, decode w = .reserved op) ↔
    (w.toNat % 256 = 0 ∨ (0x0D ≤ w.toNat % 256 ∧ w.toNat % 256 ≤ 0x0F) ∨ 0x14 ≤ w.toNat % 256)) ∧
  (∀ s : State, ∀ op, s.seq = .busy → decode s.cmd = .reserved op →
    controllerStep s = .next { s with result := .badCommand, seq := .idle }) ∧
  (∀ s : State, ∀ n : Half, s.params.bufBytes < n.toNat →
    exec (.block n) s = .next { s with result := .badCommand, seq := .idle } ∧
    exec (.crc8 n) s = .next { s with result := .badCommand, seq := .idle } ∧
    exec (.crc8Table n) s = .next { s with result := .badCommand, seq := .idle }) ∧
  (∀ s : State, ∀ n : Half, n.toNat = 0 ∨ s.params.bufBytes < n.toNat →
    exec (.crc8Check n) s = .next { s with result := .badCommand, seq := .idle }) ∧
  (∀ s : State, ∀ n : Half, s.params.bufBytes < 2 * n.toNat →
    exec (.crc16 n) s = .next { s with result := .badCommand, seq := .idle }) ∧
  ResultCode.badCommand.code = 5

/-- The assembly forms of R100 give the words of its table, each the word of its command (R95), and a literal out of range
is an assembly error. -/
def Obligations.AssemblyGivesTheListedWords : Prop :=
  (assemble .reset = some 0x00000001 ∧ assemble (.wbit 0) = some 0x00000002 ∧ assemble (.wbit 1) = some 0x00000102 ∧
    assemble .rbit = some 0x00000003 ∧ assemble .rbyte = some 0x00000005 ∧ assemble .odskip = some 0x00000009 ∧
    assemble .matchRom = some 0x0000000A ∧ assemble .skip = some 0x0000000B ∧ assemble .search = some 0x0000000C) ∧
  (∀ v : Byte, assemble (.wbyte v.toNat) = some ((v.setWidth 32 <<< 8) + 0x04) ∧
    assemble (.touch v.toNat) = some ((v.setWidth 32 <<< 8) + 0x06)) ∧
  (∀ b : Bit, assemble (.wbit b.toNat) = some (encode (.writeBit b)) ∧
    assemble (.speed b.toNat) = some (encode (.setSpeed b))) ∧
  (assemble (.speed 0) = some 0x00000008 ∧ assemble (.speed 1) = some 0x00000108) ∧
  (∀ i : Instr, assemble i.asm = some (encode i)) ∧
  (∀ n : Half, assemble (.block n.toNat) = some ((n.setWidth 32 <<< 16) + 0x07) ∧
    assemble (.crc8 n.toNat) = some ((n.setWidth 32 <<< 16) + 0x10) ∧
    assemble (.crc8t n.toNat) = some ((n.setWidth 32 <<< 16) + 0x11) ∧
    assemble (.crc8chk n.toNat) = some ((n.setWidth 32 <<< 16) + 0x12) ∧
    assemble (.crc16 n.toNat) = some ((n.setWidth 32 <<< 16) + 0x13)) ∧
  (∀ v, 2 ≤ v → assemble (.wbit v) = none ∧ assemble (.speed v) = none) ∧
  (∀ v, 256 ≤ v → assemble (.wbyte v) = none ∧ assemble (.touch v) = none) ∧
  ∀ v, 65536 ≤ v → assemble (.block v) = none ∧ assemble (.crc8 v) = none ∧ assemble (.crc8t v) = none ∧
    assemble (.crc8chk v) = none ∧ assemble (.crc16 v) = none

/-! ### Reset and steps (10_state, 70_reset_and_hazards) -/

/-- R44: the values after block reset, for every legal choice of the parameters and for this hardware's. The rows
"undefined, never read" give no value to state. -/
def Obligations.ResetHoldsTheListedValues : Prop :=
  (∀ p : Params, p.legal →
    let r := State.resetOf p
    r.seq = .idle ∧ r.cmd = 0x00000000 ∧ r.busyBit = false ∧ r.presence = false ∧ r.speed = .standard ∧
    r.result = .ok ∧ r.data = 0 ∧ r.crc8r = 0 ∧ r.crc16r = 0 ∧ r.maxdev.toNat = min p.maxdevReset (p.resultCap - 1) ∧
    r.devcount = 0 ∧ (∀ k, k < p.bufBytes → r.bufByte k = none) ∧
    (∀ e j, e < p.resultCap → j < p.addrBytes → r.resByte e j = none) ∧
    r.wire.pin.line = .rel ∧ r.disc.sp = 0 ∧ r.disc.safe = 0 ∧ r.wire.now = 0 ∧ r.wire.hist = []) ∧
  State.reset = State.resetOf Params.owc ∧ Params.owc.legal ∧
  Params.owc.maxdevReset = 50 ∧ State.reset.maxdev.toNat = min 50 (Params.owc.resultCap - 1) ∧ State.reset.maxdev.toNat = 50

/-- The invariant holds at reset, for every legal choice of the parameters and for this hardware's. -/
def Obligations.InvariantHoldsAtReset : Prop :=
  (∀ p : Params, p.legal → (State.resetOf p).Inv) ∧ State.reset.Inv

/-- Every step of every agent keeps the invariant, for every legal choice of the parameters: memory canonical and
`RES` defined exactly below `DEVCOUNT`, `MAXDEV` and `DEVCOUNT` within bounds, the stack empty, the line released with
the latch at 0, the history legal and in order of time (R32, R33, R35, R37, R38; 20_memory R73 to R75;
40_bus_transport R124; 41_discovery R190). -/
def Obligations.StepKeepsTheInvariant : Prop :=
  ∀ s t : State, s.Inv → step s = .next t → t.Inv

/-- A step on the controller's turn with a command running runs the command decoded from `CMD`: it is `exec` of it, or the
bad command of a reserved `OP`, in the state with that turn taken off; the controller has the turn whenever no turn is
laid down (R21, 70_reset_and_hazards R301, notes/assumptions/1.md and 2.md). -/
def Obligations.StepRunsTheDecodedCommand : Prop :=
  ∀ s : State, s.seq = .busy → (s.turns = [] ∨ s.turns.head? = some .controller) →
    (∀ i, decode s.cmd = .instr i → step s = exec i { s with turns := s.turns.tail }) ∧
    ∀ op, decode s.cmd = .reserved op → step s = .next ({ s with turns := s.turns.tail } : State).badCommand

/-- R290, R291: block reset at any instant of any state leaves every piece of the OWC's state at its reset value, `WADDR`
left open as R44 leaves it (notes/assumptions/8.md), and keeps the parameters, the host, the turns and the draws. The
carrier is a turn and its instant two numbers (2.md, 6.md); the oracle is that of a new epoch (4.md); the history it ends
goes to `past` (5.md). That history is the one before the command, the first `k` events of the command, and, where they
leave the line low, `REL` at the time of the reset. From a state that meets the invariant it is a legal one, so the line
is released, in order of time, and the reset comes between its last event and the command's next. -/
def Obligations.BlockResetRestoresTheResetValues : Prop :=
  ∀ s : State, ∀ k d, ∀ rest, s.turns = .blockReset k d :: rest →
    let u := { s with turns := rest }
    let evs := (wireAtEnd u).hist.drop s.wire.hist.length
    let low := lowAfter (s.wire.pin.dir == .output) (evs.take k)
    let time := resetTime k d u
    ∃ t h, step s = .next t ∧
      t = { State.resetOf s.params with
        disc := { stk := [], waddr := t.disc.waddr, safe := 0 }
        past := s.past ++ [h], bus := s.bus.afterReset, draws := s.draws, turns := rest, host := s.host } ∧
      h = s.wire.hist ++ evs.take k ++ (if low then [.rel time] else []) ∧
      (∀ e, controllerStep u = .next e → wireAtEnd u = e.wire) ∧ ((∀ e, controllerStep u ≠ .next e) → evs = []) ∧
      (s.Inv → legalHistory false h = true ∧ timesRise h ∧ (∀ e ∈ h, eventTime e ≤ time) ∧
        ∀ e, evs[k]? = some e → time ≤ eventTime e)

/-! ### The host window (20_memory) -/

/-- R61: an access that is not 32 bits wide, not at a multiple of 4, or a fetch faults, in every state, and before every
other check (60_exceptions R269). -/
def Obligations.MalformedAccessFaults : Prop :=
  ∀ (a : Access) (s : State), a.kind = .fetch ∨ a.width ≠ 4 ∨ a.off.toNat % 4 ≠ 0 →
    hostAccess a s = .fault (.hostAccess a.off a.width)

/-- R69: while a command runs, a read of `STATUS` returns `BUSY = 1` and every other access faults, a write to `CMD` among
them. The other fields of that `STATUS` word are free values, its reserved bits 0 (10_state R28); that such a read
advances the counter of draws by one is the model's choice (notes/assumptions/10.md). -/
def Obligations.AccessWhileBusy : Prop :=
  ∀ (a : Access) (s : State), s.seq = .busy → a.kind ≠ .fetch → a.width = 4 → a.off.toNat % 4 = 0 →
    (a.kind = .read → a.off = 0x004 → ∃ w, hostAccess a s = .next ({ s with draws := s.draws + 1 }, w) ∧
      w.getLsbD 0 = true ∧ w.getLsbD 3 = false ∧ w >>> 8 = 0) ∧
    (¬ (a.kind = .read ∧ a.off = 0x004) → hostAccess a s = .fault (.busyAccess a.off a.kind))

/-- R63, R64: what a read of each offset of an idle OWC returns, `BUF` and `RES` words little-endian (R62) and an undefined
byte in them a fault (10_state R42), for every legal choice of the parameters. No read changes the state (R66). That the
word across the end of an `RES` of no whole words counts as `RES`, its bytes past the end undefined, is the model's
choice (notes/assumptions/30.md); this hardware has no such word. -/
def Obligations.IdleReadReturnsTheRegister : Prop :=
  ∀ (off : Offset) (v : Word) (s : State), s.params.legal → s.seq = .idle → off.toNat % 4 = 0 →
    (off.toNat = 0x000 → hostAccess ⟨.read, off, 4, v⟩ s = .next (s, s.cmd)) ∧
    (off.toNat = 0x004 → hostAccess ⟨.read, off, 4, v⟩ s = .next (s, s.status)) ∧
    (off.toNat = 0x008 → hostAccess ⟨.read, off, 4, v⟩ s = .next (s, s.data.setWidth 32)) ∧
    (off.toNat = 0x00C → hostAccess ⟨.read, off, 4, v⟩ s = .next (s, s.crc8r.setWidth 32)) ∧
    (off.toNat = 0x010 → hostAccess ⟨.read, off, 4, v⟩ s = .next (s, s.crc16r.setWidth 32)) ∧
    (off.toNat = 0x014 → hostAccess ⟨.read, off, 4, v⟩ s = .next (s, s.maxdev.setWidth 32)) ∧
    (off.toNat = 0x018 → hostAccess ⟨.read, off, 4, v⟩ s = .next (s, s.devcount.setWidth 32)) ∧
    ((0x01C ≤ off.toNat ∧ off.toNat < 0x100) ∨ (0x100 + s.params.bufBytes ≤ off.toNat ∧ off.toNat < 0x400) ∨
        0x400 + s.params.addrBytes * s.params.resultCap ≤ off.toNat →
      hostAccess ⟨.read, off, 4, v⟩ s = .next (s, 0)) ∧
    ((0x100 ≤ off.toNat ∧ off.toNat < 0x100 + s.params.bufBytes) ∨
        (0x400 ≤ off.toNat ∧ off.toNat < 0x400 + s.params.addrBytes * s.params.resultCap) →
      (∀ b0 b1 b2 b3, Memory.read s.mem off.toNat = some b0 → Memory.read s.mem (off.toNat + 1) = some b1 →
        Memory.read s.mem (off.toNat + 2) = some b2 → Memory.read s.mem (off.toNat + 3) = some b3 →
        hostAccess ⟨.read, off, 4, v⟩ s = .next (s, b3 ++ b2 ++ b1 ++ b0)) ∧
      ((∃ j, j < 4 ∧ Memory.read s.mem (off.toNat + j) = none) →
        hostAccess ⟨.read, off, 4, v⟩ s = .fault (.undefinedRead (.hostRead off))))

/-- R66: a read that answers leaves the state as it was, but for the model's draw counter when `STATUS` is read while a
command runs; so two reads of an idle OWC return the same word. -/
def Obligations.ReadsHaveNoSideEffect : Prop :=
  ∀ (off : Offset) (width : Nat) (v : Word) (s t : State) (w : Word),
    hostAccess ⟨.read, off, width, v⟩ s = .next (t, w) →
    { t with draws := s.draws } = s ∧
      (s.seq = .idle → t = s ∧ ∀ v', hostAccess ⟨.read, off, width, v'⟩ t = .next (t, w))

/-- R67: what a write to an idle OWC changes: `CMD` captures the word and starts the command (10_state R21), `MAXDEV`
stores the clamped value (R32), a `BUF` word stores its four bytes. -/
def Obligations.IdleWriteEffects : Prop :=
  ∀ (off : Offset) (v : Word) (s : State), s.seq = .idle → off.toNat % 4 = 0 →
    ∃ t, hostAccess ⟨.write, off, 4, v⟩ s = .next (t, 0) ∧
      (off.toNat = 0x000 → t = { s with cmd := v, seq := .busy }) ∧
      (off.toNat = 0x014 → t = { s with maxdev := t.maxdev } ∧ t.maxdev.toNat = min (v.toNat % 256) (s.params.resultCap - 1)) ∧
      (0x100 ≤ off.toNat ∧ off.toNat < 0x100 + s.params.bufBytes → t = { s with mem := t.mem } ∧
        (∀ a, Memory.read t.mem a =
          if a = off.toNat then some (v.extractLsb' 0 8) else if a = off.toNat + 1 then some (v.extractLsb' 8 8)
          else if a = off.toNat + 2 then some (v.extractLsb' 16 8)
          else if a = off.toNat + 3 then some (v.extractLsb' 24 8) else Memory.read s.mem a)) ∧
      (off.toNat ≠ 0x000 → off.toNat ≠ 0x014 → 
        ¬ (0x100 ≤ off.toNat ∧ off.toNat < 0x100 + s.params.bufBytes) → t = s)

/-- R65: a host write to a read-only register (`STATUS`, `DATA`, `CRC8R`, `CRC16R`, `DEVCOUNT`, `RES`) is ignored and
changes no state; R64: so is a write to a reserved offset. -/
def Obligations.ReadOnlyWritesAreIgnored : Prop :=
  ∀ (off : Offset) (v : Word) (s : State), s.seq = .idle → off.toNat % 4 = 0 →
    off.toNat = 0x004 ∨ off.toNat = 0x008 ∨ off.toNat = 0x00C ∨ off.toNat = 0x010 ∨
      (0x018 ≤ off.toNat ∧ off.toNat < 0x100) ∨ 0x100 + s.params.bufBytes ≤ off.toNat →
    hostAccess ⟨.write, off, 4, v⟩ s = .next (s, 0)

/-- R62: a word written to `BUF` reads back, and its low byte is the byte of lowest index. -/
def Obligations.BufferWordReadsBackLittleEndian : Prop :=
  ∀ (k : Nat) (off : Offset) (v u : Word) (s : State), s.seq = .idle → k % 4 = 0 → k < s.params.bufBytes →
    off.toNat = bufBase + k →
    ∃ t, hostAccess ⟨.write, off, 4, v⟩ s = .next (t, 0) ∧ hostAccess ⟨.read, off, 4, u⟩ t = .next (t, v) ∧
      t.bufByte k = some (v.extractLsb' 0 8) ∧ t.bufByte (k + 1) = some (v.extractLsb' 8 8) ∧
      t.bufByte (k + 2) = some (v.extractLsb' 16 8) ∧ t.bufByte (k + 3) = some (v.extractLsb' 24 8)

/-- R42: a command that consumes an undefined byte of `BUF` faults, with its word and the lowest such index, before it
changes anything. -/
def Obligations.UndefinedOperandFaults : Prop :=
  ∀ (s : State) (j : Nat), s.bufByte j = none → (∀ i, i < j → (s.bufByte i).isSome) →
    (j < s.params.addrBytes → exec .matchAddress s = .fault (.undefinedRead (.command s.cmd j))) ∧
    ∀ n : Half, n.toNat ≤ s.params.bufBytes →
      (j < n.toNat →
        exec (.block n) s = .fault (.undefinedRead (.command s.cmd j)) ∧
        exec (.crc8 n) s = .fault (.undefinedRead (.command s.cmd j)) ∧
        exec (.crc8Table n) s = .fault (.undefinedRead (.command s.cmd j)) ∧
        exec (.crc8Check n) s = .fault (.undefinedRead (.command s.cmd j))) ∧
      (2 * n.toNat ≤ s.params.bufBytes → j < 2 * n.toNat → exec (.crc16 n) s = .fault (.undefinedRead (.command s.cmd j)))

/-- R24 to R28: the fields of the `STATUS` word a read of an idle OWC returns: `BUSY` 0, `PRESENCE`, `SPEED`, a result
code of 0 to 5, each of them the number R27 gives, and reserved bits 0. -/
def Obligations.StatusWordFields : Prop :=
  ∀ s : State, s.seq = .idle →
    hostAccess ⟨.read, 0x004, 4, 0⟩ s = .next (s, s.status) ∧
    s.status.getLsbD 0 = false ∧ s.status.getLsbD 1 = s.presence ∧
    s.status.getLsbD 2 = decide (s.speed = .overdrive) ∧ s.status.getLsbD 3 = false ∧
    s.status.extractLsb' 4 4 = s.result.code ∧ s.result.code ≤ 5 ∧ s.status >>> 8 = 0 ∧
    ResultCode.ok.code = 0 ∧ ResultCode.noPresence.code = 1 ∧ ResultCode.protocolViolation.code = 2 ∧
    ResultCode.deviceLimit.code = 3 ∧ ResultCode.checksumMismatch.code = 4 ∧ ResultCode.badCommand.code = 5

/-- R101: what each host instruction does. Where its access answers, `st` and `ld` go on to the next instruction and `ld`
keeps the word read; where it faults, the instruction ends in that fault (R61, R69, 60_exceptions R262). A branch tests the
masked register, `halt` stays; `do` is a write to `CMD` and a `wait` on `BUSY`. On the host's turn, which it also has when
no turn is laid down and no command runs, a step is the instruction at the host's position, in the state with that turn
taken off (00_scope R7, 70_reset_and_hazards R301). The model's choices: the turns (notes/assumptions/2.md), that a raw
access drops what it reads, and that past the end of its program the host does nothing (14.md). -/
def Obligations.HostInstructionsFollowTheListing : Prop :=
  (∀ (s u : State) (off : Offset) (v : Word), hostAccess ⟨.write, off, 4, v⟩ s = .next (u, 0) →
    hostExec (.stImm off v) s = .next (u.setHost { u.host with pc := u.host.pc + 1 })) ∧
  (∀ (s u : State) (off : Offset) (r : Nat), hostAccess ⟨.write, off, 4, s.host.reg r⟩ s = .next (u, 0) →
    hostExec (.stReg off r) s = .next (u.setHost { u.host with pc := u.host.pc + 1 })) ∧
  (∀ (s u : State) (off : Offset) (r : Nat) (w : Word), hostAccess ⟨.read, off, 4, 0⟩ s = .next (u, w) →
    ∃ t, hostExec (.ld r off) s = .next t ∧ t = u.setHost t.host ∧ t.host.pc = u.host.pc + 1 ∧
      t.host.prog = u.host.prog ∧ t.host.reg r = w ∧ ∀ q, q ≠ r → t.host.reg q = u.host.reg q) ∧
  (∀ (s : State) (r : Nat) (m : Word) (l : Nat),
    hostExec (.ifNonzero r m l) s =
      .next (s.setHost { s.host with pc := if s.host.reg r &&& m ≠ 0 then l else s.host.pc + 1 }) ∧
    hostExec (.ifZero r m l) s =
      .next (s.setHost { s.host with pc := if s.host.reg r &&& m = 0 then l else s.host.pc + 1 })) ∧
  (∀ s : State, hostExec .halt s = .next s) ∧
  (∀ (a : Access) (s u : State) (w : Word), hostAccess a s = .next (u, w) →
    hostExec (.access a) s = .next (u.setHost { u.host with pc := u.host.pc + 1 })) ∧
  (∀ (s : State) (off : Offset) (v : Word) (f : Fault), hostAccess ⟨.write, off, 4, v⟩ s = .fault f →
    hostExec (.stImm off v) s = .fault f) ∧
  (∀ (s : State) (off : Offset) (r : Nat) (f : Fault), hostAccess ⟨.write, off, 4, s.host.reg r⟩ s = .fault f →
    hostExec (.stReg off r) s = .fault f) ∧
  (∀ (s : State) (off : Offset) (r : Nat) (f : Fault), hostAccess ⟨.read, off, 4, 0⟩ s = .fault f →
    hostExec (.ld r off) s = .fault f) ∧
  (∀ (a : Access) (s : State) (f : Fault), hostAccess a s = .fault f → hostExec (.access a) s = .fault f) ∧
  (∀ (w : Word) (r : Nat),
    assembleHost [.doCommand w r] = some [.stImm 0x000 w, .ld r 0x004, .ifNonzero r 1 1]) ∧
  ∀ s : State, s.turns.head? = some .host ∨ (s.turns = [] ∧ s.seq = .idle) →
    (∀ i, s.host.prog[s.host.pc]? = some i → step s = hostExec i { s with turns := s.turns.tail }) ∧
    (s.host.prog[s.host.pc]? = none → step s = .next { s with turns := s.turns.tail })

/-! ### Bus transport (40_bus_transport) -/

/-- R125, R140: RESET, in every state: one low pulse, one sample, presence when it reads 0; everything else unchanged. The
sequence takes 3840 units at standard speed and 484 in overdrive with this hardware's profiles. -/
def Obligations.ResetDetectsPresence : Prop :=
  ∀ s : State,
    let P := s.profile
    let h := s.wire.hist ++ [.low (s.wire.now + P.resetPreDelay),
      .rel (s.wire.now + P.resetPreDelay + P.resetLowDuration)]
    let at' := s.wire.now + P.resetPreDelay + P.resetLowDuration + P.presenceSampleDelay
    let v := s.bus.answer h at'
    exec .reset s = .next { s with
      wire := { pin := { s.wire.pin with dir := .input }, now := at' + P.presenceRecoveryDelay,
                hist := h ++ [.smp at' v] }
      presence := !v, data := if v then 0 else 1, result := if v then .noPresence else .ok, seq := .idle } ∧
    (s.params.timings = Timings.owc → resetTimeOf P = if s.speed = .standard then 3840 else 484)

/-- R126, R141: WRITE_BIT, in every state: one write slot, a short low pulse for 1 and a full-slot one for 0;
everything else unchanged. With this hardware's profiles the slot takes 280 units at standard speed, and 36 or 40 in
overdrive. -/
def Obligations.WriteBitMakesOneSlot : Prop :=
  ∀ (b : Bit) (s : State),
    let P := s.profile
    let pulse := if b then P.writeRecoveryLow else P.write0Low
    let rest := if b then P.write1RecoveryHigh else P.write0RecoveryHigh
    exec (.writeBit b) s = .next { s with
      wire := { pin := { s.wire.pin with dir := .input }, now := s.wire.now + pulse + rest,
                hist := s.wire.hist ++ [.low s.wire.now, .rel (s.wire.now + pulse)] }
      result := .ok, seq := .idle } ∧
    (s.params.timings = Timings.owc → pulse + rest = if s.speed = .standard then 280 else if b then 36 else 40)

/-- R127, R142: READ_BIT, in every state: one read slot, sampled A + E after its start, `DATA` the bit sampled; everything
else unchanged. With this hardware's profiles the sample comes 60 or 9 units after the start and the slot takes 280 or 37,
at standard speed or in overdrive. -/
def Obligations.ReadBitSamplesOneSlot : Prop :=
  ∀ s : State,
    let P := s.profile
    let h := s.wire.hist ++ [.low s.wire.now, .rel (s.wire.now + P.writeRecoveryLow)]
    let at' := s.wire.now + P.writeRecoveryLow + P.readRecoveryLow
    let v := s.bus.answer h at'
    exec .readBit s = .next { s with
      wire := { pin := { s.wire.pin with dir := .input }, now := at' + P.readSampleWindow,
                hist := h ++ [.smp at' v] }
      data := if v then 1 else 0, result := .ok, seq := .idle } ∧
    (s.params.timings = Timings.owc → readSampleTime P = (if s.speed = .standard then 60 else 9) ∧
      readSlotTime P = if s.speed = .standard then 280 else 37)

/-- R128, R143: WRITE_BYTE, in every state: eight write slots, least significant bit first; everything else unchanged. -/
def Obligations.WriteByteSendsLowBitFirst : Prop :=
  ∀ (v : Byte) (s : State),
    let bits := [v.getLsbD 0, v.getLsbD 1, v.getLsbD 2, v.getLsbD 3, v.getLsbD 4, v.getLsbD 5, v.getLsbD 6, v.getLsbD 7]
    exec (.writeByte v) s = .next { s with
      wire := { pin := { s.wire.pin with dir := .input }, now := s.wire.now + writeTime s.profile bits,
                hist := s.wire.hist ++ writeTrace s.profile bits s.wire.now }
      result := .ok, seq := .idle }

/-- R129, R144: READ_BYTE, in every state: eight read slots, each answered by the bus at its own sample, and bit `k` of
`DATA` is the bit sampled in slot `k`; everything else unchanged. -/
def Obligations.ReadByteAssemblesTheSamples : Prop :=
  ∀ s : State, ∃ slots : List TouchSlot,
    slots.map Prod.fst = List.replicate 8 true ∧ touchAnswered s.bus s.profile slots s.wire.hist s.wire.now ∧
    ∃ acc : Byte, (∀ k, k < 8 → some (acc.getLsbD k) = (slots.map Prod.snd)[k]?) ∧
    exec .readByte s = .next { s with
      wire := { pin := { s.wire.pin with dir := .input }, now := s.wire.now + 8 * readSlotTime s.profile,
                hist := s.wire.hist ++ touchTrace s.profile slots s.wire.now }
      data := acc, result := .ok, seq := .idle }

/-- R130, R145: TOUCH_BYTE, in every state: for each bit, least significant first, a read slot for a 1 and a write-0 slot
for a 0; bit `k` of `DATA` is what slot `k` sensed, so it is at most bit `k` of the byte sent; everything else
unchanged. -/
def Obligations.TouchByteSensesTheOnes : Prop :=
  ∀ (v : Byte) (s : State), ∃ slots : List TouchSlot,
    slots.map Prod.fst =
      [v.getLsbD 0, v.getLsbD 1, v.getLsbD 2, v.getLsbD 3, v.getLsbD 4, v.getLsbD 5, v.getLsbD 6, v.getLsbD 7] ∧
    touchAnswered s.bus s.profile slots s.wire.hist s.wire.now ∧
    ∃ acc : Byte, (∀ k, k < 8 → some (acc.getLsbD k) = (slots.map Prod.snd)[k]?) ∧ acc &&& ~~~v = 0 ∧
    exec (.touchByte v) s = .next { s with
      wire := { pin := { s.wire.pin with dir := .input }, now := s.wire.now + touchTime s.profile slots,
                hist := s.wire.hist ++ touchTrace s.profile slots s.wire.now }
      data := acc, result := .ok, seq := .idle }

/-- R151: TOUCH_BYTE of 0xFF does exactly what READ_BYTE does, in every state. -/
def Obligations.TouchOfAllOnesIsARead : Prop :=
  ∀ s : State, exec (.touchByte 0xFF) s = exec .readByte s

/-- R152: TOUCH_BYTE of 0x00 does exactly what WRITE_BYTE of 0x00 does, and writes `DATA = 0`, in every state. -/
def Obligations.TouchOfZeroIsAWrite : Prop :=
  ∀ s : State, ∃ t, exec (.writeByte 0x00) s = .next t ∧ exec (.touchByte 0x00) s = .next { t with data := 0 }

/-- R146: BLOCK on defined bytes: each byte is touched in index order and replaced by what its touch sensed; bytes at
`k >= n`, `RES` and everything else unchanged, in every state. `LEN = 0` makes no line action. -/
def Obligations.BlockTouchesTheBufferInPlace : Prop :=
  ∀ (n : Half) (bs : List Byte) (s : State), n.toNat ≤ s.params.bufBytes → bs.length = n.toNat → s.bufHolds bs →
    ∃ t, exec (.block n) s = .next t ∧
      t = { s with wire := (s.wire.touchBytesSeq s.bus s.profile bs).2, mem := t.mem, result := .ok, seq := .idle } ∧
      (∀ k, k < n.toNat → t.bufByte k = (s.wire.touchBytesSeq s.bus s.profile bs).1[k]?) ∧
      (∀ a, ¬ (bufBase ≤ a ∧ a < bufBase + n.toNat) → Memory.read t.mem a = Memory.read s.mem a) ∧
      (n = 0 → t = { s with result := .ok, seq := .idle }) ∧
      s.wire.touchBytesSeq s.bus s.profile bs = bs.foldl (fun (r : List Byte × Wire) b =>
        (r.1 ++ [(r.2.touchByteSeq s.bus s.profile b).1], (r.2.touchByteSeq s.bus s.profile b).2)) ([], s.wire)

/-- R147: SET_SPEED selects the profile and makes no line action; everything else unchanged, in every state. -/
def Obligations.SetSpeedSelectsTheProfile : Prop :=
  ∀ (b : Bit) (s : State),
    exec (.setSpeed b) s = .next { s with speed := if b then .overdrive else .standard, result := .ok, seq := .idle } ∧
    ∀ t, exec (.setSpeed b) s = .next t → t.profile = if b then s.params.timings.od else s.params.timings.std

/-- R148: SPEED_SKIP, in every state: a standard reset; with no presence the end, at standard speed; else the byte 0x3C in
standard slots and an overdrive reset, whose presence is the result, `SPEED` staying overdrive either way. With this
hardware's profiles it takes 3840 or 6564 units. -/
def Obligations.SpeedSkipSwitchesToOverdrive : Prop :=
  ∀ s : State,
    let T := s.params.timings
    let r1 := s.wire.resetSeq s.bus T.std
    let r2 := (r1.2.writeByteSeq T.std 0x3C).resetSeq s.bus T.od
    (r1.1 = false → exec .speedSkip s = .next { s with
      wire := r1.2, speed := .standard, presence := false, data := 0, result := .noPresence, seq := .idle }) ∧
    (r1.1 = true → exec .speedSkip s = .next { s with
      wire := r2.2, speed := .overdrive, presence := r2.1, data := if r2.1 then 1 else 0,
      result := if r2.1 then .ok else .noPresence, seq := .idle }) ∧
    r1.2.now = s.wire.now + resetTimeOf T.std ∧
    r2.2.now = r1.2.now + writeTime T.std [false, false, true, true, true, true, false, false] + resetTimeOf T.od ∧
    (T = Timings.owc → r1.2.now = s.wire.now + 3840 ∧ r2.2.now = s.wire.now + 6564)

/-- R149: MATCH_ADDRESS on a defined address: the byte 0x55 and then the bytes of the address from `BUF[0]` on in index
order, each least significant bit first, in write slots with no reset: 72 slots for the 64 address bits of this hardware.
Everything else is unchanged, in every state and for every `ADDR_BITS`. -/
def Obligations.MatchAddressSendsTheAddress : Prop :=
  ∀ (bs : List Byte) (s : State), bs.length = s.params.addrBytes → s.bufHolds bs →
    exec .matchAddress s = .next { s with
      wire := { pin := { s.wire.pin with dir := .input },
                now := s.wire.now + writeTime s.profile (bitsOfBytes (0x55 :: bs)),
                hist := s.wire.hist ++ writeTrace s.profile (bitsOfBytes (0x55 :: bs)) s.wire.now }
      result := .ok, seq := .idle } ∧
    (bitsOfBytes (0x55 :: bs)).length = 8 + 8 * s.params.addrBytes ∧
    (s.params.addrBits = 64 → (bitsOfBytes (0x55 :: bs)).length = 72)

/-- R150: SKIP_ADDRESS does in every state exactly what WRITE_BYTE of 0xCC does, which is to send that byte. -/
def Obligations.SkipAddressSendsItsByte : Prop :=
  ∀ s : State, exec .skipAddress s = exec (.writeByte 0xCC) s ∧
    ∃ t, exec .skipAddress s = .next t ∧ t.result = .ok ∧
      t.wire.hist = s.wire.hist ++
        writeTrace s.profile [false, false, true, true, false, false, true, true] s.wire.now

/-- R153: under the loopback oracle, from an empty history, a bit or a byte written and then read is the value written, at
either speed, for every two profiles whose pulses the oracle can tell apart (notes/assumptions/18.md). -/
def Obligations.LoopbackReturnsWhatWasWritten : Prop :=
  ∀ s : State, s.bus = .loopback s.params.timings → readableTimings s.params.timings → s.wire.hist = [] →
    (∀ b, ∃ t u, exec (.writeBit b) s = .next t ∧ exec .readBit t = .next u ∧ u.data = if b then 1 else 0) ∧
    ∀ x, ∃ t u, exec (.writeByte x) s = .next t ∧ exec .readByte t = .next u ∧ u.data = x

/-- R300: the durations of the commands other than SEARCH, with this hardware's profiles and, for MATCH_ADDRESS, its 64
address bits, at standard speed and in overdrive, `n1` the number of 1 bits. -/
def Obligations.CommandDurations : Prop :=
  ∀ (i : Instr) (s t : State), s.params.timings = Timings.owc → exec i s = .next t →
    (∀ d, (i = .reset ∧ d = 3840) ∨ (∃ b, i = .writeBit b ∧ d = 280) ∨ (i = .readBit ∧ d = 280) ∨
        (∃ v, i = .writeByte v ∧ d = 2240) ∨ (i = .readByte ∧ d = 2240) ∨ (∃ v, i = .touchByte v ∧ d = 2240) ∨
        (∃ n, i = .block n ∧ n.toNat ≤ s.params.bufBytes ∧ d = 2240 * n.toNat) ∨
        (i = .matchAddress ∧ s.params.addrBits = 64 ∧ d = 20160) ∨ (i = .skipAddress ∧ d = 2240) →
      s.speed = .standard → t.wire.now = s.wire.now + d) ∧
    (∀ d, (i = .reset ∧ d = 484) ∨ (i = .writeBit true ∧ d = 36) ∨ (i = .writeBit false ∧ d = 40) ∨
        (i = .readBit ∧ d = 37) ∨ (∃ v, i = .writeByte v ∧ d = 320 - 4 * onesOfByte v) ∨ (i = .readByte ∧ d = 296) ∨
        (∃ v, i = .touchByte v ∧ d = 320 - 3 * onesOfByte v) ∨
        (∃ n bs, i = .block n ∧ n.toNat ≤ s.params.bufBytes ∧ bs.length = n.toNat ∧ s.bufHolds bs ∧
          d = (bs.map fun b => 320 - 3 * onesOfByte b).sum) ∨
        (∃ bs, i = .matchAddress ∧ s.params.addrBits = 64 ∧ bs.length = 8 ∧ s.bufHolds bs ∧
          d = 2880 - 4 * (4 + onesOfBytes bs)) ∨
        (i = .skipAddress ∧ d = 304) →
      s.speed = .overdrive → t.wire.now = s.wire.now + d) ∧
    (i = .speedSkip → t.wire.now = s.wire.now + if t.speed = .standard then 3840 else 6564) ∧
    ((∃ b, i = .setSpeed b) ∨ (∃ n, i = .crc8 n) ∨ (∃ n, i = .crc8Table n) ∨ (∃ n, i = .crc8Check n) ∨
      (∃ n, i = .crc16 n) → t.wire.now = s.wire.now)

/-! ### Whole-machine rules -/

/-- R43: which command writes which state, for every legal choice of the parameters; every command clears `BUSY`. -/
def Obligations.CommandsWriteOnlyTheListedState : Prop :=
  ∀ (i : Instr) (s t : State), exec i s = .next t →
    t.seq = .idle ∧
    (i ≠ .reset → i ≠ .speedSkip → i ≠ .search → t.presence = s.presence) ∧
    ((∀ b, i ≠ .setSpeed b) → i ≠ .speedSkip → t.speed = s.speed) ∧
    (i ≠ .reset → i ≠ .readBit → i ≠ .readByte → (∀ v, i ≠ .touchByte v) → i ≠ .speedSkip → t.data = s.data) ∧
    ((∀ n, i ≠ .crc8 n) → (∀ n, i ≠ .crc8Table n) → (∀ n, i ≠ .crc8Check n) → t.crc8r = s.crc8r) ∧
    ((∀ n, i ≠ .crc16 n) → t.crc16r = s.crc16r) ∧
    (i ≠ .search → t.devcount = s.devcount) ∧
    (s.params.legal → i ≠ .search → ∀ e j, e < s.params.resultCap → j < s.params.addrBytes →
      t.resByte e j = s.resByte e j) ∧
    (s.params.legal → ∀ k, k < s.params.bufBytes → (∀ n : Half, i = .block n → n.toNat ≤ k) → t.bufByte k = s.bufByte k)

/-- The frame of every command: what no command changes at all, and, for every command but BLOCK and SEARCH, that every
byte of memory is unchanged; BLOCK stores to `BUF[0..LEN-1]` and SEARCH, with a legal `MAXDEV`, to `RES` (R43, 10_state
R34, R35, R38 to R40). -/
def Obligations.CommandsLeaveTheRestAlone : Prop :=
  ∀ (i : Instr) (s t : State), exec i s = .next t →
    t.params = s.params ∧ t.cmd = s.cmd ∧ t.maxdev = s.maxdev ∧ t.past = s.past ∧ t.bus = s.bus ∧ t.draws = s.draws ∧ t.turns = s.turns ∧
    t.host = s.host ∧ t.wire.pin.latch = s.wire.pin.latch ∧ t.wire.pin.pull = s.wire.pin.pull ∧
    (i ≠ .search → t.disc = s.disc) ∧
    (i ≠ .search → (∀ n, i ≠ .block n) → t.mem = s.mem) ∧
    (∀ n : Half, i = .block n → ∀ a, ¬ (bufBase ≤ a ∧ a < bufBase + n.toNat) →
      Memory.read t.mem a = Memory.read s.mem a) ∧
    (i = .search → s.maxdev.toNat < s.params.resultCap → ∀ a, ¬ (resBase ≤ a ∧ a < s.resEnd) →
      Memory.read t.mem a = Memory.read s.mem a)

/-- R37: a command that starts with the line released ends with it released; the events it adds to the history are
ones the OWC can make, so that every sample finds the line released (20_memory R75), in order of time (R73). -/
def Obligations.CommandsEndReleased : Prop :=
  ∀ (i : Instr) (s t : State), exec i s = .next t → s.wire.pin.line = .rel →
    t.wire.pin.line = .rel ∧ ∃ evs, t.wire.hist = s.wire.hist ++ evs ∧ legalHistory false evs = true ∧ timesRise evs ∧
      ∀ e ∈ evs, s.wire.now ≤ eventTime e ∧ eventTime e ≤ t.wire.now

/-- R268: each command completes with one of its listed codes, or raises `UndefinedRead` where it may, and no other; so a
command that may not fault always completes. -/
def Obligations.OutcomesAreTheListedOnes : Prop :=
  ∀ (i : Instr) (s : State),
    (∃ t, exec i s = .next t ∧ t.result ∈ mayComplete i) ∨
    (mayFault i = true ∧ ∃ j, exec i s = .fault (.undefinedRead (.command s.cmd j)))

/-! ### Checksum engine (42_checksum) -/

/-- R220, R223: CRC8 on defined bytes: `CRC8R` is the fold of the bitwise step from seed 0; everything else unchanged. -/
def Obligations.Crc8ComputesTheChecksum : Prop :=
  ∀ (n : Half) (bs : List Byte) (s : State), n.toNat ≤ s.params.bufBytes → bs.length = n.toNat → s.bufHolds bs →
    exec (.crc8 n) s = .next { s with crc8r := bs.foldl crc8Step 0, result := .ok, seq := .idle }

/-- R221, R222, R224: the table step is the bitwise step for all operands, so CRC8_TABLE on defined bytes gives the
checksum of CRC8, and the two commands do the same in every state. -/
def Obligations.TableChecksumIsTheBitwiseOne : Prop :=
  (∀ c x, crc8TableStep c x = crc8Step c x) ∧
  (∀ (n : Half) (bs : List Byte) (s : State), n.toNat ≤ s.params.bufBytes → bs.length = n.toNat → s.bufHolds bs →
    exec (.crc8Table n) s = .next { s with crc8r := bs.foldl crc8Step 0, result := .ok, seq := .idle }) ∧
  ∀ (n : Half) (s : State), exec (.crc8Table n) s = exec (.crc8 n) s

/-- R225: CRC8_CHECK on defined bytes, the last of them `e`: `CRC8R` is the checksum of the others, and the result is `OK`
exactly when it equals `e`; everything else unchanged. -/
def Obligations.Crc8CheckComparesTheLastByte : Prop :=
  ∀ (n : Half) (bs : List Byte) (e : Byte) (s : State), n.toNat ≤ s.params.bufBytes → bs.length + 1 = n.toNat →
    s.bufHolds (bs ++ [e]) →
    exec (.crc8Check n) s = .next { s with
      crc8r := bs.foldl crc8Step 0
      result := if bs.foldl crc8Step 0 = e then .ok else .checksumMismatch
      seq := .idle }

/-- R228: CRC16 on defined bytes: `CRC16R` is the fold of the step from seed 0 over the words, each the little-endian pair
of its bytes; everything else unchanged. -/
def Obligations.Crc16ComputesTheChecksum : Prop :=
  ∀ (n : Half) (ws : List Half) (s : State), 2 * n.toNat ≤ s.params.bufBytes → ws.length = n.toNat →
    s.bufHolds (ws.flatMap fun w => [w.extractLsb' 0 8, w.extractLsb' 8 8]) →
    exec (.crc16 n) s = .next { s with crc16r := ws.foldl crc16Step 0, result := .ok, seq := .idle }

/-- R227: the nibble-parity step equals the bitwise reflected update with polynomial 0xA001 on the low byte; over the
bytes of "123456789" the checksum is 0xBB3D. -/
def Obligations.Crc16StepIsTheBitwiseUpdate : Prop :=
  (∀ c w : Half, crc16Step c w = crc16Bitwise c (w.extractLsb' 0 8)) ∧
  crc16Of [0x31, 0x32, 0x33, 0x34, 0x35, 0x36, 0x37, 0x38, 0x39] = 0xBB3D

/-- R229: the checksum of a byte string with its checksum appended is 0, so CRC8_CHECK of a string whose last byte is its
checksum gives `OK`; and CRC16 of a word string with the two bytes of its checksum appended as words is 0. -/
def Obligations.ResidueIsZero : Prop :=
  (∀ bs : List Byte, crc8Of (bs ++ [crc8Of bs]) = 0) ∧
  (∀ (bs : List Byte) (n : Half) (s : State), n.toNat ≤ s.params.bufBytes → bs.length + 1 = n.toNat →
    s.bufHolds (bs ++ [crc8Of bs]) → ∃ t, exec (.crc8Check n) s = .next t ∧ t.result = .ok) ∧
  ∀ ws : List Half, crc16Of (ws ++ [((crc16Of ws).extractLsb' 0 8).setWidth 16,
    ((crc16Of ws).extractLsb' 8 8).setWidth 16]) = 0

/-- R230: the checksum commands read only their operands: in two states whose `BUF` agrees they end alike, with equal
checksums and results; and they leave the bus side, `SPEED` and everything but a checksum register and `RESULT` as
they were. -/
def Obligations.ChecksumCommandsArePure : Prop :=
  ∀ (i : Instr) (s s' t : State), s'.params.bufBytes = s.params.bufBytes → (∃ n, i = .crc8 n ∨ i = .crc8Table n ∨ i = .crc8Check n ∨ i = .crc16 n) →
    (∀ k, k < s.params.bufBytes → s'.bufByte k = s.bufByte k) → exec i s = .next t →
    t = { s with crc8r := t.crc8r, crc16r := t.crc16r, result := t.result, seq := .idle } ∧
    ∃ t', exec i s' = .next t' ∧ t'.result = t.result ∧
      (t.result ≠ .badCommand → ((∃ n, i = .crc16 n) → t'.crc16r = t.crc16r) ∧
        ((∀ n, i ≠ .crc16 n) → t'.crc8r = t.crc8r))

/-! ### Discovery engine (41_discovery) -/

/-- R182: the four cases of `ChooseDirection(i)`, with the replay reading of 90_conflicts C1, on a stack of any
capacity: a push is one onto a stack with room (10_state R38), which 41_discovery R186 says every push of a pass
finds. -/
def Obligations.DirectionFollowsTheStack : Prop :=
  ∀ (depth : Nat) (i : Fin 64) (d : Discovery),
    (d.stk = [] → 0 < depth → chooseDirection depth i d = (false, { d with stk := [i] })) ∧
    ∀ t rest, d.stk = t :: rest →
      (i = t → chooseDirection depth i d = (true, { d with stk := rest })) ∧
      (t < i → d.stk.length < depth → chooseDirection depth i d = (false, { d with stk := i :: t :: rest })) ∧
      (i < t → chooseDirection depth i d = (d.waddr.getLsbD i.val, d))

/-- R183: the appended entry is `WADDR` with address bit `i` at bit `i mod 8` of byte `i div 8`, for every byte of an
address of any width, and `DEVCOUNT` counts it; every other byte and everything else unchanged. -/
def Obligations.AppendedEntryIsTheWorkingAddress : Prop :=
  ∀ s : State, s.devcount.toNat < 255 →
    let t := appendAddress s
    (∀ j, j < s.params.addrBytes → t.resByte s.devcount.toNat j = some (s.disc.waddr.extractLsb' (8 * j) 8)) ∧
    (∀ i, i < 8 * s.params.addrBytes → ((t.resByte s.devcount.toNat (i / 8)).map fun b => b.getLsbD (i % 8)) =
      some (s.disc.waddr.getLsbD i)) ∧
    t.devcount.toNat = s.devcount.toNat + 1 ∧
    (∀ a, ¬ (s.resAddr s.devcount.toNat 0 ≤ a ∧ a < s.resAddr s.devcount.toNat 0 + s.params.addrBytes) →
      Memory.read t.mem a = Memory.read s.mem a) ∧
    t = { s with mem := t.mem, devcount := t.devcount }

/-- R186 (a) to (c): a walk over `n` address bits that starts with the stack rising from bottom to top ends with it so,
whatever the bus answers. Entries that are positions of the address stay so, and then there are at most `n` of them, 64 on
this hardware. So a stack with an entry for every position never overflows: the walk is the same whatever larger capacity
it is given. No capacity is ever exceeded; what a full stack does with a push is the model's choice
(notes/assumptions/29.md) and takes no part in that. -/
def Obligations.StackStaysRising : Prop :=
  ∀ (depth n : Nat) (bus : Bus) (P : TimingProfile) (d : Discovery) (w : Wire), d.stk.Pairwise (fun a b => b < a) →
    let e := walkBits depth bus P (bitPositions n) d w
    e.disc.stk.Pairwise (fun a b => b < a) ∧ e.disc.sp ≤ 64 ∧
    ((∀ i ∈ d.stk, i.val < n) → (∀ i ∈ e.disc.stk, i.val < n) ∧ e.disc.sp ≤ n) ∧
    (d.sp ≤ depth → e.disc.sp ≤ depth) ∧
    ∀ depth', n ≤ depth → n ≤ depth' → walkBits depth' bus P (bitPositions n) d w = e

/-- R180, R185, R268 with 10_state R38: SEARCH always completes, in every state and on every bus, with one of four results
and the stack empty; it changes nothing but `RES`, `DEVCOUNT`, presence, the engine, the bus side, `RESULT` and `SEQ`; and
with a legal `MAXDEV` it stores to no byte outside `RES`, and on every failure or success `DEVCOUNT` counts the entries,
each of them defined. -/
def Obligations.SearchAlwaysCompletes : Prop :=
  ∀ s : State, ∃ t, exec .search s = .next t ∧ t.disc.stk = [] ∧
    t.result ∈ [.ok, .noPresence, .protocolViolation, .deviceLimit] ∧
    t = { s with devcount := t.devcount, mem := t.mem, presence := t.presence, disc := t.disc, wire := t.wire,
                 result := t.result, seq := .idle } ∧
    (s.maxdev.toNat < s.params.resultCap → ∀ a, ¬ (resBase ≤ a ∧ a < s.resEnd) →
      Memory.read t.mem a = Memory.read s.mem a) ∧
    (s.params.legal → s.maxdev.toNat < s.params.resultCap → ∀ e j, e < s.params.resultCap → j < s.params.addrBytes →
      ((t.resByte e j).isSome ↔ e < t.devcount.toNat)) ∧
    (t.result = .noPresence ↔ t.presence = false)

/-- R189, R263: on a bus whose first presence sample reads 1, SEARCH ends `NO_PRESENCE` after that reset, with no byte
sent, no entry and `DEVCOUNT = 0`. -/
def Obligations.SearchOfAnEmptyBus : Prop :=
  ∀ s : State, (s.wire.resetSeq s.bus s.profile).1 = false →
    exec .search s = .next { s with
      wire := (s.wire.resetSeq s.bus s.profile).2, presence := false, devcount := 0,
      mem := Memory.clear s.mem resBase s.resEnd, disc := { s.disc with stk := [], safe := 0 },
      result := .noPresence, seq := .idle }

/-- R181, R185, R264: two ones end the pass at once, at every bit of every walk. Bit 0 of the first walk: SEARCH ends
`PROTOCOL_VIOLATION` right after the second read, with nothing written back and no entry. Bit `i` of a walk whose
earlier bits were done, in an address of any width: the walk ends right after the second read, with nothing recorded
or written back for it. Walk `k` of a pass: SEARCH ends `PROTOCOL_VIOLATION` where that walk ended, and the `k`
entries appended before it stay, and no other. -/
def Obligations.TwoOnesEndThePass : Prop :=
  (∀ s : State,
    let r := s.wire.resetSeq s.bus s.profile
    let b := (r.2.writeByteSeq s.profile 0xF0).readBitSeq s.bus s.profile
    let bc := b.2.readBitSeq s.bus s.profile
    0 < s.params.addrBits → r.1 = true → b.1 = true → bc.1 = true →
    ∃ t, exec .search s = .next t ∧ t.result = .protocolViolation ∧ t.devcount = 0 ∧ t.wire = bc.2 ∧
      t.mem = Memory.clear s.mem resBase s.resEnd ∧ t.disc.stk = [] ∧ t.disc.waddr = s.disc.waddr) ∧
  (∀ (depth n : Nat) (bus : Bus) (P : TimingProfile) (before after : List (Fin 64)) (i : Fin 64) (d : Discovery)
      (w : Wire), bitPositions n = before ++ i :: after →
    let e := walkBits depth bus P before d w
    let b := e.wire.readBitSeq bus P
    let bc := b.2.readBitSeq bus P
    e.result = .done → b.1 = true → bc.1 = true →
    walkBits depth bus P (bitPositions n) d w = { result := .protocolViolation, disc := e.disc, wire := bc.2 }) ∧
  ∀ (s u v : State) (k : Nat), passAfter s k = some u → searchWalk u = (.protocolViolation, v) →
    ∃ t, exec .search s = .next t ∧ t.result = .protocolViolation ∧ t.devcount.toNat = k ∧ t.wire = v.wire ∧
      t.mem = u.mem ∧ (∀ e j, e < k → j < s.params.addrBytes → (t.resByte e j).isSome) ∧ t.disc.stk = [] ∧ t.presence = true

/-- R190: a pass makes at most `MAXDEV + 1` walks and appends at most `MAXDEV + 1` addresses, so with this hardware's
profiles and its 64 address bits it takes at most `(MAXDEV + 1) * 59840` units of time at standard speed, for every
legal `MAXDEV` and every bus. It ends by its own rules: the bound the model's loop is given (notes/assumptions/17.md)
never ends it, and a larger one changes nothing. -/
def Obligations.SearchIsBounded : Prop :=
  ∀ s t : State, s.params.legal → s.maxdev.toNat < s.params.resultCap → exec .search s = .next t →
    (readableTimings s.params.timings → busResetCount s.params.timings t.wire.hist ≤
      busResetCount s.params.timings s.wire.hist + (s.maxdev.toNat + 1)) ∧
    t.devcount.toNat ≤ s.maxdev.toNat + 1 ∧
    (s.params.timings = Timings.owc → s.params.addrBits = 64 → s.speed = .standard →
      t.wire.now ≤ s.wire.now + (s.maxdev.toNat + 1) * 59840) ∧
    ∀ n, s.maxdev.toNat + 1 ≤ n → searchLoop n (startPass s) = t

/-- R190: on the adversarial bus that answers 0 to every sample the pass ends `DEVICE_LIMIT` after `MAXDEV + 1` walks, for
every legal `MAXDEV`. -/
def Obligations.AdversarialBusEndsAtTheLimit : Prop :=
  ∀ s : State, s.bus = .always false → s.params.legal → s.maxdev.toNat < s.params.resultCap →
    ∃ t, exec .search s = .next t ∧ t.result = .deviceLimit ∧ t.devcount.toNat = s.maxdev.toNat + 1 ∧
      (s.params.timings = Timings.owc → s.params.addrBits = 64 → s.speed = .standard →
      t.wire.now = s.wire.now + (s.maxdev.toNat + 1) * 59840)

/-- R189, R186 (d): a pass keeps nothing of an earlier one. Two states that differ only in the discovery engine's
state, in `DEVCOUNT` and in `RES` end the pass alike, but for what `WADDR` is left holding. -/
def Obligations.SearchForgetsEarlierPasses : Prop :=
  ∀ (s t : State) (d : Discovery) (c : Byte) (m : Memory),
    Memory.clear m resBase s.resEnd = Memory.clear s.mem resBase s.resEnd → exec .search s = .next t →
    ∃ a, exec .search { s with disc := d, devcount := c, mem := m } =
      .next { t with disc := { t.disc with waddr := a } }

/-- R188, under the fixture `DP(S)` of R187 as the model reads it (notes/assumptions/18.md, 27.md): on the
device-population bus of a non-empty set of distinct addresses, with a legal `MAXDEV` and profiles whose pulses the
fixture can tell apart, SEARCH finds the addresses, of `ADDR_BITS` bits each, in ascending order of their bits, each
once: all of them with `OK` when there are at most `MAXDEV + 1`, else the first `MAXDEV + 1` with `DEVICE_LIMIT`. It
makes one walk for each address found. How the fixture reads the history, and what it does out of the search's order,
are the model's choices; so is the range of `ADDR_BITS` (12.md). -/
def Obligations.SearchFindsEveryDevice : Prop :=
  ∀ (devices : List Address) (s : State), s.bus = .population s.params.timings s.params.addrBits devices →
    (∀ a ∈ devices, ∀ i, s.params.addrBits ≤ i → a.getLsbD i = false) → readableTimings s.params.timings → devices.Nodup → devices ≠ [] →
    s.params.legal → s.maxdev.toNat < s.params.resultCap →
    ∃ (t : State) (found : List Address), exec .search s = .next t ∧ found.Perm devices ∧ found.Pairwise searchBefore ∧
      t.result = (if devices.length ≤ s.maxdev.toNat + 1 then .ok else .deviceLimit) ∧
      t.devcount.toNat = min devices.length (s.maxdev.toNat + 1) ∧
      busResetCount s.params.timings t.wire.hist =
        busResetCount s.params.timings s.wire.hist + min devices.length (s.maxdev.toNat + 1) ∧
      ∀ e j, e < min devices.length (s.maxdev.toNat + 1) → j < s.params.addrBytes →
        t.resByte e j = (found[e]?).map fun a => a.extractLsb' (8 * j) 8

/-- R300, R190: the time of one walk with this hardware's profiles. A complete walk over `n` address bits takes
`6080 + 840*n` units at standard speed and `788 + 114*n - 4*n1(WADDR)` in overdrive, which for the 64 bits of this
hardware are 59840 and `8084 - 4*n1(WADDR)`; one whose reset fails 3840 or 484; one given up at bit `i`, which has sampled
the presence and `i + 1` pairs of bits, `6640 + 840*i` at standard speed, and in overdrive `788 + 74*(i + 1)` and 36 for
each 1 and 40 for each 0 written back before it. -/
def Obligations.WalkDurations : Prop :=
  ∀ s : State, s.params.timings = Timings.owc → s.params.addrBits ≤ 64 →
    let r := searchWalk s
    let n := s.params.addrBits
    let ones := (List.range n).countP fun i => r.2.disc.waddr.getLsbD i
    let written i := ((List.range i).map fun j => if r.2.disc.waddr.getLsbD j then 36 else 40).sum
    (r.1 = .done → r.2.wire.now = s.wire.now + if s.speed = .standard then 6080 + 840 * n else 788 + 114 * n - 4 * ones) ∧
    (r.1 = .done → n = 64 → r.2.wire.now = s.wire.now + if s.speed = .standard then 59840 else 8084 - 4 * ones) ∧
    (r.1 = .noPresence → r.2.wire.now = s.wire.now + if s.speed = .standard then 3840 else 484) ∧
    (r.1 = .protocolViolation → ∃ i, i < n ∧
      sampleCount r.2.wire.hist = sampleCount s.wire.hist + 1 + 2 * (i + 1) ∧
      r.2.wire.now = s.wire.now + if s.speed = .standard then 6640 + 840 * i else 788 + 74 * (i + 1) + written i)

/-- R73, R302: a gap the host leaves between two commands passes its time with no event and changes nothing else; while a
command runs it does nothing (notes/assumptions/11.md). -/
def Obligations.GapPassesTime : Prop :=
  ∀ (s : State) (g : Nat) (rest : List Turn), s.turns = .gap g :: rest →
    (s.seq = .idle → step s = .next { s with turns := rest, wire := { s.wire with now := s.wire.now + g } }) ∧
    (s.seq = .busy → step s = .next { s with turns := rest })

/-- R8, R120, R122: this hardware's parameters have the listed values, and no step of any agent changes a parameter. -/
def Obligations.ParametersNeverChange : Prop :=
  (∀ s t : State, step s = .next t → t.params = s.params) ∧
  State.reset.params.resultCap = 51 ∧ State.reset.params.bufBytes = 256 ∧ State.reset.params.maxdevReset = 50 ∧
  State.reset.params.stackDepth = 64 ∧ State.reset.params.addrBits = 64 ∧
  State.reset.params.timings.std = ⟨24, 256, 240, 40, 36, 220, 0, 1920, 280, 1640⟩ ∧
  State.reset.params.timings.od = ⟨6, 30, 30, 10, 3, 28, 10, 280, 34, 160⟩
end

