-- ==== Sys2Proof/Laws/State.lean ====
section
/-!
SUPPORT. What each named update of the state does to each field: true by `rfl`, so that no proof unfolds an update.
-/

namespace Sys2Proof.Machine

variable (s : State)

@[simp] theorem State.resetOf_params (p : Params) : (State.resetOf p).params = p := rfl
@[simp] theorem State.reset_params : State.reset.params = Params.owc := rfl

@[simp] theorem State.setWire_params (w : Wire) : (s.setWire w).params = s.params := rfl
@[simp] theorem State.setWire_seq (w : Wire) : (s.setWire w).seq = s.seq := rfl
@[simp] theorem State.setWire_cmd (w : Wire) : (s.setWire w).cmd = s.cmd := rfl
@[simp] theorem State.setWire_presence (w : Wire) : (s.setWire w).presence = s.presence := rfl
@[simp] theorem State.setWire_speed (w : Wire) : (s.setWire w).speed = s.speed := rfl
@[simp] theorem State.setWire_result (w : Wire) : (s.setWire w).result = s.result := rfl
@[simp] theorem State.setWire_data (w : Wire) : (s.setWire w).data = s.data := rfl
@[simp] theorem State.setWire_crc8r (w : Wire) : (s.setWire w).crc8r = s.crc8r := rfl
@[simp] theorem State.setWire_crc16r (w : Wire) : (s.setWire w).crc16r = s.crc16r := rfl
@[simp] theorem State.setWire_maxdev (w : Wire) : (s.setWire w).maxdev = s.maxdev := rfl
@[simp] theorem State.setWire_devcount (w : Wire) : (s.setWire w).devcount = s.devcount := rfl
@[simp] theorem State.setWire_mem (w : Wire) : (s.setWire w).mem = s.mem := rfl
@[simp] theorem State.setWire_disc (w : Wire) : (s.setWire w).disc = s.disc := rfl
@[simp] theorem State.setWire_wire (w : Wire) : (s.setWire w).wire = w := rfl
@[simp] theorem State.setWire_past (w : Wire) : (s.setWire w).past = s.past := rfl
@[simp] theorem State.setWire_bus (w : Wire) : (s.setWire w).bus = s.bus := rfl
@[simp] theorem State.setWire_draws (w : Wire) : (s.setWire w).draws = s.draws := rfl
@[simp] theorem State.setWire_turns (w : Wire) : (s.setWire w).turns = s.turns := rfl
@[simp] theorem State.setWire_host (w : Wire) : (s.setWire w).host = s.host := rfl

@[simp] theorem State.setData_params (v : Byte) : (s.setData v).params = s.params := rfl
@[simp] theorem State.setData_seq (v : Byte) : (s.setData v).seq = s.seq := rfl
@[simp] theorem State.setData_cmd (v : Byte) : (s.setData v).cmd = s.cmd := rfl
@[simp] theorem State.setData_presence (v : Byte) : (s.setData v).presence = s.presence := rfl
@[simp] theorem State.setData_speed (v : Byte) : (s.setData v).speed = s.speed := rfl
@[simp] theorem State.setData_result (v : Byte) : (s.setData v).result = s.result := rfl
@[simp] theorem State.setData_data (v : Byte) : (s.setData v).data = v := rfl
@[simp] theorem State.setData_crc8r (v : Byte) : (s.setData v).crc8r = s.crc8r := rfl
@[simp] theorem State.setData_crc16r (v : Byte) : (s.setData v).crc16r = s.crc16r := rfl
@[simp] theorem State.setData_maxdev (v : Byte) : (s.setData v).maxdev = s.maxdev := rfl
@[simp] theorem State.setData_devcount (v : Byte) : (s.setData v).devcount = s.devcount := rfl
@[simp] theorem State.setData_mem (v : Byte) : (s.setData v).mem = s.mem := rfl
@[simp] theorem State.setData_disc (v : Byte) : (s.setData v).disc = s.disc := rfl
@[simp] theorem State.setData_wire (v : Byte) : (s.setData v).wire = s.wire := rfl
@[simp] theorem State.setData_past (v : Byte) : (s.setData v).past = s.past := rfl
@[simp] theorem State.setData_bus (v : Byte) : (s.setData v).bus = s.bus := rfl
@[simp] theorem State.setData_draws (v : Byte) : (s.setData v).draws = s.draws := rfl
@[simp] theorem State.setData_turns (v : Byte) : (s.setData v).turns = s.turns := rfl
@[simp] theorem State.setData_host (v : Byte) : (s.setData v).host = s.host := rfl

@[simp] theorem State.setPresence_params (p : Bit) : (s.setPresence p).params = s.params := rfl
@[simp] theorem State.setPresence_seq (p : Bit) : (s.setPresence p).seq = s.seq := rfl
@[simp] theorem State.setPresence_cmd (p : Bit) : (s.setPresence p).cmd = s.cmd := rfl
@[simp] theorem State.setPresence_presence (p : Bit) : (s.setPresence p).presence = p := rfl
@[simp] theorem State.setPresence_speed (p : Bit) : (s.setPresence p).speed = s.speed := rfl
@[simp] theorem State.setPresence_result (p : Bit) : (s.setPresence p).result = s.result := rfl
@[simp] theorem State.setPresence_data (p : Bit) : (s.setPresence p).data = s.data := rfl
@[simp] theorem State.setPresence_crc8r (p : Bit) : (s.setPresence p).crc8r = s.crc8r := rfl
@[simp] theorem State.setPresence_crc16r (p : Bit) : (s.setPresence p).crc16r = s.crc16r := rfl
@[simp] theorem State.setPresence_maxdev (p : Bit) : (s.setPresence p).maxdev = s.maxdev := rfl
@[simp] theorem State.setPresence_devcount (p : Bit) : (s.setPresence p).devcount = s.devcount := rfl
@[simp] theorem State.setPresence_mem (p : Bit) : (s.setPresence p).mem = s.mem := rfl
@[simp] theorem State.setPresence_disc (p : Bit) : (s.setPresence p).disc = s.disc := rfl
@[simp] theorem State.setPresence_wire (p : Bit) : (s.setPresence p).wire = s.wire := rfl
@[simp] theorem State.setPresence_past (p : Bit) : (s.setPresence p).past = s.past := rfl
@[simp] theorem State.setPresence_bus (p : Bit) : (s.setPresence p).bus = s.bus := rfl
@[simp] theorem State.setPresence_draws (p : Bit) : (s.setPresence p).draws = s.draws := rfl
@[simp] theorem State.setPresence_turns (p : Bit) : (s.setPresence p).turns = s.turns := rfl
@[simp] theorem State.setPresence_host (p : Bit) : (s.setPresence p).host = s.host := rfl

@[simp] theorem State.setSpeed_params (v : Speed) : (s.setSpeed v).params = s.params := rfl
@[simp] theorem State.setSpeed_seq (v : Speed) : (s.setSpeed v).seq = s.seq := rfl
@[simp] theorem State.setSpeed_cmd (v : Speed) : (s.setSpeed v).cmd = s.cmd := rfl
@[simp] theorem State.setSpeed_presence (v : Speed) : (s.setSpeed v).presence = s.presence := rfl
@[simp] theorem State.setSpeed_speed (v : Speed) : (s.setSpeed v).speed = v := rfl
@[simp] theorem State.setSpeed_result (v : Speed) : (s.setSpeed v).result = s.result := rfl
@[simp] theorem State.setSpeed_data (v : Speed) : (s.setSpeed v).data = s.data := rfl
@[simp] theorem State.setSpeed_crc8r (v : Speed) : (s.setSpeed v).crc8r = s.crc8r := rfl
@[simp] theorem State.setSpeed_crc16r (v : Speed) : (s.setSpeed v).crc16r = s.crc16r := rfl
@[simp] theorem State.setSpeed_maxdev (v : Speed) : (s.setSpeed v).maxdev = s.maxdev := rfl
@[simp] theorem State.setSpeed_devcount (v : Speed) : (s.setSpeed v).devcount = s.devcount := rfl
@[simp] theorem State.setSpeed_mem (v : Speed) : (s.setSpeed v).mem = s.mem := rfl
@[simp] theorem State.setSpeed_disc (v : Speed) : (s.setSpeed v).disc = s.disc := rfl
@[simp] theorem State.setSpeed_wire (v : Speed) : (s.setSpeed v).wire = s.wire := rfl
@[simp] theorem State.setSpeed_past (v : Speed) : (s.setSpeed v).past = s.past := rfl
@[simp] theorem State.setSpeed_bus (v : Speed) : (s.setSpeed v).bus = s.bus := rfl
@[simp] theorem State.setSpeed_draws (v : Speed) : (s.setSpeed v).draws = s.draws := rfl
@[simp] theorem State.setSpeed_turns (v : Speed) : (s.setSpeed v).turns = s.turns := rfl
@[simp] theorem State.setSpeed_host (v : Speed) : (s.setSpeed v).host = s.host := rfl

@[simp] theorem State.setCrc8_params (c : Byte) : (s.setCrc8 c).params = s.params := rfl
@[simp] theorem State.setCrc8_seq (c : Byte) : (s.setCrc8 c).seq = s.seq := rfl
@[simp] theorem State.setCrc8_cmd (c : Byte) : (s.setCrc8 c).cmd = s.cmd := rfl
@[simp] theorem State.setCrc8_presence (c : Byte) : (s.setCrc8 c).presence = s.presence := rfl
@[simp] theorem State.setCrc8_speed (c : Byte) : (s.setCrc8 c).speed = s.speed := rfl
@[simp] theorem State.setCrc8_result (c : Byte) : (s.setCrc8 c).result = s.result := rfl
@[simp] theorem State.setCrc8_data (c : Byte) : (s.setCrc8 c).data = s.data := rfl
@[simp] theorem State.setCrc8_crc8r (c : Byte) : (s.setCrc8 c).crc8r = c := rfl
@[simp] theorem State.setCrc8_crc16r (c : Byte) : (s.setCrc8 c).crc16r = s.crc16r := rfl
@[simp] theorem State.setCrc8_maxdev (c : Byte) : (s.setCrc8 c).maxdev = s.maxdev := rfl
@[simp] theorem State.setCrc8_devcount (c : Byte) : (s.setCrc8 c).devcount = s.devcount := rfl
@[simp] theorem State.setCrc8_mem (c : Byte) : (s.setCrc8 c).mem = s.mem := rfl
@[simp] theorem State.setCrc8_disc (c : Byte) : (s.setCrc8 c).disc = s.disc := rfl
@[simp] theorem State.setCrc8_wire (c : Byte) : (s.setCrc8 c).wire = s.wire := rfl
@[simp] theorem State.setCrc8_past (c : Byte) : (s.setCrc8 c).past = s.past := rfl
@[simp] theorem State.setCrc8_bus (c : Byte) : (s.setCrc8 c).bus = s.bus := rfl
@[simp] theorem State.setCrc8_draws (c : Byte) : (s.setCrc8 c).draws = s.draws := rfl
@[simp] theorem State.setCrc8_turns (c : Byte) : (s.setCrc8 c).turns = s.turns := rfl
@[simp] theorem State.setCrc8_host (c : Byte) : (s.setCrc8 c).host = s.host := rfl

@[simp] theorem State.setCrc16_params (c : Half) : (s.setCrc16 c).params = s.params := rfl
@[simp] theorem State.setCrc16_seq (c : Half) : (s.setCrc16 c).seq = s.seq := rfl
@[simp] theorem State.setCrc16_cmd (c : Half) : (s.setCrc16 c).cmd = s.cmd := rfl
@[simp] theorem State.setCrc16_presence (c : Half) : (s.setCrc16 c).presence = s.presence := rfl
@[simp] theorem State.setCrc16_speed (c : Half) : (s.setCrc16 c).speed = s.speed := rfl
@[simp] theorem State.setCrc16_result (c : Half) : (s.setCrc16 c).result = s.result := rfl
@[simp] theorem State.setCrc16_data (c : Half) : (s.setCrc16 c).data = s.data := rfl
@[simp] theorem State.setCrc16_crc8r (c : Half) : (s.setCrc16 c).crc8r = s.crc8r := rfl
@[simp] theorem State.setCrc16_crc16r (c : Half) : (s.setCrc16 c).crc16r = c := rfl
@[simp] theorem State.setCrc16_maxdev (c : Half) : (s.setCrc16 c).maxdev = s.maxdev := rfl
@[simp] theorem State.setCrc16_devcount (c : Half) : (s.setCrc16 c).devcount = s.devcount := rfl
@[simp] theorem State.setCrc16_mem (c : Half) : (s.setCrc16 c).mem = s.mem := rfl
@[simp] theorem State.setCrc16_disc (c : Half) : (s.setCrc16 c).disc = s.disc := rfl
@[simp] theorem State.setCrc16_wire (c : Half) : (s.setCrc16 c).wire = s.wire := rfl
@[simp] theorem State.setCrc16_past (c : Half) : (s.setCrc16 c).past = s.past := rfl
@[simp] theorem State.setCrc16_bus (c : Half) : (s.setCrc16 c).bus = s.bus := rfl
@[simp] theorem State.setCrc16_draws (c : Half) : (s.setCrc16 c).draws = s.draws := rfl
@[simp] theorem State.setCrc16_turns (c : Half) : (s.setCrc16 c).turns = s.turns := rfl
@[simp] theorem State.setCrc16_host (c : Half) : (s.setCrc16 c).host = s.host := rfl

@[simp] theorem State.storeBytes_params (a : Nat) (bs : List Byte) : (s.storeBytes a bs).params = s.params := rfl
@[simp] theorem State.storeBytes_seq (a : Nat) (bs : List Byte) : (s.storeBytes a bs).seq = s.seq := rfl
@[simp] theorem State.storeBytes_cmd (a : Nat) (bs : List Byte) : (s.storeBytes a bs).cmd = s.cmd := rfl
@[simp] theorem State.storeBytes_presence (a : Nat) (bs : List Byte) : (s.storeBytes a bs).presence = s.presence := rfl
@[simp] theorem State.storeBytes_speed (a : Nat) (bs : List Byte) : (s.storeBytes a bs).speed = s.speed := rfl
@[simp] theorem State.storeBytes_result (a : Nat) (bs : List Byte) : (s.storeBytes a bs).result = s.result := rfl
@[simp] theorem State.storeBytes_data (a : Nat) (bs : List Byte) : (s.storeBytes a bs).data = s.data := rfl
@[simp] theorem State.storeBytes_crc8r (a : Nat) (bs : List Byte) : (s.storeBytes a bs).crc8r = s.crc8r := rfl
@[simp] theorem State.storeBytes_crc16r (a : Nat) (bs : List Byte) : (s.storeBytes a bs).crc16r = s.crc16r := rfl
@[simp] theorem State.storeBytes_maxdev (a : Nat) (bs : List Byte) : (s.storeBytes a bs).maxdev = s.maxdev := rfl
@[simp] theorem State.storeBytes_devcount (a : Nat) (bs : List Byte) : (s.storeBytes a bs).devcount = s.devcount := rfl
@[simp] theorem State.storeBytes_mem (a : Nat) (bs : List Byte) : (s.storeBytes a bs).mem = Memory.writeBytes s.mem a bs := rfl
@[simp] theorem State.storeBytes_disc (a : Nat) (bs : List Byte) : (s.storeBytes a bs).disc = s.disc := rfl
@[simp] theorem State.storeBytes_wire (a : Nat) (bs : List Byte) : (s.storeBytes a bs).wire = s.wire := rfl
@[simp] theorem State.storeBytes_past (a : Nat) (bs : List Byte) : (s.storeBytes a bs).past = s.past := rfl
@[simp] theorem State.storeBytes_bus (a : Nat) (bs : List Byte) : (s.storeBytes a bs).bus = s.bus := rfl
@[simp] theorem State.storeBytes_draws (a : Nat) (bs : List Byte) : (s.storeBytes a bs).draws = s.draws := rfl
@[simp] theorem State.storeBytes_turns (a : Nat) (bs : List Byte) : (s.storeBytes a bs).turns = s.turns := rfl
@[simp] theorem State.storeBytes_host (a : Nat) (bs : List Byte) : (s.storeBytes a bs).host = s.host := rfl

@[simp] theorem State.setDisc_params (d : Discovery) : (s.setDisc d).params = s.params := rfl
@[simp] theorem State.setDisc_seq (d : Discovery) : (s.setDisc d).seq = s.seq := rfl
@[simp] theorem State.setDisc_cmd (d : Discovery) : (s.setDisc d).cmd = s.cmd := rfl
@[simp] theorem State.setDisc_presence (d : Discovery) : (s.setDisc d).presence = s.presence := rfl
@[simp] theorem State.setDisc_speed (d : Discovery) : (s.setDisc d).speed = s.speed := rfl
@[simp] theorem State.setDisc_result (d : Discovery) : (s.setDisc d).result = s.result := rfl
@[simp] theorem State.setDisc_data (d : Discovery) : (s.setDisc d).data = s.data := rfl
@[simp] theorem State.setDisc_crc8r (d : Discovery) : (s.setDisc d).crc8r = s.crc8r := rfl
@[simp] theorem State.setDisc_crc16r (d : Discovery) : (s.setDisc d).crc16r = s.crc16r := rfl
@[simp] theorem State.setDisc_maxdev (d : Discovery) : (s.setDisc d).maxdev = s.maxdev := rfl
@[simp] theorem State.setDisc_devcount (d : Discovery) : (s.setDisc d).devcount = s.devcount := rfl
@[simp] theorem State.setDisc_mem (d : Discovery) : (s.setDisc d).mem = s.mem := rfl
@[simp] theorem State.setDisc_disc (d : Discovery) : (s.setDisc d).disc = d := rfl
@[simp] theorem State.setDisc_wire (d : Discovery) : (s.setDisc d).wire = s.wire := rfl
@[simp] theorem State.setDisc_past (d : Discovery) : (s.setDisc d).past = s.past := rfl
@[simp] theorem State.setDisc_bus (d : Discovery) : (s.setDisc d).bus = s.bus := rfl
@[simp] theorem State.setDisc_draws (d : Discovery) : (s.setDisc d).draws = s.draws := rfl
@[simp] theorem State.setDisc_turns (d : Discovery) : (s.setDisc d).turns = s.turns := rfl
@[simp] theorem State.setDisc_host (d : Discovery) : (s.setDisc d).host = s.host := rfl

@[simp] theorem State.complete_params (code : ResultCode) : (s.complete code).params = s.params := rfl
@[simp] theorem State.complete_seq (code : ResultCode) : (s.complete code).seq = .idle := rfl
@[simp] theorem State.complete_cmd (code : ResultCode) : (s.complete code).cmd = s.cmd := rfl
@[simp] theorem State.complete_presence (code : ResultCode) : (s.complete code).presence = s.presence := rfl
@[simp] theorem State.complete_speed (code : ResultCode) : (s.complete code).speed = s.speed := rfl
@[simp] theorem State.complete_result (code : ResultCode) : (s.complete code).result = code := rfl
@[simp] theorem State.complete_data (code : ResultCode) : (s.complete code).data = s.data := rfl
@[simp] theorem State.complete_crc8r (code : ResultCode) : (s.complete code).crc8r = s.crc8r := rfl
@[simp] theorem State.complete_crc16r (code : ResultCode) : (s.complete code).crc16r = s.crc16r := rfl
@[simp] theorem State.complete_maxdev (code : ResultCode) : (s.complete code).maxdev = s.maxdev := rfl
@[simp] theorem State.complete_devcount (code : ResultCode) : (s.complete code).devcount = s.devcount := rfl
@[simp] theorem State.complete_mem (code : ResultCode) : (s.complete code).mem = s.mem := rfl
@[simp] theorem State.complete_disc (code : ResultCode) : (s.complete code).disc = s.disc := rfl
@[simp] theorem State.complete_wire (code : ResultCode) : (s.complete code).wire = s.wire := rfl
@[simp] theorem State.complete_past (code : ResultCode) : (s.complete code).past = s.past := rfl
@[simp] theorem State.complete_bus (code : ResultCode) : (s.complete code).bus = s.bus := rfl
@[simp] theorem State.complete_draws (code : ResultCode) : (s.complete code).draws = s.draws := rfl
@[simp] theorem State.complete_turns (code : ResultCode) : (s.complete code).turns = s.turns := rfl
@[simp] theorem State.complete_host (code : ResultCode) : (s.complete code).host = s.host := rfl

@[simp] theorem State.badCommand_params : (s.badCommand).params = s.params := rfl
@[simp] theorem State.badCommand_seq : (s.badCommand).seq = .idle := rfl
@[simp] theorem State.badCommand_cmd : (s.badCommand).cmd = s.cmd := rfl
@[simp] theorem State.badCommand_presence : (s.badCommand).presence = s.presence := rfl
@[simp] theorem State.badCommand_speed : (s.badCommand).speed = s.speed := rfl
@[simp] theorem State.badCommand_result : (s.badCommand).result = .badCommand := rfl
@[simp] theorem State.badCommand_data : (s.badCommand).data = s.data := rfl
@[simp] theorem State.badCommand_crc8r : (s.badCommand).crc8r = s.crc8r := rfl
@[simp] theorem State.badCommand_crc16r : (s.badCommand).crc16r = s.crc16r := rfl
@[simp] theorem State.badCommand_maxdev : (s.badCommand).maxdev = s.maxdev := rfl
@[simp] theorem State.badCommand_devcount : (s.badCommand).devcount = s.devcount := rfl
@[simp] theorem State.badCommand_mem : (s.badCommand).mem = s.mem := rfl
@[simp] theorem State.badCommand_disc : (s.badCommand).disc = s.disc := rfl
@[simp] theorem State.badCommand_wire : (s.badCommand).wire = s.wire := rfl
@[simp] theorem State.badCommand_past : (s.badCommand).past = s.past := rfl
@[simp] theorem State.badCommand_bus : (s.badCommand).bus = s.bus := rfl
@[simp] theorem State.badCommand_draws : (s.badCommand).draws = s.draws := rfl
@[simp] theorem State.badCommand_turns : (s.badCommand).turns = s.turns := rfl
@[simp] theorem State.badCommand_host : (s.badCommand).host = s.host := rfl

@[simp] theorem State.startCommand_params (w : Word) : (s.startCommand w).params = s.params := rfl
@[simp] theorem State.startCommand_seq (w : Word) : (s.startCommand w).seq = .busy := rfl
@[simp] theorem State.startCommand_cmd (w : Word) : (s.startCommand w).cmd = w := rfl
@[simp] theorem State.startCommand_presence (w : Word) : (s.startCommand w).presence = s.presence := rfl
@[simp] theorem State.startCommand_speed (w : Word) : (s.startCommand w).speed = s.speed := rfl
@[simp] theorem State.startCommand_result (w : Word) : (s.startCommand w).result = s.result := rfl
@[simp] theorem State.startCommand_data (w : Word) : (s.startCommand w).data = s.data := rfl
@[simp] theorem State.startCommand_crc8r (w : Word) : (s.startCommand w).crc8r = s.crc8r := rfl
@[simp] theorem State.startCommand_crc16r (w : Word) : (s.startCommand w).crc16r = s.crc16r := rfl
@[simp] theorem State.startCommand_maxdev (w : Word) : (s.startCommand w).maxdev = s.maxdev := rfl
@[simp] theorem State.startCommand_devcount (w : Word) : (s.startCommand w).devcount = s.devcount := rfl
@[simp] theorem State.startCommand_mem (w : Word) : (s.startCommand w).mem = s.mem := rfl
@[simp] theorem State.startCommand_disc (w : Word) : (s.startCommand w).disc = s.disc := rfl
@[simp] theorem State.startCommand_wire (w : Word) : (s.startCommand w).wire = s.wire := rfl
@[simp] theorem State.startCommand_past (w : Word) : (s.startCommand w).past = s.past := rfl
@[simp] theorem State.startCommand_bus (w : Word) : (s.startCommand w).bus = s.bus := rfl
@[simp] theorem State.startCommand_draws (w : Word) : (s.startCommand w).draws = s.draws := rfl
@[simp] theorem State.startCommand_turns (w : Word) : (s.startCommand w).turns = s.turns := rfl
@[simp] theorem State.startCommand_host (w : Word) : (s.startCommand w).host = s.host := rfl

@[simp] theorem State.setHost_params (h : HostCpu) : (s.setHost h).params = s.params := rfl
@[simp] theorem State.setHost_seq (h : HostCpu) : (s.setHost h).seq = s.seq := rfl
@[simp] theorem State.setHost_cmd (h : HostCpu) : (s.setHost h).cmd = s.cmd := rfl
@[simp] theorem State.setHost_presence (h : HostCpu) : (s.setHost h).presence = s.presence := rfl
@[simp] theorem State.setHost_speed (h : HostCpu) : (s.setHost h).speed = s.speed := rfl
@[simp] theorem State.setHost_result (h : HostCpu) : (s.setHost h).result = s.result := rfl
@[simp] theorem State.setHost_data (h : HostCpu) : (s.setHost h).data = s.data := rfl
@[simp] theorem State.setHost_crc8r (h : HostCpu) : (s.setHost h).crc8r = s.crc8r := rfl
@[simp] theorem State.setHost_crc16r (h : HostCpu) : (s.setHost h).crc16r = s.crc16r := rfl
@[simp] theorem State.setHost_maxdev (h : HostCpu) : (s.setHost h).maxdev = s.maxdev := rfl
@[simp] theorem State.setHost_devcount (h : HostCpu) : (s.setHost h).devcount = s.devcount := rfl
@[simp] theorem State.setHost_mem (h : HostCpu) : (s.setHost h).mem = s.mem := rfl
@[simp] theorem State.setHost_disc (h : HostCpu) : (s.setHost h).disc = s.disc := rfl
@[simp] theorem State.setHost_wire (h : HostCpu) : (s.setHost h).wire = s.wire := rfl
@[simp] theorem State.setHost_past (h : HostCpu) : (s.setHost h).past = s.past := rfl
@[simp] theorem State.setHost_bus (h : HostCpu) : (s.setHost h).bus = s.bus := rfl
@[simp] theorem State.setHost_draws (h : HostCpu) : (s.setHost h).draws = s.draws := rfl
@[simp] theorem State.setHost_turns (h : HostCpu) : (s.setHost h).turns = s.turns := rfl
@[simp] theorem State.setHost_host (h : HostCpu) : (s.setHost h).host = h := rfl

@[simp] theorem State.takeTurn_params : (s.takeTurn).params = s.params := rfl
@[simp] theorem State.takeTurn_seq : (s.takeTurn).seq = s.seq := rfl
@[simp] theorem State.takeTurn_cmd : (s.takeTurn).cmd = s.cmd := rfl
@[simp] theorem State.takeTurn_presence : (s.takeTurn).presence = s.presence := rfl
@[simp] theorem State.takeTurn_speed : (s.takeTurn).speed = s.speed := rfl
@[simp] theorem State.takeTurn_result : (s.takeTurn).result = s.result := rfl
@[simp] theorem State.takeTurn_data : (s.takeTurn).data = s.data := rfl
@[simp] theorem State.takeTurn_crc8r : (s.takeTurn).crc8r = s.crc8r := rfl
@[simp] theorem State.takeTurn_crc16r : (s.takeTurn).crc16r = s.crc16r := rfl
@[simp] theorem State.takeTurn_maxdev : (s.takeTurn).maxdev = s.maxdev := rfl
@[simp] theorem State.takeTurn_devcount : (s.takeTurn).devcount = s.devcount := rfl
@[simp] theorem State.takeTurn_mem : (s.takeTurn).mem = s.mem := rfl
@[simp] theorem State.takeTurn_disc : (s.takeTurn).disc = s.disc := rfl
@[simp] theorem State.takeTurn_wire : (s.takeTurn).wire = s.wire := rfl
@[simp] theorem State.takeTurn_past : (s.takeTurn).past = s.past := rfl
@[simp] theorem State.takeTurn_bus : (s.takeTurn).bus = s.bus := rfl
@[simp] theorem State.takeTurn_draws : (s.takeTurn).draws = s.draws := rfl
@[simp] theorem State.takeTurn_turns : (s.takeTurn).turns = s.turns.tail := rfl
@[simp] theorem State.takeTurn_host : (s.takeTurn).host = s.host := rfl

@[simp] theorem Wire.driveLow_now (w : Wire) : w.driveLow.now = w.now := rfl
@[simp] theorem Wire.driveLow_hist (w : Wire) : w.driveLow.hist = w.hist ++ [.low w.now] := rfl
@[simp] theorem Wire.driveLow_pin (w : Wire) : w.driveLow.pin = w.pin.setOutputDirection := rfl
@[simp] theorem Wire.release_now (w : Wire) : w.release.now = w.now := rfl
@[simp] theorem Wire.release_hist (w : Wire) : w.release.hist = w.hist ++ [.rel w.now] := rfl
@[simp] theorem Wire.release_pin (w : Wire) : w.release.pin = w.pin.setInputDirection := rfl
@[simp] theorem Wire.delay_now (w : Wire) (d : Nat) : (w.delay d).now = w.now + d := rfl
@[simp] theorem Wire.delay_hist (w : Wire) (d : Nat) : (w.delay d).hist = w.hist := rfl
@[simp] theorem Wire.delay_pin (w : Wire) (d : Nat) : (w.delay d).pin = w.pin := rfl
@[simp] theorem Wire.recordSample_now (w : Wire) (v : Bit) : (w.recordSample v).now = w.now := rfl
@[simp] theorem Wire.recordSample_hist (w : Wire) (v : Bit) : (w.recordSample v).hist = w.hist ++ [.smp w.now v] := rfl
@[simp] theorem Wire.recordSample_pin (w : Wire) (v : Bit) : (w.recordSample v).pin = w.pin := rfl
@[simp] theorem Wire.sample_fst (w : Wire) (bus : Bus) : (w.sample bus).1 = bus.answer w.hist w.now := rfl
@[simp] theorem Wire.sample_snd (w : Wire) (bus : Bus) :
    (w.sample bus).2 = w.recordSample (bus.answer w.hist w.now) := rfl
@[simp] theorem Pin.setOutputDirection_latch (p : Pin) : p.setOutputDirection.latch = p.latch := rfl
@[simp] theorem Pin.setInputDirection_latch (p : Pin) : p.setInputDirection.latch = p.latch := rfl
@[simp] theorem Pin.setOutputDirection_pull (p : Pin) : p.setOutputDirection.pull = p.pull := rfl
@[simp] theorem Pin.setInputDirection_pull (p : Pin) : p.setInputDirection.pull = p.pull := rfl
@[simp] theorem Pin.setInputDirection_dir (p : Pin) : p.setInputDirection.dir = .input := rfl
@[simp] theorem Pin.setInputDirection_output (p : Pin) :
    p.setOutputDirection.setInputDirection = p.setInputDirection := rfl
@[simp] theorem Pin.setInputDirection_twice (p : Pin) :
    p.setInputDirection.setInputDirection = p.setInputDirection := rfl
@[simp] theorem Discovery.push_waddr (depth : Nat) (d : Discovery) (i : Fin 64) : (d.push depth i).waddr = d.waddr := by
  unfold Discovery.push
  split <;> rfl
@[simp] theorem Discovery.push_safe (depth : Nat) (d : Discovery) (i : Fin 64) : (d.push depth i).safe = d.safe := by
  unfold Discovery.push
  split <;> rfl
/-- A push onto a stack with room (10_state R38). -/
theorem Discovery.push_of_lt {depth : Nat} {d : Discovery} (i : Fin 64) (h : d.sp < depth) :
    d.push depth i = { d with stk := i :: d.stk } := if_pos h
/-- A push onto a full stack (notes/assumptions/29.md). -/
theorem Discovery.push_of_le {depth : Nat} {d : Discovery} (i : Fin 64) (h : depth ≤ d.sp) : d.push depth i = d :=
  if_neg (Nat.not_lt.2 h)
@[simp] theorem Discovery.record_stk (d : Discovery) (i : Fin 64) (b : Bit) : (d.record i b).stk = d.stk := rfl
@[simp] theorem Discovery.record_safe (d : Discovery) (i : Fin 64) (b : Bit) : (d.record i b).safe = d.safe := rfl
@[simp] theorem Discovery.record_waddr (d : Discovery) (i : Fin 64) (b : Bit) :
    (d.record i b).waddr = setAddressBit d.waddr i b := rfl

end Sys2Proof.Machine
end

