-- ==== Sys2Proof/Laws/Memory.lean ====
section
/-!
SUPPORT. The laws of memory: read after write, other offsets untouched, and the canonical form kept by every operation.
-/

namespace Sys2Proof.Machine

/-- A key reads back what was listed at it, and every other key reads as before. -/
theorem cellsRead_cellsWrite {β : Type} (l : List (Nat × β)) (a c : Nat) (v : β) :
    cellsRead (cellsWrite l a v) c = if c = a then some v else cellsRead l c := by
  induction l with
  | nil => simp [cellsRead, cellsWrite, eq_comm]
  | cons d rest ih =>
    simp only [cellsWrite]
    split
    · simp [cellsRead, eq_comm]
    · split
      · rename_i h1 h2
        by_cases hc : c = a <;> simp_all [cellsRead, eq_comm]
      · rename_i h1 h2
        by_cases hc : c = a
        · subst hc; simp [cellsRead, h2, ih]
        · simp [cellsRead, ih, hc]

theorem cellsWrite_mem {β : Type} {l : List (Nat × β)} {a : Nat} {v : β} {c : Nat × β}
    (h : c ∈ cellsWrite l a v) : c = (a, v) ∨ c ∈ l := by
  induction l with
  | nil => simpa [cellsWrite] using h
  | cons d rest ih =>
    simp only [cellsWrite] at h
    split at h
    · simpa using h
    · split at h
      · rcases List.mem_cons.1 h with h | h
        · exact .inl h
        · exact .inr (List.mem_cons_of_mem _ h)
      · rcases List.mem_cons.1 h with h | h
        · exact .inr (h ▸ List.mem_cons_self)
        · exact (ih h).imp_right (List.mem_cons_of_mem _)

/-- Listing a value keeps the keys strictly rising. -/
theorem cellsWrite_rising {β : Type} {l : List (Nat × β)} (a : Nat) (v : β)
    (h : l.Pairwise fun c d => c.1 < d.1) : (cellsWrite l a v).Pairwise fun c d => c.1 < d.1 := by
  induction l with
  | nil => simp [cellsWrite]
  | cons d rest ih =>
    obtain ⟨hd, hr⟩ := List.pairwise_cons.1 h
    simp only [cellsWrite]
    split
    · rename_i hlt
      refine List.pairwise_cons.2 ⟨fun c hc => ?_, h⟩
      rcases List.mem_cons.1 hc with rfl | hc
      · exact hlt
      · exact hlt.trans (hd c hc)
    · split
      · rename_i _ heq
        exact List.pairwise_cons.2 ⟨fun c hc => heq ▸ hd c hc, hr⟩
      · rename_i hnlt hne
        refine List.pairwise_cons.2 ⟨fun c hc => ?_, ih hr⟩
        rcases cellsWrite_mem hc with rfl | hc
        · exact lt_of_le_of_ne (Nat.le_of_not_lt hnlt) hne
        · exact hd c hc

theorem Memory.read_write (m : Memory) (a c : Nat) (b : Byte) :
    Memory.read (Memory.write m a b) c = if c = a then some b else Memory.read m c :=
  cellsRead_cellsWrite m a c b

@[simp] theorem Memory.read_nil (a : Nat) : Memory.read [] a = none := rfl

/-- Stored bytes read back; every other offset reads as before. -/
theorem Memory.read_writeBytes (m : Memory) (a c : Nat) (bs : List Byte) :
    Memory.read (Memory.writeBytes m a bs) c =
      if a ≤ c ∧ c < a + bs.length then bs[c - a]? else Memory.read m c := by
  induction bs generalizing m a with
  | nil => simp [Memory.writeBytes, show ¬ (a ≤ c ∧ c < a) by omega]
  | cons b bs ih =>
    simp only [Memory.writeBytes, ih, Memory.read_write, List.length_cons]
    by_cases h1 : a + 1 ≤ c ∧ c < a + 1 + bs.length
    · rw [if_pos h1, if_pos (by omega), show c - a = (c - (a + 1)) + 1 by omega, List.getElem?_cons_succ]
    · rw [if_neg h1]
      by_cases h2 : c = a
      · subst h2; simp
      · rw [if_neg h2, if_neg (by omega)]

theorem Memory.read_writeBytes_of_lt (m : Memory) {a c : Nat} (bs : List Byte) (h : c < a ∨ a + bs.length ≤ c) :
    Memory.read (Memory.writeBytes m a bs) c = Memory.read m c := by
  rw [Memory.read_writeBytes, if_neg (by omega)]

/-- A cleared offset holds no value; every other offset reads as before. -/
theorem Memory.read_clear (m : Memory) (lo hi c : Nat) :
    Memory.read (Memory.clear m lo hi) c = if lo ≤ c ∧ c < hi then none else Memory.read m c := by
  unfold Memory.read Memory.clear
  induction m with
  | nil => simp [cellsRead]
  | cons d rest ih =>
    by_cases hd : lo ≤ d.1 ∧ d.1 < hi
    · rw [List.filter_cons_of_neg (by simp; omega), ih]
      split
      · rfl
      · simp [cellsRead, show d.1 ≠ c by rintro rfl; contradiction]
    · rw [List.filter_cons_of_pos (by simp; omega)]
      simp only [cellsRead, ih]
      by_cases hc : d.1 = c
      · subst hc; simp [hd]
      · simp [hc]

theorem Memory.wf_write {m : Memory} (a : Nat) (b : Byte) (h : Memory.wf m) : Memory.wf (Memory.write m a b) :=
  cellsWrite_rising a b h

theorem Memory.wf_writeBytes {m : Memory} (a : Nat) (bs : List Byte) (h : Memory.wf m) :
    Memory.wf (Memory.writeBytes m a bs) := by
  induction bs generalizing m a with
  | nil => exact h
  | cons b bs ih => exact ih _ (Memory.wf_write a b h)

theorem Memory.wf_clear {m : Memory} (lo hi : Nat) (h : Memory.wf m) : Memory.wf (Memory.clear m lo hi) :=
  h.filter _

theorem Memory.wf_reset : Memory.wf State.reset.mem := List.Pairwise.nil

theorem Memory.mem_writeBytes {m : Memory} {a : Nat} {bs : List Byte} {c : Host.Cell}
    (h : c ∈ Memory.writeBytes m a bs) : (a ≤ c.1 ∧ c.1 < a + bs.length) ∨ c ∈ m := by
  induction bs generalizing m a with
  | nil => exact .inr h
  | cons b bs ih =>
    rcases ih h with h | h
    · exact .inl ⟨by omega, by simp; omega⟩
    · rcases cellsWrite_mem h with rfl | h
      · exact .inl ⟨by simp, by simp⟩
      · exact .inr h

theorem Memory.mem_clear {m : Memory} {lo hi : Nat} {c : Host.Cell} :
    c ∈ Memory.clear m lo hi ↔ c ∈ m ∧ ¬ (lo ≤ c.1 ∧ c.1 < hi) := by
  simp only [Memory.clear, List.mem_filter, Bool.not_eq_true', Bool.and_eq_false_iff, decide_eq_false_iff_not]
  constructor
  · rintro ⟨hm, h⟩
    exact ⟨hm, by omega⟩
  · rintro ⟨hm, h⟩
    exact ⟨hm, by omega⟩

/-- A register of the host reads back what was written; the others read as before. -/
theorem HostCpu.reg_setReg (h : HostCpu) (r q : Nat) (v : Word) :
    (h.setReg r v).reg q = if q = r then v else h.reg q := by
  unfold HostCpu.reg HostCpu.setReg
  rw [cellsRead_cellsWrite]
  split <;> rfl

end Sys2Proof.Machine
end

