-- ==== Sys2Proof/Laws/Sequences.lean ====
section
/-!
SUPPORT. What each line sequence does to the bus side: its bit, its time, its history and the pin, once for each sequence.
-/

namespace Sys2Proof.Machine

/-- Histories join where the line is released. -/
theorem legalHistory_append {h1 : List LineEvent} (h2 : List LineEvent) {low : Bool}
    (h : legalHistory low h1 = true) (hh : legalHistory false h2 = true) : legalHistory low (h1 ++ h2) = true := by
  induction h1 generalizing low with
  | nil => cases low <;> simp_all [legalHistory]
  | cons e rest ih => cases e <;> cases low <;> simp_all [legalHistory]

/-- `ResetSeq` in one piece (40_bus_transport R125). -/
theorem Wire.resetSeq_eq (bus : Bus) (P : TimingProfile) (w : Wire) :
    w.resetSeq bus P =
      let t := w.now + P.resetPreDelay
      let h := w.hist ++ [.low t, .rel (t + P.resetLowDuration)]
      let v := bus.answer h (t + P.resetLowDuration + P.presenceSampleDelay)
      (!v, { pin := w.pin.setInputDirection, now := w.now + resetTimeOf P,
             hist := h ++ [.smp (t + P.resetLowDuration + P.presenceSampleDelay) v] }) := by
  simp [Wire.resetSeq, Wire.sample, Wire.recordSample, Wire.delay, Wire.driveLow, Wire.release, resetTimeOf,
    Nat.add_assoc]

/-- `WriteBitSeq` in one piece (R126). -/
theorem Wire.writeBitSeq_eq (P : TimingProfile) (b : Bit) (w : Wire) :
    w.writeBitSeq P b =
      { pin := w.pin.setInputDirection, now := w.now + writeSlotTime P b,
        hist := w.hist ++ [.low w.now, .rel (w.now + writePulse P b)] } := by
  cases b <;>
    simp [Wire.writeBitSeq, Wire.delay, Wire.driveLow, Wire.release, writeSlotTime, writePulse, Nat.add_assoc]

/-- `ReadBitSeq` in one piece (R127). -/
theorem Wire.readBitSeq_eq (bus : Bus) (P : TimingProfile) (w : Wire) :
    w.readBitSeq bus P =
      let h := w.hist ++ [.low w.now, .rel (w.now + P.writeRecoveryLow)]
      let v := bus.answer h (w.now + readSampleTime P)
      (v, { pin := w.pin.setInputDirection, now := w.now + readSlotTime P,
            hist := h ++ [.smp (w.now + readSampleTime P) v] }) := by
  simp [Wire.readBitSeq, Wire.sample, Wire.recordSample, Wire.delay, Wire.driveLow, Wire.release, readSampleTime,
    readSlotTime, Nat.add_assoc]

/-- Write slots in one piece (R128): there is at least one, so the pin ends released. -/
theorem Wire.writeBits_eq (P : TimingProfile) (b : Bit) (bs : List Bit) (w : Wire) :
    w.writeBits P (b :: bs) =
      { pin := w.pin.setInputDirection, now := w.now + writeTime P (b :: bs),
        hist := w.hist ++ writeTrace P (b :: bs) w.now } := by
  induction bs generalizing b w with
  | nil => simp [Wire.writeBits, Wire.writeBitSeq_eq, writeTime, writeTrace]
  | cons c cs ih =>
    rw [Wire.writeBits, ih, Wire.writeBitSeq_eq]
    simp [writeTime, writeTrace, Nat.add_assoc]

theorem bitsOfByte_cons (v : Byte) :
    bitsOfByte v = [v.getLsbD 0, v.getLsbD 1, v.getLsbD 2, v.getLsbD 3, v.getLsbD 4, v.getLsbD 5, v.getLsbD 6,
      v.getLsbD 7] := rfl

/-- `WriteByteSeq` in one piece (R128). -/
theorem Wire.writeByteSeq_eq (P : TimingProfile) (v : Byte) (w : Wire) :
    w.writeByteSeq P v =
      { pin := w.pin.setInputDirection, now := w.now + writeTime P (bitsOfByte v),
        hist := w.hist ++ writeTrace P (bitsOfByte v) w.now } := by
  rw [Wire.writeByteSeq, bitsOfByte_cons, Wire.writeBits_eq]

theorem writeTrace_append (P : TimingProfile) (bs cs : List Bit) (t : Nat) :
    writeTrace P (bs ++ cs) t = writeTrace P bs t ++ writeTrace P cs (t + writeTime P bs) := by
  induction bs generalizing t with
  | nil => simp [writeTrace, writeTime]
  | cons b bs ih => simp [writeTrace, writeTime, ih, Nat.add_assoc]

theorem writeTime_append (P : TimingProfile) (bs cs : List Bit) :
    writeTime P (bs ++ cs) = writeTime P bs + writeTime P cs := by
  induction bs with
  | nil => simp [writeTime]
  | cons b bs ih => simp [writeTime, ih, Nat.add_assoc]

/-- Bytes in order in one piece (20_memory R76). -/
theorem Wire.writeBytesSeq_eq (P : TimingProfile) (v : Byte) (vs : List Byte) (w : Wire) :
    w.writeBytesSeq P (v :: vs) =
      { pin := w.pin.setInputDirection, now := w.now + writeTime P (bitsOfBytes (v :: vs)),
        hist := w.hist ++ writeTrace P (bitsOfBytes (v :: vs)) w.now } := by
  induction vs generalizing v w with
  | nil => simp [Wire.writeBytesSeq, Wire.writeByteSeq_eq, bitsOfBytes]
  | cons u us ih =>
    rw [Wire.writeBytesSeq, ih, Wire.writeByteSeq_eq]
    simp [bitsOfBytes, writeTime_append, writeTrace_append, Nat.add_assoc]

/-- A touch slot that sends 1 is a read slot, one that sends 0 a write slot (R130). -/
theorem Wire.touchBitSeq_true (bus : Bus) (P : TimingProfile) (w : Wire) :
    w.touchBitSeq bus P true = w.readBitSeq bus P := rfl

/-- One touch slot in one piece (R130). -/
theorem Wire.touchBitSeq_eq (bus : Bus) (P : TimingProfile) (b : Bit) (w : Wire) :
    w.touchBitSeq bus P b =
      let v := b && bus.answer (w.hist ++ [.low w.now, .rel (w.now + P.writeRecoveryLow)]) (w.now + readSampleTime P)
      (v, { pin := w.pin.setInputDirection, now := w.now + touchSlotTime P b,
            hist := w.hist ++ touchSlotTrace P (b, v) w.now }) := by
  cases b <;>
    simp [Wire.touchBitSeq, Wire.readBitSeq_eq, Wire.writeBitSeq_eq, touchSlotTrace, touchSlotTime, writePulse]

/-- The touch slots a list of bits makes, with what each senses: their trace and time, and their answers (R130). There is
at least one, so the pin ends released. -/
theorem Wire.touchBits_eq (bus : Bus) (P : TimingProfile) (b : Bit) (bs : List Bit) (acc : Byte) (w : Wire) :
    ∃ slots : List TouchSlot, slots.map Prod.fst = b :: bs ∧ touchAnswered bus P slots w.hist w.now ∧
      w.touchBits bus P (b :: bs) acc =
        ((slots.map Prod.snd).foldl shiftIn acc,
          { pin := w.pin.setInputDirection, now := w.now + touchTime P slots,
            hist := w.hist ++ touchTrace P slots w.now }) := by
  induction bs generalizing b acc w with
  | nil =>
    exact ⟨[(b, (w.touchBitSeq bus P b).1)], rfl, ⟨by simp [Wire.touchBitSeq_eq], trivial⟩,
      by simp [Wire.touchBits, Wire.touchBitSeq_eq, touchTime, touchTrace]⟩
  | cons c cs ih =>
    obtain ⟨slots, h1, h2, h3⟩ := ih c (shiftIn acc (w.touchBitSeq bus P b).1) (w.touchBitSeq bus P b).2
    refine ⟨(b, (w.touchBitSeq bus P b).1) :: slots, by simp [h1], ⟨by simp [Wire.touchBitSeq_eq], ?_⟩, ?_⟩
    · simpa [Wire.touchBitSeq_eq] using h2
    · rw [Wire.touchBits, h3]
      simp [Wire.touchBitSeq_eq, touchTime, touchTrace, Nat.add_assoc]

/-- Read slots are the touch slots of as many ones (R129, R130). -/
theorem Wire.readBits_eq_touchBits (bus : Bus) (P : TimingProfile) (n : Nat) (acc : Byte) (w : Wire) :
    w.readBits bus P n acc = w.touchBits bus P (List.replicate n true) acc := by
  induction n generalizing acc w with
  | zero => rfl
  | succ n ih => rw [Wire.readBits, ih]; rfl

/-- What every line sequence does, and what any run of them does: the pin ends released with its latch and pull as they were,
time does not go back, and the history grows by events the OWC can make, in order of time. -/
structure Wire.Ran (w w' : Wire) : Prop where
  pin : w'.pin = w.pin.setInputDirection
  later : w.now ≤ w'.now
  hist : ∃ evs, w'.hist = w.hist ++ evs ∧ legalHistory false evs = true ∧ timesRise evs ∧
    ∀ e ∈ evs, w.now ≤ eventTime e ∧ eventTime e ≤ w'.now

theorem Wire.Ran.trans {w w' w'' : Wire} (h : w.Ran w') (k : w'.Ran w'') : w.Ran w'' := by
  obtain ⟨e1, h1, l1, t1, b1⟩ := h.hist
  obtain ⟨e2, h2, l2, t2, b2⟩ := k.hist
  refine ⟨by rw [k.pin, h.pin]; rfl, h.later.trans k.later, e1 ++ e2, by rw [h2, h1, List.append_assoc],
    legalHistory_append e2 l1 l2, ?_, ?_⟩
  · exact List.pairwise_append.2 ⟨t1, t2, fun a ha b hb => (b1 a ha).2.trans (b2 b hb).1⟩
  · intro e he
    rcases List.mem_append.1 he with he | he
    · exact ⟨(b1 e he).1, (b1 e he).2.trans k.later⟩
    · exact ⟨h.later.trans (b2 e he).1, (b2 e he).2⟩

theorem Wire.resetSeq_ran (bus : Bus) (P : TimingProfile) (w : Wire) : w.Ran (w.resetSeq bus P).2 := by
  rw [Wire.resetSeq_eq]
  refine ⟨rfl, by simp, _, List.append_assoc _ _ _, by simp [legalHistory], by simp [timesRise, eventTime]; omega, ?_⟩
  simp [eventTime, resetTimeOf]
  omega

theorem Wire.writeBitSeq_ran (P : TimingProfile) (b : Bit) (w : Wire) : w.Ran (w.writeBitSeq P b) := by
  rw [Wire.writeBitSeq_eq]
  refine ⟨rfl, by simp, _, rfl, by simp [legalHistory], by simp [timesRise, eventTime], ?_⟩
  cases b <;> simp [eventTime, writePulse, writeSlotTime]

theorem Wire.readBitSeq_ran (bus : Bus) (P : TimingProfile) (w : Wire) : w.Ran (w.readBitSeq bus P).2 := by
  rw [Wire.readBitSeq_eq]
  refine ⟨rfl, by simp, _, List.append_assoc _ _ _, by simp [legalHistory],
    by simp [timesRise, eventTime, readSampleTime], ?_⟩
  simp [eventTime, readSampleTime, readSlotTime]
  omega

theorem Wire.touchBitSeq_ran (bus : Bus) (P : TimingProfile) (b : Bit) (w : Wire) :
    w.Ran (w.touchBitSeq bus P b).2 := by
  cases b
  · exact w.writeBitSeq_ran P false
  · exact w.readBitSeq_ran bus P

theorem Wire.writeBits_ran (P : TimingProfile) (bs : List Bit) {w w' : Wire} (h : w.Ran w') :
    w.Ran (w'.writeBits P bs) := by
  induction bs generalizing w' with
  | nil => exact h
  | cons b bs ih => exact ih (h.trans (w'.writeBitSeq_ran P b))

theorem Wire.writeByteSeq_ran (P : TimingProfile) (v : Byte) (w : Wire) : w.Ran (w.writeByteSeq P v) := by
  rw [Wire.writeByteSeq, bitsOfByte_cons, Wire.writeBits]
  exact Wire.writeBits_ran P _ (w.writeBitSeq_ran P _)

theorem Wire.writeBytesSeq_ran (P : TimingProfile) (vs : List Byte) {w w' : Wire} (h : w.Ran w') :
    w.Ran (w'.writeBytesSeq P vs) := by
  induction vs generalizing w' with
  | nil => exact h
  | cons v vs ih => exact ih (h.trans (w'.writeByteSeq_ran P v))

theorem Wire.touchBits_ran (bus : Bus) (P : TimingProfile) (bs : List Bit) (acc : Byte) {w w' : Wire}
    (h : w.Ran w') : w.Ran (w'.touchBits bus P bs acc).2 := by
  induction bs generalizing acc w' with
  | nil => exact h
  | cons b bs ih => exact ih _ (h.trans (w'.touchBitSeq_ran bus P b))

theorem Wire.touchByteSeq_ran (bus : Bus) (P : TimingProfile) (v : Byte) (w : Wire) :
    w.Ran (w.touchByteSeq bus P v).2 := by
  rw [Wire.touchByteSeq, bitsOfByte_cons, Wire.touchBits]
  exact Wire.touchBits_ran bus P _ _ (w.touchBitSeq_ran bus P _)

theorem Wire.readByteSeq_ran (bus : Bus) (P : TimingProfile) (w : Wire) : w.Ran (w.readByteSeq bus P).2 := by
  rw [Wire.readByteSeq, Wire.readBits_eq_touchBits, List.replicate_succ, Wire.touchBits]
  exact Wire.touchBits_ran bus P _ _ (w.touchBitSeq_ran bus P _)

/-- A block of bytes touched: as many bytes come back, and the bus side runs if there is a byte. -/
theorem Wire.touchBytesSeq_ran (bus : Bus) (P : TimingProfile) (vs : List Byte) {w w' : Wire} (h : w.Ran w') :
    w.Ran (w'.touchBytesSeq bus P vs).2 := by
  induction vs generalizing w' with
  | nil => exact h
  | cons v vs ih => exact ih (h.trans (w'.touchByteSeq_ran bus P v))

@[simp] theorem Wire.touchBytesSeq_length (bus : Bus) (P : TimingProfile) (vs : List Byte) (w : Wire) :
    (w.touchBytesSeq bus P vs).1.length = vs.length := by
  induction vs generalizing w with
  | nil => rfl
  | cons v vs ih => simp [Wire.touchBytesSeq, ih]

/-- What `State.resetSeq` does: presence, and a run of the bus side (R125, 10_state R25). -/
theorem State.resetSeq_eq (s : State) :
    s.resetSeq = ((s.wire.resetSeq s.bus s.profile).1,
      (s.setWire (s.wire.resetSeq s.bus s.profile).2).setPresence (s.wire.resetSeq s.bus s.profile).1) := rfl

end Sys2Proof.Machine
end

