-- ==== Sys2Proof/Laws/Commands.lean ====
section
/-!
SUPPORT. What a command can do: its operand from `BUF`, the shared command over `BUF`, the search pass, and what every command
leaves alone.
-/

namespace Sys2Proof.Machine

/-- `BUF[k .. k+n-1]` is read exactly when all of it is defined. -/
theorem State.bufOperand_eq_ok (s : State) (k n : Nat) (bs : List Byte) :
    s.bufOperand k n = .ok bs ↔ bs.length = n ∧ ∀ j, j < n → s.bufByte (k + j) = bs[j]? := by
  induction n generalizing k bs with
  | zero => simp [State.bufOperand, eq_comm (a := ([] : List Byte)), List.length_eq_zero_iff]
  | succ n ih =>
    rw [State.bufOperand]
    cases hb : s.bufByte k with
    | none =>
      refine ⟨fun h => (nomatch h), fun ⟨hl, h⟩ => ?_⟩
      have h0 := h 0 (Nat.succ_pos n)
      rw [Nat.add_zero, hb, eq_comm, List.getElem?_eq_none_iff] at h0
      omega
    | some b =>
      cases hr : s.bufOperand (k + 1) n with
      | error j =>
        refine ⟨fun h => (nomatch h), fun ⟨hl, h⟩ => ?_⟩
        have : s.bufOperand (k + 1) n = .ok bs.tail := (ih (k + 1) bs.tail).2
          ⟨by simp [hl], fun j hj => by
            rw [show k + 1 + j = k + (j + 1) by omega, h (j + 1) (by omega), List.getElem?_tail]⟩
        rw [hr] at this
        exact (nomatch this)
      | ok cs =>
        obtain ⟨hl, hc⟩ := (ih (k + 1) cs).1 hr
        constructor
        · intro h
          cases h
          refine ⟨by simp [hl], fun j hj => ?_⟩
          cases j with
          | zero => simpa using hb
          | succ j => rw [List.getElem?_cons_succ, ← hc j (by omega), show k + 1 + j = k + (j + 1) by omega]
        · rintro ⟨hl', h⟩
          have h0 := h 0 (Nat.succ_pos n)
          cases bs with
          | nil => simp at hl'
          | cons a as =>
            have : s.bufOperand (k + 1) n = .ok as := (ih (k + 1) as).2 ⟨by simpa using hl', fun j hj => by
              rw [show k + 1 + j = k + (j + 1) by omega, h (j + 1) (by omega), List.getElem?_cons_succ]⟩
            rw [hr] at this
            cases this
            simp [hb] at h0
            simp [h0]

/-- The index reported is the lowest undefined one. -/
theorem State.bufOperand_error {s : State} {k n j : Nat} (h : s.bufOperand k n = .error j) :
    k ≤ j ∧ j < k + n ∧ s.bufByte j = none ∧ ∀ i, k ≤ i → i < j → (s.bufByte i).isSome := by
  induction n generalizing k with
  | zero => exact (nomatch h)
  | succ n ih =>
    rw [State.bufOperand] at h
    cases hb : s.bufByte k with
    | none =>
      simp only [hb] at h
      cases h
      exact ⟨le_rfl, by omega, hb, fun i h1 h2 => by omega⟩
    | some b =>
      simp only [hb] at h
      cases hr : s.bufOperand (k + 1) n with
      | ok cs => simp [hr] at h
      | error i =>
        simp only [hr] at h
        cases h
        obtain ⟨h1, h2, h3, h4⟩ := ih hr
        refine ⟨by omega, by omega, h3, fun i hi hj => ?_⟩
        rcases Nat.eq_or_lt_of_le hi with rfl | hi
        · simp [hb]
        · exact h4 i hi hj

/-- Bytes stored at the start of `BUF` are what it holds (10_state R34). -/
theorem State.storeBytes_bufHolds (s : State) (bs : List Byte) : (s.storeBytes bufBase bs).bufHolds bs := by
  intro k hk
  simp only [State.bufByte, State.storeBytes, Memory.read_writeBytes]
  rw [if_pos (by omega), Nat.add_sub_cancel_left]

/-- The operand of a command whose bytes are defined. -/
theorem State.bufOperand_of_holds {s : State} {bs : List Byte} (h : s.bufHolds bs) :
    s.bufOperand 0 bs.length = .ok bs :=
  (s.bufOperand_eq_ok 0 bs.length bs).2 ⟨rfl, fun j hj => by rw [Nat.zero_add]; exact h j hj⟩

/-- Everything a command over `BUF` can do (60_exceptions R269). -/
theorem bufCommand_cases (legal : Bool) (n : Nat) (run : List Byte → State) (s : State) :
    (legal = false ∧ bufCommand legal n run s = .next s.badCommand) ∨
    (legal = true ∧ ∃ j, j < n ∧ s.bufByte j = none ∧ (∀ i, i < j → (s.bufByte i).isSome) ∧
      bufCommand legal n run s = .fault (.undefinedRead (.command s.cmd j))) ∨
    (legal = true ∧ ∃ bs, bs.length = n ∧ s.bufHolds bs ∧ bufCommand legal n run s = .next (run bs)) := by
  unfold bufCommand
  cases legal
  · exact .inl ⟨rfl, rfl⟩
  · cases h : s.bufOperand 0 n with
    | error j =>
      obtain ⟨_, h2, h3, h4⟩ := State.bufOperand_error h
      exact .inr (.inl ⟨rfl, j, by omega, h3, fun i hi => h4 i (Nat.zero_le i) hi, rfl⟩)
    | ok bs =>
      obtain ⟨h1, h2⟩ := (s.bufOperand_eq_ok 0 n bs).1 h
      refine .inr (.inr ⟨rfl, bs, h1, fun k hk => ?_, rfl⟩)
      rw [← h2 k (by omega), Nat.zero_add]

/-- A command over `BUF` runs when its `LEN` is legal and its bytes are defined. -/
theorem bufCommand_runs {s : State} {bs : List Byte} (run : List Byte → State) (h : s.bufHolds bs) :
    bufCommand true bs.length run s = .next (run bs) := by
  simp [bufCommand, State.bufOperand_of_holds h]

/-- What a part of a search pass leaves alone. -/
structure Searched (s t : State) : Prop where
  params : t.params = s.params
  cmd : t.cmd = s.cmd
  speed : t.speed = s.speed
  data : t.data = s.data
  crc8r : t.crc8r = s.crc8r
  crc16r : t.crc16r = s.crc16r
  maxdev : t.maxdev = s.maxdev
  past : t.past = s.past
  bus : t.bus = s.bus
  draws : t.draws = s.draws
  turns : t.turns = s.turns
  host : t.host = s.host

theorem Searched.trans {s t u : State} (h : Searched s t) (k : Searched t u) : Searched s u :=
  ⟨k.params.trans h.params, k.cmd.trans h.cmd, k.speed.trans h.speed, k.data.trans h.data, k.crc8r.trans h.crc8r, k.crc16r.trans h.crc16r,
    k.maxdev.trans h.maxdev, k.past.trans h.past, k.bus.trans h.bus, k.draws.trans h.draws, k.turns.trans h.turns,
    k.host.trans h.host⟩

theorem chooseDirection_safe (depth : Nat) (i : Fin 64) (d : Discovery) :
    (chooseDirection depth i d).2.safe = d.safe := by
  unfold chooseDirection
  split
  · exact Discovery.push_safe depth d i
  · split
    · rfl
    · split
      · exact Discovery.push_safe depth d i
      · rfl

theorem walkDirection_safe (depth : Nat) (i : Fin 64) (b bc : Bit) (d : Discovery) :
    (walkDirection depth i b bc d).2.safe = d.safe := by
  unfold walkDirection
  split
  · rfl
  · exact chooseDirection_safe depth i d

/-- A walk runs the bus side and leaves `SAFE` alone (41_discovery R181). -/
theorem walkBits_ran (depth : Nat) (bus : Bus) (P : TimingProfile) (is : List (Fin 64)) (d : Discovery) {w w' : Wire}
    (h : w.Ran w') : w.Ran (walkBits depth bus P is d w').wire ∧
    (walkBits depth bus P is d w').disc.safe = d.safe := by
  induction is generalizing d w' with
  | nil => exact ⟨h, rfl⟩
  | cons i is ih =>
    have h2 := (h.trans (w'.readBitSeq_ran bus P)).trans ((w'.readBitSeq bus P).2.readBitSeq_ran bus P)
    simp only [walkBits]
    split
    · exact ⟨h2, rfl⟩
    · obtain ⟨k1, k2⟩ := ih ((walkDirection depth i (w'.readBitSeq bus P).1
          ((w'.readBitSeq bus P).2.readBitSeq bus P).1 d).2.record i (walkDirection depth i (w'.readBitSeq bus P).1
          ((w'.readBitSeq bus P).2.readBitSeq bus P).1 d).1) (h2.trans (Wire.writeBitSeq_ran P _ _))
      exact ⟨k1, k2.trans (walkDirection_safe _ _ _ _ _)⟩

/-- A walk changes the bus side, the presence bit and the engine, and nothing else (R181). -/
theorem searchWalk_eq (s : State) :
    ∃ w p d, (searchWalk s).2 = { s with wire := w, presence := p, disc := d } ∧ s.wire.Ran w ∧
      d.safe = s.disc.safe := by
  have hr := s.wire.resetSeq_ran s.bus s.profile
  unfold searchWalk
  by_cases hp : s.resetSeq.1 = true
  · rw [if_pos hp]
    obtain ⟨h1, h2⟩ := walkBits_ran s.params.stackDepth s.bus s.profile (bitPositions s.params.addrBits) s.disc
      (hr.trans (Wire.writeByteSeq_ran s.profile searchByte _))
    exact ⟨_, _, _, rfl, h1, h2⟩
  · rw [if_neg hp]
    exact ⟨_, _, _, rfl, hr, rfl⟩

theorem searchWalk_searched (s : State) : Searched s (searchWalk s).2 := by
  obtain ⟨w, p, d, h, -⟩ := searchWalk_eq s
  rw [h]
  constructor <;> rfl

/-- Every pass of at least one walk ends idle, with the stack empty and one of its four results, after a run of the bus
side; `RES`, `DEVCOUNT`, presence and the engine aside it leaves the state alone (R180, R185, 10_state R38). -/
theorem searchLoop_spec (n : Nat) (s : State) :
    Searched s (searchLoop (n + 1) s) ∧ s.wire.Ran (searchLoop (n + 1) s).wire ∧ (searchLoop (n + 1) s).seq = .idle ∧
      (searchLoop (n + 1) s).disc.stk = [] ∧
      (searchLoop (n + 1) s).result ∈ [.ok, .noPresence, .protocolViolation, .deviceLimit] := by
  induction n generalizing s with
  | zero =>
    obtain ⟨w, p, d, h, hw, -⟩ := searchWalk_eq s
    rw [searchLoop]
    rcases hs : searchWalk s with ⟨r, s1⟩
    rw [hs] at h
    obtain rfl : s1 = _ := h
    cases r
    · dsimp only
      split
      · exact ⟨by constructor <;> rfl, hw, rfl, rfl, by simp [endPass]⟩
      · split <;> exact ⟨by constructor <;> rfl, hw, rfl, rfl, by simp [endPass, searchLoop]⟩
    · exact ⟨by constructor <;> rfl, hw, rfl, rfl, by simp [endPass]⟩
    · exact ⟨by constructor <;> rfl, hw, rfl, rfl, by simp [endPass]⟩
  | succ n ih =>
    obtain ⟨w, p, d, h, hw, -⟩ := searchWalk_eq s
    rw [searchLoop]
    rcases hs : searchWalk s with ⟨r, s1⟩
    rw [hs] at h
    obtain rfl : s1 = _ := h
    cases r
    · dsimp only
      split
      · exact ⟨by constructor <;> rfl, hw, rfl, rfl, by simp [endPass]⟩
      · split
        · exact ⟨by constructor <;> rfl, hw, rfl, rfl, by simp [endPass]⟩
        · obtain ⟨k1, k2, k3, k4, k5⟩ := ih (countWalk (appendAddress { s with wire := w, presence := p, disc := d }))
          exact ⟨Searched.trans (by constructor <;> rfl) k1, hw.trans k2, k3, k4, k5⟩
    · exact ⟨by constructor <;> rfl, hw, rfl, rfl, by simp [endPass]⟩
    · exact ⟨by constructor <;> rfl, hw, rfl, rfl, by simp [endPass]⟩

/-- What no command changes: the command word, `MAXDEV`, the earlier histories, and everything of the bus and the host. -/
structure Kept (s t : State) : Prop where
  params : t.params = s.params
  cmd : t.cmd = s.cmd
  maxdev : t.maxdev = s.maxdev
  past : t.past = s.past
  bus : t.bus = s.bus
  draws : t.draws = s.draws
  turns : t.turns = s.turns
  host : t.host = s.host

theorem bufCommand_kept {legal : Bool} {n : Nat} {run : List Byte → State} {s t : State}
    (hrun : ∀ bs, Kept s (run bs)) (h : bufCommand legal n run s = .next t) : Kept s t := by
  rcases bufCommand_cases legal n run s with ⟨-, hb⟩ | ⟨-, j, -, -, -, hb⟩ | ⟨-, bs, -, -, hb⟩
  · rw [hb] at h
    cases h
    constructor <;> rfl
  · rw [hb] at h
    exact (nomatch h)
  · rw [hb] at h
    cases h
    exact hrun bs

end Sys2Proof.Machine
end

