-- ==== Sys2Proof/Laws/Step.lean ====
section
/-!
SUPPORT. What a host access, a host instruction and a step can do, once each.
-/

namespace Sys2Proof.Machine

/-- Everything a host access can do (60_exceptions R269, 20_memory R61, R69). -/
theorem hostAccess_cases (a : Access) (s : State) :
    (a.malformed = true ∧ hostAccess a s = .fault (.hostAccess a.off a.width)) ∨
    (a.malformed = false ∧ s.seq = .busy ∧ a.kind = .read ∧ a.off = statusOffset ∧
      hostAccess a s = .next ({ s with draws := s.draws + 1 }, busyStatusWord (Config.busyStatus s.draws))) ∨
    (a.malformed = false ∧ s.seq = .busy ∧ ¬ (a.kind = .read ∧ a.off = statusOffset) ∧
      hostAccess a s = .fault (.busyAccess a.off a.kind)) ∨
    (a.malformed = false ∧ s.seq = .idle ∧ a.kind = .read ∧ ∃ w, s.readReg a.off = some w ∧
      hostAccess a s = .next (s, w)) ∨
    (a.malformed = false ∧ s.seq = .idle ∧ a.kind = .read ∧ s.readReg a.off = none ∧
      hostAccess a s = .fault (.undefinedRead (.hostRead a.off))) ∨
    (a.malformed = false ∧ s.seq = .idle ∧ a.kind = .write ∧
      hostAccess a s = .next (s.writeReg a.off a.value, 0)) := by
  unfold hostAccess
  cases hm : a.malformed
  · cases hs : s.seq
    · cases hk : a.kind
      · cases hr : s.readReg a.off <;> simp [idleAccess, hk, hr]
      · simp [idleAccess, hk]
      · simp [Access.malformed, hk] at hm
    · by_cases hc : a.kind = .read ∧ a.off = statusOffset
      · simp [busyAccess, hc, hs, State.drawStatus]
      · simp [busyAccess, hc]
  · simp

/-- Everything a write to an idle OWC can do (20_memory R67). -/
theorem State.writeReg_cases (s : State) (off : Offset) (w : Word) :
    (s.regAt off = .cmd ∧ s.writeReg off w = s.startCommand w) ∨
    (s.regAt off = .maxdev ∧ s.writeReg off w = s.writeMaxdev w) ∨
    (s.regAt off = .buf ∧ s.writeReg off w = s.storeBytes off.toNat (bytesOfWord w)) ∨
    s.writeReg off w = s := by
  unfold State.writeReg
  cases s.regAt off <;> simp

/-- Where `BUF` lies in the window (R63). -/
theorem State.regAt_buf {s : State} {off : Offset} (h : s.regAt off = .buf) :
    bufBase ≤ off.toNat ∧ off.toNat < s.bufEnd := by
  unfold State.regAt at h
  split_ifs at h
  assumption

/-- Everything a host transfer can do: the access, then the host's own registers and position. -/
theorem hostTransfer_next {a : Access} {keep : Option Nat} {s t : State} (h : hostTransfer a keep s = .next t) :
    ∃ u w hc, hostAccess a s = .next (u, w) ∧ t = u.setHost hc := by
  unfold hostTransfer at h
  cases ha : hostAccess a s with
  | next p =>
    simp only [ha] at h
    cases h
    exact ⟨p.1, p.2, _, rfl, rfl⟩
  | fault f => simp [ha] at h
  | refused r => simp [ha] at h

/-- A host instruction makes an access, or changes only the host. -/
theorem hostExec_next {i : HostInstr} {s t : State} (h : hostExec i s = .next t) :
    (∃ a u w hc, hostAccess a s = .next (u, w) ∧ t = u.setHost hc) ∨ ∃ hc, t = s.setHost hc := by
  cases i with
  | stImm off imm => exact .inl (by unfold hostExec at h; exact ⟨_, hostTransfer_next h⟩)
  | stReg off r => exact .inl (by unfold hostExec at h; exact ⟨_, hostTransfer_next h⟩)
  | ld r off => exact .inl (by unfold hostExec at h; exact ⟨_, hostTransfer_next h⟩)
  | access a => exact .inl (by unfold hostExec at h; exact ⟨_, hostTransfer_next h⟩)
  | ifNonzero r m l => cases h; exact .inr ⟨_, rfl⟩
  | ifZero r m l => cases h; exact .inr ⟨_, rfl⟩
  | halt => cases h; exact .inr ⟨s.host, rfl⟩

/-- The host's move makes an access, or changes only the host. -/
theorem hostStep_next {s t : State} (h : hostStep s = .next t) :
    (∃ a u w hc, hostAccess a s = .next (u, w) ∧ t = u.setHost hc) ∨ ∃ hc, t = s.setHost hc := by
  unfold hostStep at h
  split at h
  · exact hostExec_next h
  · cases h; exact .inr ⟨s.host, rfl⟩

/-- The controller's move runs the command decoded from `CMD`, or nothing. -/
theorem controllerStep_next {s t : State} (h : controllerStep s = .next t) :
    (s.seq = .idle ∧ t = s) ∨ (s.seq = .busy ∧ ∃ i, decode s.cmd = .instr i ∧ exec i s = .next t) ∨
      (s.seq = .busy ∧ (∃ op, decode s.cmd = .reserved op) ∧ t = s.badCommand) := by
  unfold controllerStep at h
  cases hs : s.seq with
  | idle => simp only [hs] at h; cases h; exact .inl ⟨rfl, rfl⟩
  | busy =>
    simp only [hs] at h
    cases hd : decode s.cmd with
    | instr i => exact .inr (.inl ⟨rfl, i, rfl, by simpa [runDecoded, hd] using h⟩)
    | reserved op =>
      simp only [hd, runDecoded] at h
      cases h
      exact .inr (.inr ⟨rfl, ⟨op, rfl⟩, rfl⟩)

/-- Everything a step can do when it answers a next state. -/
theorem step_next {s t : State} (h : step s = .next t) :
    (s.nextTurn = .host ∧ hostStep s.takeTurn = .next t) ∨
    (s.nextTurn = .controller ∧ controllerStep s.takeTurn = .next t) ∨
    (∃ g, s.nextTurn = .gap g ∧ t = passGap g s.takeTurn) ∨
    (∃ k d, s.nextTurn = .blockReset k d ∧ t = blockReset k d s.takeTurn) := by
  unfold step at h
  cases hn : s.nextTurn with
  | host => exact .inl ⟨rfl, by simpa [hn, runTurn] using h⟩
  | controller => exact .inr (.inl ⟨rfl, by simpa [hn, runTurn] using h⟩)
  | gap g =>
    simp only [hn, runTurn] at h
    cases h
    exact .inr (.inr (.inl ⟨g, rfl, rfl⟩))
  | blockReset k d =>
    simp only [hn, runTurn] at h
    cases h
    exact .inr (.inr (.inr ⟨k, d, rfl, rfl⟩))

/-- The command placed for the next step is the command that step runs. -/
theorem step_withFetchWord (s : State) (nbits w : Nat) :
    step (s.withFetchWord nbits w) =
      runDecoded (decode (BitVec.ofNat 32 (w % 2 ^ nbits)))
        { s with cmd := BitVec.ofNat 32 (w % 2 ^ nbits), seq := .busy } := rfl

end Sys2Proof.Machine
end

