-- ==== Sys2Proof/Laws/PerInstr.lean ====
section
/-!
SUPPORT. The per-instruction family `AsmWord`: the assembler of 30_encoding R100 gives a command the word the encoder gives
it.
-/

namespace Sys2Proof.Laws.AsmWord

/-- The assembly form of a command assembles to its word (R100). -/
def Statement (i : Instr) : Prop := assemble i.asm = some (encode i)

theorem asmOperand_bit (op : Nat) (b : Bit) : asmOperand 2 8 op b.toNat = some (BitVec.ofNat 32 (b.toNat * 256 + op)) := by
  cases b <;> rfl

theorem asmOperand_byte (op : Nat) (v : Byte) :
    asmOperand 256 8 op v.toNat = some (BitVec.ofNat 32 (v.toNat * 256 + op)) := by
  simp [asmOperand, v.isLt]

theorem asmOperand_half (op : Nat) (n : Half) :
    asmOperand 65536 16 op n.toNat = some (BitVec.ofNat 32 (n.toNat * 65536 + op)) := by
  simp [asmOperand, n.isLt]

/-- The fields of a word side by side, as a number (R90). -/
theorem word_of_fields (n : Half) (v op : Byte) :
    (n ++ v ++ op : Word) = BitVec.ofNat 32 (n.toNat * 65536 + v.toNat * 256 + op.toNat) := by
  apply BitVec.eq_of_toNat_eq
  have hn := n.isLt
  have hv := v.isLt
  have ho := op.isLt
  rw [BitVec.toNat_append, BitVec.toNat_append, ← Nat.shiftLeft_add_eq_or_of_lt hv,
    ← Nat.shiftLeft_add_eq_or_of_lt ho, BitVec.toNat_ofNat, Nat.shiftLeft_eq, Nat.shiftLeft_eq]
  omega

theorem bit_arg (b : Bit) : (if b then (1 : Byte) else 0).toNat = b.toNat := by cases b <;> rfl

theorem reset : Statement .reset := by unfold Statement; decide

theorem writeBit (b : Bit) : Statement (.writeBit b) := by
  simp only [Statement, Instr.asm, assemble, asmOperand_bit, encode, word_of_fields, Instr.len, Instr.arg, Instr.opcode, bit_arg]
  simp

theorem readBit : Statement .readBit := by unfold Statement; decide

theorem writeByte (v : Byte) : Statement (.writeByte v) := by
  simp only [Statement, Instr.asm, assemble, asmOperand_byte, encode, word_of_fields, Instr.len, Instr.arg, Instr.opcode]
  simp

theorem readByte : Statement .readByte := by unfold Statement; decide

theorem touchByte (v : Byte) : Statement (.touchByte v) := by
  simp only [Statement, Instr.asm, assemble, asmOperand_byte, encode, word_of_fields, Instr.len, Instr.arg, Instr.opcode]
  simp

theorem block (n : Half) : Statement (.block n) := by
  simp only [Statement, Instr.asm, assemble, asmOperand_half, encode, word_of_fields, Instr.len, Instr.arg, Instr.opcode]
  simp

theorem setSpeed (b : Bit) : Statement (.setSpeed b) := by
  simp only [Statement, Instr.asm, assemble, asmOperand_bit, encode, word_of_fields, Instr.len, Instr.arg, Instr.opcode, bit_arg]
  simp

theorem speedSkip : Statement .speedSkip := by unfold Statement; decide

theorem matchAddress : Statement .matchAddress := by unfold Statement; decide

theorem skipAddress : Statement .skipAddress := by unfold Statement; decide

theorem search : Statement .search := by unfold Statement; decide

theorem crc8 (n : Half) : Statement (.crc8 n) := by
  simp only [Statement, Instr.asm, assemble, asmOperand_half, encode, word_of_fields, Instr.len, Instr.arg, Instr.opcode]
  simp

theorem crc8Table (n : Half) : Statement (.crc8Table n) := by
  simp only [Statement, Instr.asm, assemble, asmOperand_half, encode, word_of_fields, Instr.len, Instr.arg, Instr.opcode]
  simp

theorem crc8Check (n : Half) : Statement (.crc8Check n) := by
  simp only [Statement, Instr.asm, assemble, asmOperand_half, encode, word_of_fields, Instr.len, Instr.arg, Instr.opcode]
  simp

theorem crc16 (n : Half) : Statement (.crc16 n) := by
  simp only [Statement, Instr.asm, assemble, asmOperand_half, encode, word_of_fields, Instr.len, Instr.arg, Instr.opcode]
  simp

end Sys2Proof.Laws.AsmWord
end

