-- ==== Sys2Proof/Tests/Slice0.lean ====
section
/-!
SUPPORT. Tests with results taken from the spec (95_test_vectors, 30_encoding, 20_memory), the well-formedness smoke test,
and for every statement with hypotheses a witness that they can hold together.
-/

namespace Sys2Proof.Tests

open Sys2Proof.Machine

/-! ### Well-formedness (30_encoding R97) -/

theorem test_block_limit : (Instr.block 257).wellFormed = false ∧ (Instr.block 256).wellFormed = true := by decide
theorem test_crc8_limit : (Instr.crc8 257).wellFormed = false ∧ (Instr.crc8 256).wellFormed = true := by decide
theorem test_crc8Table_limit :
    (Instr.crc8Table 257).wellFormed = false ∧ (Instr.crc8Table 256).wellFormed = true := by decide
theorem test_crc8Check_limit : (Instr.crc8Check 257).wellFormed = false ∧ (Instr.crc8Check 256).wellFormed = true := by
  decide
theorem test_crc8Check_needs_a_byte :
    (Instr.crc8Check 0).wellFormed = false ∧ (Instr.crc8Check 1).wellFormed = true := by decide
theorem test_crc16_limit : (Instr.crc16 129).wellFormed = false ∧ (Instr.crc16 128).wellFormed = true := by decide

/-! ### Decoding: words written out from 30_encoding R90, R95 and R100 -/

theorem test_decode_reset : decode 0b00000000000000000000000000000001#32 = .instr .reset := by decide
theorem test_decode_writeBit : decode 0b00000000000000000000000100000010#32 = .instr (.writeBit true) := by decide
theorem test_decode_writeBit_ignores_high_arg : decode 0x0000FE02#32 = .instr (.writeBit false) := by decide
theorem test_decode_readBit_ignores_fields : decode 0xFFFF0103#32 = .instr .readBit := by decide
theorem test_decode_writeByte : decode 0b00000000000000001100110000000100#32 = .instr (.writeByte 0xCC) := by decide
theorem test_decode_readByte : decode 0x00000005#32 = .instr .readByte := by decide
theorem test_decode_touchByte : decode 0b00000000000000001111000000000110#32 = .instr (.touchByte 0xF0) := by decide
theorem test_decode_block : decode 0b00000000000010000000000000000111#32 = .instr (.block 8) := by decide
theorem test_decode_setSpeed : decode 0b00000000000000000000000100001000#32 = .instr (.setSpeed true) := by decide
theorem test_decode_speedSkip : decode 0x00000009#32 = .instr .speedSkip := by decide
theorem test_decode_matchAddress : decode 0x0000000A#32 = .instr .matchAddress := by decide
theorem test_decode_skipAddress : decode 0x0000000B#32 = .instr .skipAddress := by decide
theorem test_decode_search : decode 0b00000000000000000000000000001100#32 = .instr .search := by decide
theorem test_decode_crc8 : decode 0b00000000000001110000000000010000#32 = .instr (.crc8 7) := by decide
theorem test_decode_crc8Table : decode 0x00070011#32 = .instr (.crc8Table 7) := by decide
theorem test_decode_crc8Check : decode 0x00080012#32 = .instr (.crc8Check 8) := by decide
theorem test_decode_crc16 : decode 0x00090013#32 = .instr (.crc16 9) := by decide
theorem test_decode_reserved : decode 0x0000000D#32 = .reserved 0x0D ∧ decode 0x00000014#32 = .reserved 0x14 := by decide

theorem test_encode_writeByte : encode (.writeByte 0x33) = 0x00003304#32 := by decide
theorem test_encode_block : encode (.block 256) = 0x01000007#32 := by decide
theorem test_assemble_wbit_range : assemble (.wbit 1) = some 0x00000102#32 ∧ assemble (.wbit 2) = none := by decide
theorem test_table_word : decodeTableWord 8 0x0A = some .matchAddress ∧ decodeTableWord 32 0x0D = none := by decide
theorem test_disassemble : disassemble 0x0000000D#32 = ".word 0x0000000D" := by decide

/-! ### States for the tests -/

/-- Right after block reset, on a bus of the test's choice. -/
def onBus (b : Bus) : State := { State.reset with bus := b }

/-- Right after block reset, with the first bytes of `BUF` written. -/
def withBuf (bs : List Byte) : State := State.reset.storeBytes bufBase bs

/-- In overdrive. -/
def fast (s : State) : State := { s with speed := .overdrive }

/-- Right after an accepted write to `CMD`. -/
def started (w : Word) (s : State) : State := { s with cmd := w, seq := .busy }

/-- The state after a command; a command that stops changes nothing. -/
def after (i : Instr) (s : State) : State :=
  match exec i s with
  | .next t => t
  | .fault _ => s
  | .refused _ => s

/-- The reason a command faults for. -/
def faultOf {σ : Type} (o : Host.Outcome σ Fault Refusal) : Option Fault :=
  match o with
  | .next _ => none
  | .fault f => some f
  | .refused _ => none

/-- What an access reads. -/
def readOf (o : Host.Outcome (State × Word) Fault Refusal) : Option Word :=
  match o with
  | .next p => some p.2
  | .fault _ => none
  | .refused _ => none

/-- An aligned 32-bit read. -/
def readAt (off : Offset) (s : State) : Option Word := readOf (hostAccess ⟨.read, off, 4, 0⟩ s)

/-- The state after an aligned 32-bit write; an access that stops changes nothing. -/
def writeAt (off : Offset) (v : Word) (s : State) : State :=
  match hostAccess ⟨.write, off, 4, v⟩ s with
  | .next p => p.1
  | .fault _ => s
  | .refused _ => s

/-- The address of vectors V-S1, V-T28 and V-C4, as bytes. -/
def romBytes : List Byte := [0x28, 0x01, 0x00, 0x00, 0x00, 0x00, 0x00, 0x29]

/-! ### Reset and the host window (95_test_vectors "Host accesses") -/

theorem test_status_after_reset : readAt 0x004 State.reset = some 0x00000000#32 := by decide
theorem test_maxdev_after_reset : readAt 0x014 State.reset = some 0x00000032#32 := by decide
theorem test_reserved_reads_zero : readAt 0x020 State.reset = some 0#32 := by decide
theorem test_maxdev_clamps : readAt 0x014 (writeAt 0x014 0x000001FF#32 State.reset) = some 0x00000032#32 := by decide
theorem test_maxdev_stores : readAt 0x014 (writeAt 0x014 10#32 State.reset) = some 0x0000000A#32 := by decide
theorem test_data_is_read_only : readAt 0x008 (writeAt 0x008 0x1234#32 State.reset) = some 0#32 := by decide
theorem test_buf_is_little_endian :
    readAt 0x100 (writeAt 0x100 0x44332211#32 State.reset) = some 0x44332211#32 ∧
      (writeAt 0x100 0x44332211#32 State.reset).bufByte 0 = some 0x11#8 ∧
      (writeAt 0x100 0x44332211#32 State.reset).bufByte 3 = some 0x44#8 := by decide
theorem test_unwritten_buf_faults :
    faultOf (hostAccess ⟨.read, 0x100, 4, 0⟩ State.reset) = some (.undefinedRead (.hostRead 0x100)) := by decide
theorem test_empty_res_faults :
    faultOf (hostAccess ⟨.read, 0x400, 4, 0⟩ State.reset) = some (.undefinedRead (.hostRead 0x400)) := by decide
theorem test_byte_access_faults :
    faultOf (hostAccess ⟨.read, 0x004, 1, 0⟩ State.reset) = some (.hostAccess 0x004 1) := by decide
theorem test_unaligned_access_faults :
    faultOf (hostAccess ⟨.read, 0x006, 4, 0⟩ State.reset) = some (.hostAccess 0x006 4) := by decide
theorem test_busy_data_read_faults :
    faultOf (hostAccess ⟨.read, 0x008, 4, 0⟩ (writeAt 0x000 1#32 State.reset)) = some (.busyAccess 0x008 .read) := by
  decide
theorem test_busy_cmd_write_faults :
    faultOf (hostAccess ⟨.write, 0x000, 4, 1⟩ (writeAt 0x000 1#32 State.reset)) = some (.busyAccess 0x000 .write) := by
  decide
theorem test_window_offset :
    Config.windowOffset 0x40000000 0x40000404 = some 0x404#11 ∧ Config.windowOffset 0x40000000 0x40000800 = none := by
  decide

/-! ### Transport commands (vectors V-T1 to V-T30) -/

/-- V-T1. -/
theorem test_reset_with_presence :
    (after .reset (onBus (.always false))).wire.hist = [.low 0, .rel 1920, .smp 2200 false] ∧
      (after .reset (onBus (.always false))).wire.now = 3840 ∧
      (after .reset (onBus (.always false))).presence = true ∧ (after .reset (onBus (.always false))).data = 1 := by
  decide

/-- V-T3. -/
theorem test_reset_overdrive :
    (after .reset (fast (onBus (.always false)))).wire.hist = [.low 10, .rel 290, .smp 324 false] ∧
      (after .reset (fast (onBus (.always false)))).wire.now = 484 := by decide

/-- V-T4. -/
theorem test_writeBit_one :
    (after (.writeBit true) State.reset).wire.hist = [.low 0, .rel 24] ∧
      (after (.writeBit true) State.reset).wire.now = 280 := by decide

/-- V-T7. -/
theorem test_writeBit_zero_overdrive :
    (after (.writeBit false) (fast State.reset)).wire.hist = [.low 0, .rel 30] ∧
      (after (.writeBit false) (fast State.reset)).wire.now = 40 := by decide

/-- V-T8. -/
theorem test_readBit :
    (after .readBit (onBus (.always true))).wire.hist = [.low 0, .rel 24, .smp 60 true] ∧
      (after .readBit (onBus (.always true))).wire.now = 280 ∧ (after .readBit (onBus (.always true))).data = 1 := by
  decide

/-- V-T9. -/
theorem test_readBit_overdrive :
    (after .readBit (fast (onBus (.always false)))).wire.hist = [.low 0, .rel 6, .smp 9 false] ∧
      (after .readBit (fast (onBus (.always false)))).wire.now = 37 := by decide

/-- V-T10: 0xCC is sent 0, 0, 1, 1, 0, 0, 1, 1 (the trace of 40_bus_transport R143). -/
theorem test_writeByte :
    ((after (.writeByte 0xCC) State.reset).wire.hist.take 6 =
        [.low 0, .rel 240, .low 280, .rel 520, .low 560, .rel 584]) ∧
      (after (.writeByte 0xCC) State.reset).wire.now = 2240 := by decide

/-- V-T13. -/
theorem test_readByte :
    (after .readByte (onBus (.script [true, false, true, false, false, false, false, false] 0))).data = 0x05 ∧
      (after .readByte (onBus (.script [true, false, true, false, false, false, false, false] 0))).wire.now = 2240 := by
  decide

/-- V-T16. -/
theorem test_touchByte :
    (after (.touchByte 0xF0) (onBus (.script [true, false, true, true] 0))).data = 0xD0 := by decide

/-- V-T19. -/
theorem test_touchByte_all_ones : (after (.touchByte 0xA5) (onBus (.always true))).data = 0xA5 := by decide

/-- V-T21. -/
theorem test_block :
    ((after (.block 2) { withBuf [0xCC, 0xFF] with
        bus := .script ([true, true, true, true] ++ [false, true, false, true, true, false, true, false]) 0 }).mem =
      [(0x100, 0xCC#8), (0x101, 0x5A#8)]) := by decide

/-- V-T23. -/
theorem test_block_undefined :
    faultOf (exec (.block 4) (withBuf [1, 2])) = some (.undefinedRead (.command 0 2)) := by decide

/-- V-T24. -/
theorem test_setSpeed : (after (.setSpeed true) State.reset).status = 0x00000004#32 := by decide

/-- V-T25. -/
theorem test_speedSkip :
    (after .speedSkip (onBus (.always false))).wire.now = 6564 ∧
      ((after .speedSkip (onBus (.always false))).wire.hist.drop 19 = [.low 6090, .rel 6370, .smp 6404 false]) ∧
      (after .speedSkip (onBus (.always false))).speed = .overdrive := by decide

/-- V-T26. -/
theorem test_speedSkip_no_presence :
    (after .speedSkip (fast (onBus (.always true)))).wire.hist = [.low 0, .rel 1920, .smp 2200 true] ∧
      (after .speedSkip (fast (onBus (.always true)))).speed = .standard := by decide

set_option maxRecDepth 8000 in
/-- V-T29. -/
theorem test_matchAddress_overdrive : (after .matchAddress (fast (withBuf romBytes))).wire.now = 2840 := by decide

set_option maxRecDepth 8000 in
/-- V-T28: after the byte 0x55 the address follows, bit 0 of 0x28 first. -/
theorem test_matchAddress :
    (after .matchAddress (withBuf romBytes)).wire.now = 20160 ∧
      ((after .matchAddress (withBuf romBytes)).wire.hist.drop 20).take 4 =
        [.low 2800, .rel 3040, .low 3080, .rel 3104] := by decide

/-- V-T30. -/
theorem test_skipAddress : (after .skipAddress (fast State.reset)).wire.now = 304 := by decide

/-- V-L2. -/
theorem test_loopback : (after .readByte (after (.writeByte 0xA5) (onBus (.loopback Timings.owc)))).data = 0xA5 := by decide

/-! ### Discovery (vectors V-S1 to V-S12) -/

/-- V-S7. -/
theorem test_search_of_an_empty_bus :
    (after .search (onBus (.always true))).result = .noPresence ∧
      (after .search (onBus (.always true))).wire.now = 3840 := by decide

set_option maxRecDepth 8000 in
/-- V-S8's stop, at bit 0: the first walk is given up after its second read. -/
theorem test_search_two_ones :
    (after .search (onBus (.script [false, true, true] 0))).result = .protocolViolation ∧
      (after .search (onBus (.script [false, true, true] 0))).wire.now = 6640 := by decide

set_option maxRecDepth 20000 in
/-- V-S1, its samples laid down: presence, then each address bit and its complement. -/
theorem test_search_of_one_device :
    let samples := false :: (bitsOfBytes romBytes).flatMap fun b => [b, !b]
    let t := after .search (onBus (.script samples 0))
    t.result = .ok ∧ t.devcount = 1 ∧ t.wire.now = 59840 ∧
      (t.mem.map Prod.snd = [0x28, 0x01, 0x00, 0x00, 0x00, 0x00, 0x00, 0x29]) := by decide

/-- Walk 4 of V-S2: below the top of the stack the recorded bit is taken again, here a 1 (90_conflicts C1). -/
theorem test_direction_replays :
    chooseDirection 64 2 { stk := [5], waddr := 0x04#64, safe := 0 } = (true, { stk := [5], waddr := 0x04#64, safe := 0 }) := by
  decide

/-- Walk 2 of V-S2. -/
theorem test_direction_pops :
    chooseDirection 64 5 { stk := [5, 2], waddr := 0, safe := 0 } = (true, { stk := [2], waddr := 0, safe := 0 }) := by decide

/-! ### Checksums (vectors V-C1 to V-C18) -/

set_option maxRecDepth 8000 in
/-- V-C4. -/
theorem test_crc8 : (after (.crc8 7) (withBuf [0x02, 0x1C, 0xB8, 0x01, 0x00, 0x00, 0x00])).crc8r = 0xA2 := by decide

set_option maxRecDepth 8000 in
/-- V-C4. -/
theorem test_crc8Table : (after (.crc8Table 7) (withBuf [0x10, 0x5A, 0x3C, 0x00, 0x08, 0x00, 0x00])).crc8r = 0x9A := by
  decide

set_option maxRecDepth 8000 in
/-- V-C7. -/
theorem test_crc8_table_step : crc8TableStep 0x5E 0x01 = 0x9A ∧ crc8Step 0x5E 0x01 = 0x9A := by decide

set_option maxRecDepth 8000 in
/-- V-C8. -/
theorem test_crc8Check : (after (.crc8Check 8) (withBuf romBytes)).crc8r = 0x29 ∧
    (after (.crc8Check 8) (withBuf romBytes)).result = .ok := by decide

/-- V-C11. -/
theorem test_crc8Check_one_byte : (after (.crc8Check 1) (withBuf [0x05])).result = .checksumMismatch := by decide

/-- V-C15. -/
theorem test_crc16 : (after (.crc16 2) (withBuf [0x01, 0x00, 0x02, 0x00])).crc16r = 0x5180 := by decide

/-- V-C14: the high byte of a word is not used. -/
theorem test_crc16_high_byte : (after (.crc16 1) (withBuf [0xAB, 0x12])).crc16r = 0xBF41 := by decide

/-! ### Other parameters (00_scope R8) -/

/-- An OWC with the least `BUF_BYTES` and `RESULT_CAP`. -/
def smallOwc : State := State.resetOf { Params.owc with bufBytes := 8, resultCap := 1 }

theorem test_small_parameters_legal : smallOwc.params.legal ∧ ¬ ({ Params.owc with bufBytes := 10 } : Params).legal := by
  decide

/-- R97 and R32: `BUF_BYTES` limits `LEN`, and `RESULT_CAP - 1` limits `MAXDEV`. -/
theorem test_small_limits :
    (after (.crc8 9) smallOwc).result = .badCommand ∧ readAt 0x014 (writeAt 0x014 7#32 smallOwc) = some 0#32 := by decide

/-- R63: the offsets after a small `BUF` and a small `RES` are reserved. -/
theorem test_small_window : readAt 0x108 smallOwc = some 0#32 ∧ readAt 0x408 smallOwc = some 0#32 := by decide

/-- An OWC for addresses of 8 bits, with a stack of 8 entries. -/
def narrowOwc : State := State.resetOf { Params.owc with addrBits := 8, stackDepth := 8 }

/-- An address is whole bytes of at most 64 bits, and the stack has room for its positions. -/
theorem test_narrow_parameters_legal :
    narrowOwc.params.legal ∧ ¬ ({ narrowOwc.params with stackDepth := 7 } : Params).legal ∧
      ¬ ({ narrowOwc.params with addrBits := 4 } : Params).legal ∧
      ¬ ({ Params.owc with addrBits := 72, stackDepth := 72 } : Params).legal := by decide

/-- R149 at 8 address bits: 0x55 and one byte, in 16 slots of 280 units. -/
theorem test_narrow_match :
    (after .matchAddress (narrowOwc.storeBytes bufBase [0x28])).wire.now = 4480 ∧
      faultOf (exec .matchAddress narrowOwc) = some (.undefinedRead (.command 0 0)) := by decide

set_option maxRecDepth 8000 in
/-- R181 and R183 at 8 address bits: a reset, a byte and 8 triples of slots (3840 + 2240 + 8 * 840 units), and an entry of one
byte. -/
theorem test_narrow_search :
    let samples := false :: (bitsOfByte 0x28).flatMap fun b => [b, !b]
    let t := after .search { narrowOwc with bus := .script samples 0 }
    t.result = .ok ∧ t.devcount = 1 ∧ t.wire.now = 12800 ∧ t.mem = [(0x400, 0x28#8)] := by decide

/-- R63 at 8 address bits: 51 bytes of `RES`, and the next whole word after them is reserved. -/
theorem test_narrow_window :
    readAt 0x434 narrowOwc = some 0#32 ∧
      faultOf (hostAccess ⟨.read, 0x430, 4, 0⟩ narrowOwc) = some (.undefinedRead (.hostRead 0x430)) := by decide

/-! ### Steps -/

/-- The host's program: `st CMD, 1` starts the command, and the controller moves next (10_state R21). -/
theorem test_host_starts_a_command :
    step { State.reset with host := { prog := [.stImm 0x000 1], pc := 0, regs := [] } } =
      .next { State.reset with cmd := 1, seq := .busy, host := { prog := [.stImm 0x000 1], pc := 1, regs := [] } } := rfl

/-- A host read of an undefined byte of `BUF`, on the host's turn, ends in its fault (10_state R42). -/
theorem test_host_read_faults :
    faultOf (step { State.reset with host := { prog := [.ld 1 0x100], pc := 0, regs := [] }, turns := [.host] }) =
      some (.undefinedRead (.hostRead 0x100)) := by decide

/-- The word placed for the next step is the one it runs. -/
theorem test_withFetchWord : step (State.reset.withFetchWord 32 0x0108) =
    .next { State.reset with cmd := 0x0108, speed := .overdrive } := rfl

/-- A word with a reserved `OP` completes `BAD_COMMAND` (30_encoding R96). -/
theorem test_bad_command : step (State.reset.withFetchWord 32 0xFF) =
    .next { State.reset with cmd := 0xFF, result := .badCommand } := rfl

/-- A gap passes time and nothing else (20_memory R73). -/
theorem test_gap : step { State.reset with turns := [.gap 7] } =
    .next { State.reset with wire := { State.reset.wire with now := 7 } } := rfl

/-- Block reset in the low pulse of RESET: the line is released at that time and the OWC restarts (70_reset_and_hazards
R291). -/
theorem test_block_reset_releases :
    step { started 1 (onBus (.always false)) with turns := [.blockReset 1 5] } =
      .next { onBus (.always false) with past := [[.low 0, .rel 5]] } := rfl

/-! ### Witnesses: for every statement with hypotheses, states and operands that meet them, clause by clause -/

/-- An outcome is a next state. -/
def isNext {σ : Type} (o : Host.Outcome σ Fault Refusal) : Bool :=
  match o with
  | .next _ => true
  | .fault _ => false
  | .refused _ => false

/-- Such an outcome is a next state, as the statements say it. -/
theorem exists_next {σ : Type} {o : Host.Outcome σ Fault Refusal} (h : isNext o = true) : ∃ t, o = .next t := by
  cases o with
  | next t => exact ⟨t, rfl⟩
  | fault f => simp [isNext] at h
  | refused r => simp [isNext] at h

/-- OpAloneSelectsTheCommand: words of one `OP`, a command's and a reserved one. -/
theorem witness_op_alone :
    0x0000FE02#32 &&& 0x000000FF = 0x00000102#32 &&& 0x000000FF ∧ 0xFFFFFF0D#32 &&& 0x000000FF = 0x0D#32 &&& 0x000000FF := by
  decide

/-- IgnoredFieldsDoNotMatter: for each kind of operand two unlike words that agree on what their opcode uses. -/
theorem witness_ignored_fields :
    (0x12340302#32).extractLsb' 0 8 = (0x00000102#32).extractLsb' 0 8 ∧
    (0x12340302#32).getLsbD 8 = (0x00000102#32).getLsbD 8 ∧
    (0x0001CC04#32).extractLsb' 0 8 = (0x0000CC04#32).extractLsb' 0 8 ∧
    (0x0001CC04#32).extractLsb' 8 8 = (0x0000CC04#32).extractLsb' 8 8 ∧
    (0x0081FF13#32).extractLsb' 0 8 = (0x00810013#32).extractLsb' 0 8 ∧
    (0x0081FF13#32).extractLsb' 16 16 = (0x00810013#32).extractLsb' 16 16 :=
  ⟨rfl, rfl, rfl, rfl, rfl, rfl⟩

/-- ParametersNeverChange: the witness of StepKeepsTheInvariant steps; every state of the tests has these parameters. -/
theorem tests_params (bs : List Byte) (b : Bus) : (withBuf bs).params = Params.owc ∧ (onBus b).params = Params.owc := ⟨rfl, rfl⟩

/-- ResetHoldsTheListedValues and InvariantHoldsAtReset: this hardware's parameters are legal, and so are others. -/
theorem witness_params : Params.owc.legal ∧ smallOwc.params.legal ∧ narrowOwc.params.legal := by decide

/-- BadCommandChangesOnlyTheResult: a running reserved word; the `LEN` values next to each limit. -/
theorem witness_bad_command :
    (∀ op ∈ [0x00#8, 0x0D#8, 0x0F#8, 0x14#8, 0xFF#8],
      (started (op.setWidth 32) State.reset).seq = .busy ∧ decode (op.setWidth 32) = .reserved op) ∧
    State.reset.params.bufBytes < (257#16).toNat ∧ (0#16).toNat = 0 ∧ State.reset.params.bufBytes < 2 * (129#16).toNat ∧
    decode 0x01#32 = .instr .reset ∧ decode 0x0C#32 = .instr .search ∧ decode 0x10#32 = .instr (.crc8 0) ∧
    decode 0x13#32 = .instr (.crc16 0) := by decide

/-- AssemblyGivesTheListedWords: the least literal out of each range. -/
theorem witness_assembly : assemble (.speed 2) = none ∧ assemble (.touch 256) = none ∧ assemble (.crc16 65536) = none := by
  decide

/-- A state that meets the invariant and is not reset: a write to `CMD` accepted, `MAXDEV` lowered, a byte of `BUF`
defined. -/
def busyState : State := { started 0x0101 (onBus (.always false)) with mem := [(0x1FF, 7)], maxdev := 3 }

theorem busyState_inv : busyState.Inv where
  paramsLegal := by decide
  memWf := by decide
  memPlaced := by decide
  resDefined := by
    intro a h1 h2
    change a < resBase + 8 * 0 at h2
    omega
  maxdevLegal := by decide
  devcountLegal := by decide
  safeLegal := by decide
  stackEmpty := rfl
  released := rfl
  latchLow := rfl
  pullSet := rfl
  histLegal := rfl
  histTimes := List.Pairwise.nil
  histPast := by decide

/-- StepKeepsTheInvariant. -/
theorem witness_step_inv : busyState.Inv ∧ ∃ t, step busyState = .next t := ⟨busyState_inv, exists_next (by decide)⟩

/-- StepRunsTheDecodedCommand: with no turn and with the controller's; a command and a reserved word. -/
theorem witness_step_runs :
    busyState.seq = .busy ∧ busyState.turns = [] ∧ decode busyState.cmd = .instr .reset ∧
    (State.reset.withFetchWord 32 0x0D).seq = .busy ∧
    (State.reset.withFetchWord 32 0x0D).turns.head? = some .controller ∧
    decode (State.reset.withFetchWord 32 0x0D).cmd = .reserved 0x0D := by decide

/-- BlockResetRestoresTheResetValues: block reset in the middle of a command, from a state that meets the invariant. -/
theorem witness_block_reset :
    { busyState with turns := [.blockReset 2 100] }.turns = .blockReset 2 100 :: [] ∧
      ({ busyState with turns := [.blockReset 2 100] } : State).Inv :=
  ⟨rfl, { busyState_inv with }⟩

/-- MalformedAccessFaults: a fetch, each other width, an offset off the words. -/
theorem witness_malformed : ∀ a ∈ [(⟨.fetch, 0x000, 4, 0⟩ : Access), ⟨.write, 0x000, 1, 0⟩, ⟨.read, 0x004, 8, 0⟩,
    ⟨.read, 0x7FD, 4, 0⟩, ⟨.read, 0x003, 4, 0⟩], a.kind = .fetch ∨ a.width ≠ 4 ∨ a.off.toNat % 4 ≠ 0 := by decide

/-- AccessWhileBusy: the read of `STATUS`; a write to it, a write to `CMD`, and the word after it. -/
theorem witness_busy_access :
    (∀ a ∈ [(⟨.read, 0x004, 4, 0⟩ : Access), ⟨.write, 0x004, 4, 0⟩, ⟨.write, 0x000, 4, 1⟩, ⟨.read, 0x008, 4, 0⟩],
      busyState.seq = .busy ∧ a.kind ≠ .fetch ∧ a.width = 4 ∧ a.off.toNat % 4 = 0) ∧
    ¬ (AccessKind.write = .read ∧ (0x004 : Offset) = 0x004) ∧ ¬ (AccessKind.read = .read ∧ (0x008 : Offset) = 0x004) := by
  decide

/-- IdleReadReturnsTheRegister: the first and the last word of each range; a defined word at each end of `BUF`; an
undefined byte in the first and in the last word of `RES`. -/
theorem witness_idle_read :
    State.reset.params.legal ∧ State.reset.seq = .idle ∧
    (∀ off ∈ [(0x000 : Offset), 0x004, 0x008, 0x00C, 0x010, 0x014, 0x018, 0x01C, 0x0FC, 0x100, 0x1FC, 0x200, 0x3FC, 0x400,
      0x594, 0x598, 0x7FC], off.toNat % 4 = 0) ∧
    (∀ k ∈ [0, 1, 2, 3], (withBuf [1, 2, 3, 4]).seq = .idle ∧
      Memory.read (withBuf [1, 2, 3, 4]).mem (0x100 + k) = [1#8, 2#8, 3#8, 4#8][k]?) ∧
    (∀ k ∈ [0, 1, 2, 3],
      Memory.read (State.reset.storeBytes 0x1FC [1, 2, 3, 4]).mem (0x1FC + k) = [1#8, 2#8, 3#8, 4#8][k]?) ∧
    Memory.read State.reset.mem 0x400 = none ∧ Memory.read (State.reset.storeBytes 0x594 [1, 2, 3]).mem 0x597 = none := by
  decide

/-- ReadsHaveNoSideEffect: a read that answers, idle and busy. -/
theorem witness_reads :
    (∃ t, hostAccess ⟨.read, 0x014, 4, 0⟩ State.reset = .next t) ∧ State.reset.seq = .idle ∧
      ∃ t, hostAccess ⟨.read, 0x004, 4, 0⟩ busyState = .next t :=
  ⟨exists_next (by decide), rfl, ⟨_, rfl⟩⟩

/-- IdleWriteEffects and ReadOnlyWritesAreIgnored: the words at the ends of each range. -/
theorem witness_writes :
    State.reset.seq = .idle ∧
    ∀ off ∈ [(0x000 : Offset), 0x004, 0x008, 0x00C, 0x010, 0x014, 0x018, 0x0FC, 0x100, 0x1FC, 0x200, 0x7FC],
      off.toNat % 4 = 0 := by decide

/-- BufferWordReadsBackLittleEndian: the first and the last word of `BUF`. -/
theorem witness_buffer_word :
    ∀ k ∈ [0, 252], k % 4 = 0 ∧ k < State.reset.params.bufBytes ∧ (BitVec.ofNat 11 (bufBase + k)).toNat = bufBase + k := by decide

/-- Bytes from the start of `BUF` are defined as far as they were written, and no further. -/
theorem defined_prefix (bs : List Byte) :
    (withBuf bs).bufByte bs.length = none ∧ ∀ i, i < bs.length → ((withBuf bs).bufByte i).isSome := by
  refine ⟨?_, fun i hi => ?_⟩
  · simp only [withBuf, State.bufByte, State.storeBytes, Memory.read_writeBytes]
    rw [if_neg (by omega)]
    rfl
  · rw [withBuf, State.storeBytes_bufHolds State.reset bs i hi]
    simp [hi]

/-- UndefinedOperandFaults: nothing defined; the last byte of an address; the last byte of all of `BUF`, for the byte
commands and for CRC16. -/
theorem witness_undefined_operand :
    (∀ bs : List Byte, (withBuf bs).bufByte bs.length = none ∧ ∀ i, i < bs.length → ((withBuf bs).bufByte i).isSome) ∧
    0 < Params.owc.addrBytes ∧ 7 < Params.owc.addrBytes ∧ (256#16).toNat ≤ Params.owc.bufBytes ∧ 255 < (256#16).toNat ∧ 2 * (128#16).toNat ≤ Params.owc.bufBytes ∧ 255 < 2 * (128#16).toNat :=
  ⟨defined_prefix, by decide⟩

/-- StatusWordFields: an idle state with every field set. -/
theorem witness_status : ({ State.reset with presence := true, speed := .overdrive, result := .badCommand } : State).seq = .idle :=
  rfl

/-- HostInstructionsFollowTheListing: accesses that fault, each fault once. -/
theorem witness_host_faults :
    hostAccess ⟨.write, 0x002, 4, 5⟩ State.reset = .fault (.hostAccess 0x002 4) ∧
      hostAccess ⟨.write, 0x000, 4, busyState.host.reg 1⟩ busyState = .fault (.busyAccess 0x000 .write) ∧
      hostAccess ⟨.read, 0x100, 4, 0⟩ State.reset = .fault (.undefinedRead (.hostRead 0x100)) ∧
      hostAccess ⟨.fetch, 0x000, 4, 0⟩ State.reset = .fault (.hostAccess 0x000 4) :=
  ⟨rfl, rfl, rfl, rfl⟩

/-- HostInstructionsFollowTheListing: the host's turn laid down and by default, within its program and past its end. -/
theorem witness_host_turn :
    ({ busyState with turns := [.host, .controller] } : State).turns.head? = some .host ∧
      (State.reset.turns = [] ∧ State.reset.seq = .idle) ∧ State.reset.host.prog[State.reset.host.pc]? = none ∧
      ({ State.reset with host := { prog := [.halt], pc := 0, regs := [] } } : State).host.prog[0]? = some .halt := by
  decide

/-- HostInstructionsFollowTheListing: accesses that answer. -/
theorem witness_host :
    (∃ u, hostAccess ⟨.write, 0x014, 4, 5⟩ State.reset = .next (u, 0)) ∧
      (∃ u, hostAccess ⟨.write, 0x014, 4, State.reset.host.reg 1⟩ State.reset = .next (u, 0)) ∧
      ∃ p, hostAccess ⟨.read, 0x014, 4, 0⟩ State.reset = .next p :=
  ⟨⟨_, rfl⟩, ⟨_, rfl⟩, exists_next (by decide)⟩

/-- A command over `n` bytes finds them: `BlockTouchesTheBufferInPlace`, `MatchAddressSendsTheAddress`,
`Crc8ComputesTheChecksum`, `TableChecksumIsTheBitwiseOne`, `CommandDurations`, for any bytes written. -/
theorem witness_bufHolds (bs : List Byte) : (withBuf bs).bufHolds bs := State.storeBytes_bufHolds State.reset bs

/-- The same at the limits of `LEN`: none, all of `BUF`, an address. -/
theorem witness_buffer_lengths :
    (0#16).toNat ≤ Params.owc.bufBytes ∧ ([] : List Byte).length = (0#16).toNat ∧ (256#16).toNat ≤ Params.owc.bufBytes ∧
      (List.replicate 256 (7 : Byte)).length = (256#16).toNat ∧ romBytes.length = 8 ∧
      romBytes.length = Params.owc.addrBytes ∧ Params.owc.addrBits = 64 :=
  ⟨by decide, rfl, by decide, List.length_replicate, rfl, rfl, rfl⟩

/-- Crc8CheckComparesTheLastByte and ResidueIsZero: a checksum alone, and all of `BUF`. -/
theorem witness_crc8Check :
    (1#16).toNat ≤ Params.owc.bufBytes ∧ ([] : List Byte).length + 1 = (1#16).toNat ∧ (withBuf ([] ++ [0])).bufHolds ([] ++ [0]) ∧
      (256#16).toNat ≤ Params.owc.bufBytes ∧ (List.replicate 255 (7 : Byte)).length + 1 = (256#16).toNat ∧
      (∀ e, (withBuf (List.replicate 255 7 ++ [e])).bufHolds (List.replicate 255 7 ++ [e])) ∧
      (withBuf ([] ++ [crc8Of []])).bufHolds ([] ++ [crc8Of []]) :=
  ⟨by decide, rfl, witness_bufHolds _, by decide, by rw [List.length_replicate]; rfl, fun _ => witness_bufHolds _,
    witness_bufHolds _⟩

/-- Crc16ComputesTheChecksum: no word, one word, and all of `BUF`. -/
theorem witness_crc16 :
    (∀ ws : List Half, (withBuf (ws.flatMap fun w => [w.extractLsb' 0 8, w.extractLsb' 8 8])).bufHolds
        (ws.flatMap fun w => [w.extractLsb' 0 8, w.extractLsb' 8 8])) ∧
      2 * (0#16).toNat ≤ Params.owc.bufBytes ∧ 2 * (1#16).toNat ≤ Params.owc.bufBytes ∧ ([0x12AB] : List Half).length = (1#16).toNat ∧
      2 * (128#16).toNat ≤ Params.owc.bufBytes ∧ (List.replicate 128 (0x12AB : Half)).length = (128#16).toNat :=
  ⟨fun _ => witness_bufHolds _, by decide, by decide, rfl, by decide, List.length_replicate⟩

/-- ChecksumCommandsArePure: one command of each kind, in two unlike states whose `BUF` agrees. -/
theorem witness_checksum_pure :
    (fast (withBuf [1, 0])).params.bufBytes = (withBuf [1, 0]).params.bufBytes ∧
      (∀ k, k < Params.owc.bufBytes → (fast (withBuf [1, 0])).bufByte k = (withBuf [1, 0]).bufByte k) ∧
      ∀ i ∈ [Instr.crc8 2, .crc8Table 2, .crc8Check 2, .crc16 1, .crc8 257], isNext (exec i (withBuf [1, 0])) = true :=
  ⟨rfl, fun _ _ => rfl, by decide⟩

/-- SpeedSkipSwitchesToOverdrive: both answers of the first reset. -/
theorem witness_speedSkip :
    ((onBus (.always true)).wire.resetSeq (.always true) tpStd).1 = false ∧
      ((onBus (.always false)).wire.resetSeq (.always false) tpStd).1 = true := by decide

/-- LoopbackReturnsWhatWasWritten, at either speed. -/
theorem witness_loopback :
    (∀ s ∈ [onBus (.loopback Timings.owc), fast (onBus (.loopback Timings.owc))],
      s.bus = .loopback s.params.timings ∧ s.wire.hist = []) ∧ readableTimings Timings.owc := by decide

/-- The commands that end in a next state at reset on a bus that answers 0, with the bytes they use defined: the hypothesis
of CommandDurations, CommandsWriteOnlyTheListedState, CommandsLeaveTheRestAlone and CommandsEndReleased. -/
theorem witness_exec_next :
    let s : State := { withBuf romBytes with bus := .always true }
    (∀ i ∈ [Instr.reset, .writeBit true, .writeBit false, .readBit, .writeByte 0xCC, .readByte, .touchByte 0xF0, .block 0,
      .block 2, .block 257, .setSpeed true, .speedSkip, .matchAddress, .skipAddress, .search, .crc8 8, .crc8Table 8,
      .crc8Check 8, .crc16 4], isNext (exec i s) = true ∧ isNext (exec i (fast s)) = true) ∧
    s.wire.pin.line = .rel ∧ s.speed = .standard ∧ (fast s).speed = .overdrive ∧ s.maxdev.toNat < s.params.resultCap ∧
    s.params.legal := by decide

/-- DirectionFollowsTheStack: each of the four cases, at the ends of the bit positions, a push into the last free entry. -/
theorem witness_direction :
    ({ stk := [], waddr := 0, safe := 0 } : Discovery).stk = [] ∧
      (∀ t ∈ [(0 : Fin 64), 63], ({ stk := [t], waddr := 0, safe := 0 } : Discovery).stk = t :: []) ∧
      (0 : Fin 64) < 63 ∧ 0 < 1 ∧ ({ stk := [0], waddr := 0, safe := 0 } : Discovery).stk.length < 2 := by decide

/-- AppendedEntryIsTheWorkingAddress: the first entry and the last count that does not wrap. -/
theorem witness_append :
    State.reset.devcount.toNat < 255 ∧ ({ State.reset with devcount := 254 } : State).devcount.toNat < 255 := by decide

/-- StackStaysRising: an empty stack and one with two positions, both of an address of 6 bits, on a stack that is full and
on one with an entry for each position. -/
theorem witness_stack :
    ([] : List (Fin 64)).Pairwise (fun a b => b < a) ∧ [(5 : Fin 64), 2].Pairwise (fun a b => b < a) ∧
      (∀ i ∈ [(5 : Fin 64), 2], i.val < 6) ∧ ({ stk := [5, 2], waddr := 0, safe := 0 } : Discovery).sp ≤ 2 ∧
      Params.owc.addrBits ≤ Params.owc.stackDepth ∧ Params.owc.addrBits ≤ 100 := by decide

/-- SearchOfAnEmptyBus and TwoOnesEndThePass. -/
theorem witness_search_stops :
    ((onBus (.always true)).wire.resetSeq (.always true) tpStd).1 = false ∧
      (let s := onBus (.script [false, true, true] 0)
       let r := s.wire.resetSeq s.bus s.profile
       let b := (r.2.writeByteSeq s.profile 0xF0).readBitSeq s.bus s.profile
       let bc := b.2.readBitSeq s.bus s.profile
       r.1 = true ∧ b.1 = true ∧ bc.1 = true) ∧ 0 < (onBus (.script [false, true, true] 0)).params.addrBits := by decide

/-- SearchAlwaysCompletes, SearchIsBounded and AdversarialBusEndsAtTheLimit: the least and the greatest `MAXDEV`, at
standard speed. -/
theorem witness_search_limits :
    (∀ s ∈ [onBus (.always false), { onBus (.always false) with maxdev := 0 }],
      s.bus = .always false ∧ s.params.legal ∧ s.maxdev.toNat < s.params.resultCap ∧ s.speed = .standard) ∧
    readableTimings State.reset.params.timings ∧ State.reset.params.timings = Timings.owc ∧
    State.reset.params.addrBits = 64 ∧ (onBus (.always false)).maxdev = 50 ∧
    ∀ s, ∃ t, exec .search s = .next t :=
  ⟨by decide, by decide, rfl, rfl, by decide, fun _ => ⟨_, rfl⟩⟩

/-- SearchForgetsEarlierPasses: a pass after another, with an entry left in `RES`. -/
theorem witness_search_forgets :
    Memory.clear [(0x100, 1#8), (0x400, 7#8)] resBase (withBuf [1]).resEnd =
      Memory.clear (withBuf [1]).mem resBase (withBuf [1]).resEnd ∧
      ∃ t, exec .search (withBuf [1]) = .next t :=
  ⟨by decide, ⟨_, rfl⟩⟩

/-- An address below `2^n` has only its first `n` bits. -/
theorem address_bits {n : Nat} {a : Address} (h : a.toNat < 2 ^ n) (i : Nat) (hi : n ≤ i) : a.getLsbD i = false :=
  Nat.testBit_lt_two_pow (h.trans_le (Nat.pow_le_pow_right Nat.two_pos hi))

/-- SearchFindsEveryDevice: addresses of the width of this hardware and of the narrow one. -/
theorem witness_address_bits :
    (∀ a ∈ [0xFFFFFFFFFFFFFFFF#64, 0x00#64], ∀ i, State.reset.params.addrBits ≤ i → a.getLsbD i = false) ∧
    ∀ a ∈ [0xFF#64, 0x00#64], ∀ i, narrowOwc.params.addrBits ≤ i → a.getLsbD i = false :=
  ⟨fun a _ => address_bits (n := 64) a.isLt,
    fun a ha => address_bits (n := 8) (by
      rcases List.mem_pair.1 ha with rfl | rfl <;> simp)⟩

/-- SearchFindsEveryDevice: fewer devices than `MAXDEV + 1`, as many, and more. -/
theorem witness_search_finds :
    let devices : List Address := [0x24, 0x20, 0x00, 0x04]
    devices.Nodup ∧ devices ≠ [] ∧
    (∀ m ∈ [(50 : Byte), 3, 0],
      let s : State := { onBus (.population Timings.owc 64 devices) with maxdev := m }
      s.bus = .population s.params.timings s.params.addrBits devices ∧ readableTimings s.params.timings ∧ s.params.legal ∧
        s.maxdev.toNat < s.params.resultCap) ∧
    devices.length ≤ 50 + 1 ∧ devices.length = 3 + 1 ∧ ¬ devices.length ≤ 0 + 1 := by decide

set_option maxRecDepth 20000 in
/-- WalkDurations: a walk of each kind, the complete one at both speeds. -/
theorem witness_walks :
    (searchWalk (onBus (.always false))).1 = .done ∧ (searchWalk (fast (onBus (.always false)))).1 = .done ∧
      (searchWalk (onBus (.always true))).1 = .noPresence ∧
      (searchWalk (onBus (.script [false, true, true] 0))).1 = .protocolViolation ∧
      (onBus (.script [false, true, true] 0)).speed = .standard ∧ State.reset.params.timings = Timings.owc ∧
      State.reset.params.addrBits ≤ 64 ∧ State.reset.params.addrBits = 64 := by decide

set_option maxRecDepth 20000 in
/-- R300's row of a walk that fails, at bit 1, at both speeds: `6640 + 840*1`, and `788 + 74*2 + 40` after a 0 written back. -/
theorem test_walk_fails_at_bit_one :
    (searchWalk (onBus (.script [false, false, true, true, true] 0))).2.wire.now = 7480 ∧
      (searchWalk (fast (onBus (.script [false, false, true, true, true] 0)))).2.wire.now = 976 := by decide

/-- The samples of a walk that finds a discrepancy at bit 0 and 0 at every other bit, then of one that meets two ones at
bit 0. -/
def secondWalkFails : List Bit :=
  [false, false, false] ++ (List.replicate 63 [false, true]).flatten ++ [false, true, true]

set_option maxRecDepth 40000 in
/-- TwoOnesEndThePass: two ones in the second walk of a pass (its third clause at `k = 1`). -/
theorem witness_second_walk :
    (match passAfter (onBus (.script secondWalkFails 0)) 1 with
      | some u => (searchWalk u).1 == .protocolViolation
      | none => false) = true := by decide

set_option maxRecDepth 20000 in
/-- TwoOnesEndThePass: two ones at bit 2, after two bits done (its second clause). -/
theorem witness_third_bit :
    let bus : Bus := .script [false, true, false, true, true, true] 0
    let e := walkBits 64 bus tpStd [0, 1] State.reset.disc State.reset.wire
    let b := e.wire.readBitSeq bus tpStd
    bitPositions 64 = [0, 1] ++ 2 :: (bitPositions 64).drop 3 ∧ e.result = .done ∧ b.1 = true ∧
      (b.2.readBitSeq bus tpStd).1 = true := by decide

/-- GapPassesTime: a gap while idle and while a command runs. -/
theorem witness_gap :
    ({ State.reset with turns := [.gap 0] } : State).turns = .gap 0 :: [] ∧
      ({ busyState with turns := [.gap 7] } : State).turns = .gap 7 :: [] ∧ busyState.seq = .busy := by decide

end Sys2Proof.Tests
end

section
/-!
PROOFS. The scope of the model (00_scope): whose turn runs the command in `CMD` (R7), and the parameters no step changes
(R8).
-/

namespace Sys2Proof.Machine

/-- A running command's turn comes when it is laid down, or when none is (70_reset_and_hazards R301). -/
theorem State.nextTurn_eq_controller {s : State} (hbusy : s.seq = .busy)
    (hturn : s.turns = [] ∨ s.turns.head? = some .controller) : s.nextTurn = .controller := by
  unfold State.nextTurn
  rcases hturn with hnil | hhead
  · simp [hnil, hbusy]
  · obtain ⟨rest, hcons⟩ := List.head?_eq_some_iff.1 hhead
    simp [hcons]

/-- While a command runs the controller's move is what `CMD` decodes to (10_state R21). -/
theorem controllerStep_of_busy {s : State} (hbusy : s.seq = .busy) :
    controllerStep s = runDecoded (decode s.cmd) s := by
  simp [controllerStep, hbusy]

/-- On the controller's turn a step runs what `CMD` decodes to, in the state with that turn taken off. -/
theorem step_eq_runDecoded {s : State} (hbusy : s.seq = .busy)
    (hturn : s.turns = [] ∨ s.turns.head? = some .controller) :
    step s = runDecoded (decode s.cmd) s.takeTurn := by
  have hnext := State.nextTurn_eq_controller hbusy hturn
  calc step s = controllerStep s.takeTurn := by rw [step, hnext, runTurn]
    _ = runDecoded (decode s.cmd) s.takeTurn := controllerStep_of_busy hbusy

/-- What a search pass leaves alone holds what no command changes. -/
theorem Searched.kept {s t : State} (h : Searched s t) : Kept s t where
  params := h.params
  cmd := h.cmd
  maxdev := h.maxdev
  past := h.past
  bus := h.bus
  draws := h.draws
  turns := h.turns
  host := h.host

/-- SPEED_SKIP keeps what no command changes, whether or not its first reset finds presence (40_bus_transport R148). -/
theorem execSpeedSkip_kept {s t : State} (h : execSpeedSkip s = .next t) : Kept s t := by
  unfold execSpeedSkip at h
  obtain rfl := Host.Outcome.next.inj h
  split
  · constructor <;> simp [speedUpgrade, State.resetSeq_eq]
  · constructor <;> simp [State.resetSeq_eq]

/-- SEARCH keeps what no command changes: its start clears `RES` and the engine, and its loop is a search pass
(41_discovery R180). -/
theorem execSearch_kept {s t : State} (h : execSearch s = .next t) : Kept s t := by
  cases h
  have hstart : Searched s (startPass s) := by constructor <;> rfl
  obtain ⟨hloop, -⟩ := searchLoop_spec s.maxdev.toNat (startPass s)
  exact (hstart.trans hloop).kept

/-- Every command that completes keeps what no command changes. -/
theorem exec_kept {i : Instr} {s t : State} (h : exec i s = .next t) : Kept s t := by
  cases i with
  | reset | writeBit _ | readBit | writeByte _ | readByte | touchByte _ | setSpeed _ | skipAddress =>
    cases h
    constructor <;> rfl
  | matchAddress =>
    unfold exec execMatchAddress at h
    exact bufCommand_kept (fun _ => by constructor <;> rfl) h
  | block _ | crc8 _ | crc8Table _ | crc8Check _ | crc16 _ =>
    exact bufCommand_kept (fun _ => by constructor <;> rfl) h
  | speedSkip => exact execSpeedSkip_kept h
  | search => exact execSearch_kept h

@[simp] theorem State.writeReg_params (s : State) (off : Offset) (w : Word) :
    (s.writeReg off w).params = s.params := by
  obtain ⟨-, h⟩ | ⟨-, h⟩ | ⟨-, h⟩ | h := s.writeReg_cases off w <;> rw [h] <;> rfl

/-- No access of the host reaches the parameters: of a running OWC it draws a status, of an idle one it reads a register
or writes one (20_memory R67, R69). -/
theorem hostAccess_params {a : Access} {s t : State} {w : Word} (h : hostAccess a s = .next (t, w)) :
    t.params = s.params := by
  obtain ⟨-, ha⟩ | ⟨-, -, -, -, ha⟩ | ⟨-, -, -, ha⟩ | ⟨-, -, -, v, -, ha⟩ | ⟨-, -, -, -, ha⟩ | ⟨-, -, -, ha⟩ :=
    hostAccess_cases a s <;> rw [ha] at h <;> cases h
  · rfl
  · rfl
  · exact s.writeReg_params a.off a.value

theorem hostStep_params {s t : State} (h : hostStep s = .next t) : t.params = s.params := by
  obtain ⟨a, u, w, hc, hacc, rfl⟩ | ⟨hc, rfl⟩ := hostStep_next h
  · exact (u.setHost_params hc).trans (hostAccess_params hacc)
  · rfl

theorem controllerStep_params {s t : State} (h : controllerStep s = .next t) : t.params = s.params := by
  obtain ⟨-, rfl⟩ | ⟨-, i, -, hexec⟩ | ⟨-, -, rfl⟩ := controllerStep_next h
  · rfl
  · exact (exec_kept hexec).params
  · rfl

@[simp] theorem passGap_params (g : Nat) (s : State) : (passGap g s).params = s.params := by
  unfold passGap
  split <;> rfl

@[simp] theorem blockReset_params (k d : Nat) (s : State) : (blockReset k d s).params = s.params := rfl

/-- The parameters stay through a step of any agent (00_scope R8). -/
theorem step_params {s t : State} (h : step s = .next t) : t.params = s.params := by
  obtain ⟨-, hhost⟩ | ⟨-, hctrl⟩ | ⟨g, -, rfl⟩ | ⟨k, d, -, rfl⟩ := step_next h
  · exact (hostStep_params hhost).trans s.takeTurn_params
  · exact (controllerStep_params hctrl).trans s.takeTurn_params
  · exact passGap_params g s.takeTurn
  · exact blockReset_params k d s.takeTurn

/-- Settles O60: no agent's move reaches the parameters, and those of this hardware are the listed ones. -/
theorem parametersNeverChange : Obligations.ParametersNeverChange :=
  ⟨fun _ _ => step_params, rfl, rfl, rfl, rfl, rfl, rfl, rfl⟩

/-- Settles O10: the step is `runDecoded`, whose two cases are the obligation's. -/
theorem stepRunsTheDecodedCommand : Obligations.StepRunsTheDecodedCommand := by
  intro s hbusy hturn
  have hstep := step_eq_runDecoded hbusy hturn
  exact ⟨fun i hd => by rw [hstep, hd]; rfl, fun op hd => by rw [hstep, hd]; rfl⟩

end Sys2Proof.Machine
end

section
/-!
PROOFS. The frame of the commands (10_state R43): the state each of them writes, what it does to the bus side, and the
entries a search pass appends.
-/

namespace Sys2Proof.Machine

/-! ### The fields a command writes -/

/-- State `s` with what command `i` may write taken from `t`: its row of R43's table, with the bus side and the model's own
fields. -/
def writtenBy (i : Instr) (s t : State) : State :=
  match i with
  | .reset => { s with wire := t.wire, presence := t.presence, data := t.data, result := t.result, seq := .idle }
  | .writeBit _ | .writeByte _ | .matchAddress | .skipAddress =>
    { s with wire := t.wire, result := t.result, seq := .idle }
  | .readBit | .readByte | .touchByte _ => { s with wire := t.wire, data := t.data, result := t.result, seq := .idle }
  | .block _ => { s with wire := t.wire, mem := t.mem, result := t.result, seq := .idle }
  | .setSpeed _ => { s with speed := t.speed, result := t.result, seq := .idle }
  | .speedSkip =>
    { s with wire := t.wire, presence := t.presence, speed := t.speed, data := t.data, result := t.result, seq := .idle }
  | .search =>
    { s with wire := t.wire, presence := t.presence, devcount := t.devcount, mem := t.mem, disc := t.disc,
             result := t.result, seq := .idle }
  | .crc8 _ | .crc8Table _ | .crc8Check _ => { s with crc8r := t.crc8r, result := t.result, seq := .idle }
  | .crc16 _ => { s with crc16r := t.crc16r, result := t.result, seq := .idle }

/-- A command over `BUF` that completes was a bad command, or ran on the bytes `BUF` holds. -/
theorem bufCommand_next {legal : Bool} {n : Nat} {run : List Byte → State} {s t : State}
    (h : bufCommand legal n run s = .next t) :
    t = s.badCommand ∨ (legal = true ∧ ∃ bs, bs.length = n ∧ s.bufHolds bs ∧ t = run bs) := by
  obtain ⟨-, hb⟩ | ⟨-, _, -, -, -, hb⟩ | ⟨hlegal, bs, hlen, hholds, hb⟩ := bufCommand_cases legal n run s <;>
    rw [hb] at h <;> cases h
  · exact .inl rfl
  · exact .inr ⟨hlegal, bs, hlen, hholds, rfl⟩

/-- SEARCH is its loop run from the start of a pass, for at least one walk. -/
theorem execSearch_next {s t : State} (h : execSearch s = .next t) :
    t = searchLoop (s.maxdev.toNat + 1) (startPass s) := by
  cases h
  rfl

/-- The second part of SPEED_SKIP: a byte and a reset on the bus side, and the fields it sets (40_bus_transport R148). -/
theorem speedUpgrade_eq (s : State) :
    ∃ w p v r, speedUpgrade s =
        { s with wire := w, presence := p, speed := .overdrive, data := v, result := r, seq := .idle } ∧ s.wire.Ran w :=
  ⟨_, _, _, _, rfl, (Wire.writeByteSeq_ran _ _ _).trans (Wire.resetSeq_ran _ _ _)⟩

/-- SPEED_SKIP runs one reset, or a reset, a byte and another reset, and the fields it sets are these (R148). -/
theorem execSpeedSkip_next {s t : State} (h : execSpeedSkip s = .next t) :
    ∃ w p x v r, t = { s with wire := w, presence := p, speed := x, data := v, result := r, seq := .idle } ∧
      s.wire.Ran w := by
  unfold execSpeedSkip at h
  obtain rfl := Host.Outcome.next.inj h
  have hfirst : s.wire.Ran (s.setSpeed .standard).resetSeq.2.wire := Wire.resetSeq_ran _ _ _
  split
  · obtain ⟨w, p, v, r, heq, hran⟩ := speedUpgrade_eq (s.setSpeed .standard).resetSeq.2
    exact ⟨w, p, .overdrive, v, r, heq, hfirst.trans hran⟩
  · exact ⟨_, _, _, _, _, rfl, hfirst⟩

/-- SEARCH leaves alone what R43's table does not mark: its loop does (`Searched`), and its start clears only `RES` and the
engine. -/
theorem execSearch_writes {s t : State} (h : execSearch s = .next t) : t = writtenBy .search s t := by
  obtain rfl := execSearch_next h
  obtain ⟨hloop, -, hseq, -⟩ := searchLoop_spec s.maxdev.toNat (startPass s)
  generalize searchLoop (s.maxdev.toNat + 1) (startPass s) = t at hloop hseq
  obtain ⟨hparams, hcmd, hspeed, hdata, hcrc8, hcrc16, hmaxdev, hpast, hbus, hdraws, hturns, hhost⟩ := hloop
  cases t
  dsimp only at *
  subst_vars
  rfl

/-- A command that completes has changed nothing but what its row of R43's table marks. -/
theorem exec_writes {i : Instr} {s t : State} (h : exec i s = .next t) : t = writtenBy i s t := by
  cases i with
  | reset | writeBit _ | readBit | writeByte _ | readByte | touchByte _ | setSpeed _ | skipAddress =>
    cases h
    rfl
  | matchAddress =>
    unfold exec execMatchAddress at h
    obtain rfl | ⟨-, bs, -, -, rfl⟩ := bufCommand_next h <;> rfl
  | block _ | crc8 _ | crc8Table _ | crc8Check _ | crc16 _ =>
    obtain rfl | ⟨-, bs, -, -, rfl⟩ := bufCommand_next h <;> rfl
  | speedSkip =>
    obtain ⟨w, p, x, v, r, rfl, -⟩ := execSpeedSkip_next h
    rfl
  | search => exact execSearch_writes h

section
variable {i : Instr} {s t : State} (h : exec i s = .next t)
include h

theorem exec_seq : t.seq = .idle := by
  rw [exec_writes h]
  cases i <;> rfl

theorem exec_presence (hreset : i ≠ .reset) (hskip : i ≠ .speedSkip) (hsearch : i ≠ .search) :
    t.presence = s.presence := by
  rw [exec_writes h]
  cases i with
  | reset | speedSkip | search => contradiction
  | _ => rfl

theorem exec_speed (hset : ∀ b, i ≠ .setSpeed b) (hskip : i ≠ .speedSkip) : t.speed = s.speed := by
  rw [exec_writes h]
  cases i with
  | setSpeed b => exact absurd rfl (hset b)
  | speedSkip => contradiction
  | _ => rfl

theorem exec_data (hreset : i ≠ .reset) (hbit : i ≠ .readBit) (hbyte : i ≠ .readByte) (htouch : ∀ v, i ≠ .touchByte v)
    (hskip : i ≠ .speedSkip) : t.data = s.data := by
  rw [exec_writes h]
  cases i with
  | reset | readBit | readByte | speedSkip => contradiction
  | touchByte v => exact absurd rfl (htouch v)
  | _ => rfl

theorem exec_crc8r (hcrc8 : ∀ n, i ≠ .crc8 n) (htable : ∀ n, i ≠ .crc8Table n) (hcheck : ∀ n, i ≠ .crc8Check n) :
    t.crc8r = s.crc8r := by
  rw [exec_writes h]
  cases i with
  | crc8 n => exact absurd rfl (hcrc8 n)
  | crc8Table n => exact absurd rfl (htable n)
  | crc8Check n => exact absurd rfl (hcheck n)
  | _ => rfl

theorem exec_crc16r (hcrc16 : ∀ n, i ≠ .crc16 n) : t.crc16r = s.crc16r := by
  rw [exec_writes h]
  cases i with
  | crc16 n => exact absurd rfl (hcrc16 n)
  | _ => rfl

theorem exec_devcount (hsearch : i ≠ .search) : t.devcount = s.devcount := by
  rw [exec_writes h]
  cases i with
  | search => contradiction
  | _ => rfl

theorem exec_disc (hsearch : i ≠ .search) : t.disc = s.disc := by
  rw [exec_writes h]
  cases i with
  | search => contradiction
  | _ => rfl

theorem exec_mem (hsearch : i ≠ .search) (hblock : ∀ n, i ≠ .block n) : t.mem = s.mem := by
  rw [exec_writes h]
  cases i with
  | block n => exact absurd rfl (hblock n)
  | search => contradiction
  | _ => rfl

end

/-! ### What a command stores -/

/-- BLOCK stores nothing, or `LEN` bytes from the start of `BUF` on, no more than `BUF` has room for (40_bus_transport
R146). -/
theorem execBlock_mem {n : Half} {s t : State} (h : exec (.block n) s = .next t) :
    t.mem = s.mem ∨ ∃ bs : List Byte, bs.length = n.toNat ∧ n.toNat ≤ s.params.bufBytes ∧
      t.mem = (s.storeBytes bufBase bs).mem := by
  obtain rfl | ⟨hlegal, bs, hlen, -, rfl⟩ := bufCommand_next h
  · exact .inl rfl
  · exact .inr ⟨(s.wire.touchBytesSeq s.bus s.profile bs).1, by simpa using hlen, of_decide_eq_true hlegal, rfl⟩

theorem read_execBlock {n : Half} {s t : State} (h : exec (.block n) s = .next t) {a : Nat}
    (ha : ¬ (bufBase ≤ a ∧ a < bufBase + n.toNat)) : Memory.read t.mem a = Memory.read s.mem a := by
  obtain hmem | ⟨bs, hlen, -, hmem⟩ := execBlock_mem h <;> rw [hmem]
  exact Memory.read_writeBytes_of_lt s.mem bs (by omega)

/-- From `s` to `t` a pass has appended the entries `j` up to, not including, `k`: their bytes are defined, and every other
byte of memory reads as before (41_discovery R183). -/
structure Appended (j k : Nat) (s t : State) : Prop where
  params : t.params = s.params
  devcount : t.devcount = BitVec.ofNat 8 k
  le : j ≤ k
  wf : Memory.wf s.mem → Memory.wf t.mem
  outside : ∀ a, ¬ (s.resAddr j 0 ≤ a ∧ a < s.resAddr k 0) → Memory.read t.mem a = Memory.read s.mem a
  inside : ∀ a, s.resAddr j 0 ≤ a → a < s.resAddr k 0 → (Memory.read t.mem a).isSome

theorem State.resAddr_le (s : State) {j k : Nat} (h : j ≤ k) : s.resAddr j 0 ≤ s.resAddr k 0 :=
  Nat.add_le_add_left (Nat.mul_le_mul_left _ h) _

theorem State.resAddr_succ (s : State) (k : Nat) : s.resAddr (k + 1) 0 = s.resAddr k 0 + s.params.addrBytes := by
  simp only [State.resAddr, Nat.mul_succ]
  omega

/-- A state that keeps memory and `DEVCOUNT` has appended nothing. -/
theorem Appended.none {k : Nat} {s t : State} (hparams : t.params = s.params) (hmem : t.mem = s.mem)
    (hdev : t.devcount = BitVec.ofNat 8 k) : Appended k k s t where
  params := hparams
  devcount := hdev
  le := le_rfl
  wf h := hmem ▸ h
  outside a _ := by rw [hmem]
  inside a h1 h2 := by omega

theorem Appended.trans {i j k : Nat} {s t u : State} (h : Appended i j s t) (g : Appended j k t u) :
    Appended i k s u where
  params := g.params.trans h.params
  devcount := g.devcount
  le := h.le.trans g.le
  wf hs := g.wf (h.wf hs)
  outside a ha := by
    have hij := s.resAddr_le h.le
    have hjk := s.resAddr_le g.le
    have hg := g.outside a
    simp only [State.resAddr, h.params] at ha hij hjk hg
    rw [hg (by omega), h.outside a (by simp only [State.resAddr]; omega)]
  inside a h1 h2 := by
    have hg := g.outside a
    have hg' := g.inside a
    simp only [State.resAddr, h.params] at h1 h2 hg hg'
    by_cases ha : resBase + s.params.addrBytes * j + 0 ≤ a
    · exact hg' ha h2
    · rw [hg (by omega)]
      exact h.inside a h1 (by simp only [State.resAddr]; omega)

/-- Changes around memory and `DEVCOUNT` do not matter to what was appended. -/
theorem Appended.congr {j k : Nat} {s s' t t' : State} (h : Appended j k s t) (hs : s'.params = s.params)
    (hsmem : s'.mem = s.mem) (ht : t'.params = t.params) (htmem : t'.mem = t.mem) (htdev : t'.devcount = t.devcount) :
    Appended j k s' t' where
  params := by rw [ht, hs, h.params]
  devcount := htdev.trans h.devcount
  le := h.le
  wf := by simpa only [hsmem, htmem] using h.wf
  outside := by simpa only [State.resAddr, hs, hsmem, htmem] using h.outside
  inside := by simpa only [State.resAddr, hs, htmem] using h.inside

@[simp] theorem bytesOfAddress_length (n : Nat) (a : Address) : (bytesOfAddress n a).length = n := by
  simp [bytesOfAddress]

/-- `AppendAddress` appends the entry `DEVCOUNT` counts to (R183). -/
theorem appendAddress_appended (s : State) : Appended s.devcount.toNat (s.devcount.toNat + 1) s (appendAddress s) where
  params := rfl
  devcount := by rw [BitVec.ofNat_add, BitVec.ofNat_toNat, BitVec.setWidth_eq]; rfl
  le := Nat.le_succ _
  wf := Memory.wf_writeBytes _ _
  outside a ha := by
    rw [State.resAddr_succ] at ha
    exact Memory.read_writeBytes_of_lt _ _ (by rw [bytesOfAddress_length]; omega)
  inside a h1 h2 := by
    rw [State.resAddr_succ] at h2
    have hread : Memory.read (appendAddress s).mem a = _ := Memory.read_writeBytes _ _ _ _
    rw [hread, bytesOfAddress_length, if_pos ⟨h1, h2⟩]
    simp
    omega

/-- A walk keeps memory, `DEVCOUNT` and `SAFE`, and with them what no part of a pass changes (R181). -/
theorem searchWalk_keeps (s : State) :
    let u := (searchWalk s).2
    u.params = s.params ∧ u.mem = s.mem ∧ u.maxdev = s.maxdev ∧ u.devcount = s.devcount ∧ u.disc.safe = s.disc.safe := by
  obtain ⟨w, p, d, hu, -, hd⟩ := searchWalk_eq s
  rw [hu]
  exact ⟨rfl, rfl, rfl, rfl, hd⟩

/-- One round of a pass: after the walk the pass ends without an entry or with one, or appends one and goes on below the
limit (R180). -/
theorem searchLoop_succ_cases (n : Nat) (s : State) :
    let u := (searchWalk s).2
    (∃ code, searchLoop (n + 1) s = endPass u code) ∨
    (∃ code, searchLoop (n + 1) s = endPass (appendAddress u) code) ∨
    searchLoop (n + 1) s = endPass (countWalk (appendAddress u)) .deviceLimit ∨
    (u.disc.safe.toNat + 1 ≤ u.maxdev.toNat ∧ searchLoop (n + 1) s = searchLoop n (countWalk (appendAddress u))) := by
  rw [searchLoop]
  rcases searchWalk s with ⟨r, u⟩
  cases r with
  | noPresence => exact .inl ⟨.noPresence, rfl⟩
  | protocolViolation => exact .inl ⟨.protocolViolation, rfl⟩
  | done =>
    dsimp only
    split_ifs with hstk hlimit
    · exact .inr (.inl ⟨.ok, rfl⟩)
    · exact .inr (.inr (.inl rfl))
    · exact .inr (.inr (.inr ⟨Nat.le_of_not_lt hlimit, rfl⟩))

/-- A pass whose walks so far are counted by `DEVCOUNT` and by `SAFE` appends from there on, to at most `MAXDEV + 1` entries
in all, and `SAFE` ends at no more than that (R184, R190). -/
theorem searchLoop_appended (n : Nat) {j : Nat} {s : State} (hdev : s.devcount.toNat = j) (hsafe : s.disc.safe.toNat = j)
    (hj : j ≤ s.maxdev.toNat) :
    ∃ k, k ≤ s.maxdev.toNat + 1 ∧ Appended j k s (searchLoop n s) ∧
      (searchLoop n s).disc.safe.toNat ≤ s.maxdev.toNat + 1 := by
  induction n generalizing j s with
  | zero =>
    exact ⟨j, by omega, .none rfl rfl (by simp [searchLoop, endPass, ← hdev]),
      by simp [searchLoop, endPass]; omega⟩
  | succ n ih =>
    have hround := searchLoop_succ_cases n s
    obtain ⟨hparams, hmem, hmax, hudev, husafe⟩ := searchWalk_keeps s
    generalize (searchWalk s).2 = u at *
    rw [← hudev] at hdev
    rw [← husafe] at hsafe
    have hcount : (u.disc.safe + 1).toNat ≤ j + 1 := by rw [BitVec.toNat_add, hsafe]; exact Nat.mod_le _ _
    have happend : Appended j (j + 1) s (appendAddress u) :=
      (hdev ▸ appendAddress_appended u).congr hparams.symm hmem.symm rfl rfl rfl
    obtain ⟨code, hend⟩ | ⟨code, hend⟩ | hend | ⟨hlimit, hgo⟩ := hround
    · rw [hend]
      exact ⟨j, by omega, .none hparams hmem (by simp [endPass, ← hdev]), by simp [endPass]; omega⟩
    · rw [hend]
      exact ⟨j + 1, by omega, happend.congr rfl rfl rfl rfl rfl, by simp [endPass, appendAddress]; omega⟩
    · rw [hend]
      exact ⟨j + 1, by omega, happend.congr rfl rfl rfl rfl rfl, hcount.trans (by omega)⟩
    · rw [hgo]
      have hlt := s.maxdev.isLt
      have hnext : (countWalk (appendAddress u)).maxdev = s.maxdev := hmax
      rw [hmax, hsafe] at hlimit
      obtain ⟨k, hk, hrest, hend⟩ := ih (j := j + 1) (s := countWalk (appendAddress u))
        (by simp [countWalk, appendAddress, hdev]; omega) (by simp [countWalk, appendAddress, hsafe]; omega)
        (hnext ▸ hlimit)
      rw [hnext] at hk hend
      exact ⟨k, hk, (happend.congr (t' := countWalk (appendAddress u)) rfl rfl rfl rfl rfl).trans hrest, hend⟩

/-- SEARCH appends at most `MAXDEV + 1` entries from the first on, to an emptied `RES` (R180, R190). -/
theorem execSearch_appended {s t : State} (h : execSearch s = .next t) :
    ∃ k, k ≤ s.maxdev.toNat + 1 ∧ Appended 0 k (startPass s) t ∧ t.disc.safe.toNat ≤ s.maxdev.toNat + 1 := by
  obtain rfl := execSearch_next h
  exact searchLoop_appended (s := startPass s) _ rfl rfl (Nat.zero_le _)

theorem read_startPass (s : State) (a : Nat) :
    Memory.read (startPass s).mem a = if resBase ≤ a ∧ a < s.resEnd then none else Memory.read s.mem a :=
  Memory.read_clear s.mem resBase s.resEnd a

/-- SEARCH stores nothing below `RES`, whatever `MAXDEV` is. -/
theorem read_execSearch_below {s t : State} (h : execSearch s = .next t) {a : Nat} (ha : a < resBase) :
    Memory.read t.mem a = Memory.read s.mem a := by
  obtain ⟨k, -, happ, -⟩ := execSearch_appended h
  rw [happ.outside a (by simp only [State.resAddr]; omega), read_startPass, if_neg (by omega)]

/-- With a legal `MAXDEV` every entry SEARCH appends is one of `RES`, so it stores nothing outside it. -/
theorem read_execSearch_outside {s t : State} (h : execSearch s = .next t) (hmax : s.maxdev.toNat < s.params.resultCap)
    {a : Nat} (ha : ¬ (resBase ≤ a ∧ a < s.resEnd)) : Memory.read t.mem a = Memory.read s.mem a := by
  obtain ⟨k, hk, happ, -⟩ := execSearch_appended h
  have hcap : s.params.addrBytes * k ≤ s.params.addrBytes * s.params.resultCap := Nat.mul_le_mul_left _ (by omega)
  have hparams : (startPass s).params = s.params := rfl
  simp only [State.resEnd] at ha
  rw [happ.outside a (by simp only [State.resAddr, hparams]; omega), read_startPass, State.resEnd, if_neg ha]

/-! ### What a command does to the bus side -/

/-- A command that completes has left the bus side alone, or run line sequences on it. -/
theorem exec_wire {i : Instr} {s t : State} (h : exec i s = .next t) : t.wire = s.wire ∨ s.wire.Ran t.wire := by
  cases i with
  | reset => cases h; exact .inr (Wire.resetSeq_ran _ _ _)
  | writeBit b => cases h; exact .inr (Wire.writeBitSeq_ran _ _ _)
  | readBit => cases h; exact .inr (Wire.readBitSeq_ran _ _ _)
  | writeByte v => cases h; exact .inr (Wire.writeByteSeq_ran _ v _)
  | skipAddress => cases h; exact .inr (Wire.writeByteSeq_ran _ skipAddressByte _)
  | readByte => cases h; exact .inr (Wire.readByteSeq_ran _ _ _)
  | touchByte v => cases h; exact .inr (Wire.touchByteSeq_ran _ _ _ _)
  | setSpeed b => cases h; exact .inl rfl
  | speedSkip =>
    obtain ⟨w, p, x, v, r, rfl, hran⟩ := execSpeedSkip_next h
    exact .inr hran
  | search =>
    obtain rfl := execSearch_next h
    obtain ⟨-, hran, -⟩ := searchLoop_spec s.maxdev.toNat (startPass s)
    exact .inr hran
  | matchAddress =>
    unfold exec execMatchAddress at h
    obtain rfl | ⟨-, bs, -, -, rfl⟩ := bufCommand_next h
    · exact .inl rfl
    · exact .inr (Wire.writeBytesSeq_ran _ bs (Wire.writeByteSeq_ran _ _ _))
  | block n =>
    obtain rfl | ⟨-, bs, -, -, rfl⟩ := bufCommand_next h
    · exact .inl rfl
    · cases bs with
      | nil => exact .inl rfl
      | cons v vs => exact .inr (Wire.touchBytesSeq_ran _ _ vs (Wire.touchByteSeq_ran _ _ v s.wire))
  | crc8 _ | crc8Table _ | crc8Check _ | crc16 _ =>
    obtain rfl | ⟨-, bs, -, -, rfl⟩ := bufCommand_next h <;> exact .inl rfl

/-- Time passing over a released line is a run of no sequence. -/
theorem Wire.delay_ran {w : Wire} (h : w.pin.dir = .input) (g : Nat) : w.Ran (w.delay g) where
  pin := by
    rw [Wire.delay_pin, Pin.setInputDirection, ← h]
  later := Nat.le_add_right _ _
  hist := ⟨[], (List.append_nil _).symm, rfl, .nil, fun _ he => absurd he List.not_mem_nil⟩

/-- From a released line every command that completes runs the bus side, be it for no time. -/
theorem exec_ran {i : Instr} {s t : State} (h : exec i s = .next t) (hrel : s.wire.pin.dir = .input) :
    s.wire.Ran t.wire := by
  obtain heq | hran := exec_wire h
  · exact heq ▸ Wire.delay_ran hrel 0
  · exact hran

theorem Pin.line_eq_rel_iff (p : Pin) : p.line = .rel ↔ p.dir = .input := by
  unfold Pin.line
  cases p.dir <;> cases p.latch <;> decide

/-! ### The obligations on the commands' frame -/

/-- Settles O39: a command is a run of line sequences. -/
theorem commandsEndReleased : Obligations.CommandsEndReleased := by
  intro i s t h hline
  have hran := exec_ran h ((Pin.line_eq_rel_iff _).1 hline)
  exact ⟨by rw [hran.pin, Pin.line_eq_rel_iff]; rfl, hran.hist⟩

/-- Settles O38: what `Kept`, the bus side's run and `writtenBy` say of a command, with where BLOCK and SEARCH store. -/
theorem commandsLeaveTheRestAlone : Obligations.CommandsLeaveTheRestAlone := by
  intro i s t h
  obtain ⟨hparams, hcmd, hmaxdev, hpast, hbus, hdraws, hturns, hhost⟩ := exec_kept h
  have hpin : t.wire.pin.latch = s.wire.pin.latch ∧ t.wire.pin.pull = s.wire.pin.pull := by
    obtain heq | hran := exec_wire h
    · rw [heq]; exact ⟨rfl, rfl⟩
    · rw [hran.pin]; exact ⟨rfl, rfl⟩
  refine ⟨hparams, hcmd, hmaxdev, hpast, hbus, hdraws, hturns, hhost, hpin.1, hpin.2, exec_disc h, exec_mem h, ?_, ?_⟩
  · rintro n rfl a ha
    exact read_execBlock h ha
  · rintro rfl hmax a ha
    exact read_execSearch_outside h hmax ha

/-- A legal `BUF` ends where `RES` begins, or before (20_memory R63). -/
theorem State.bufEnd_le_resBase {s : State} (h : s.params.legal) : s.bufEnd ≤ resBase := by
  obtain ⟨-, ⟨-, -, hbuf⟩, -⟩ := h
  simp only [State.bufEnd, bufBase, resBase]
  omega

/-- No command but SEARCH stores to `RES`. -/
theorem exec_resByte {i : Instr} {s t : State} (h : exec i s = .next t) (hlegal : s.params.legal) (hsearch : i ≠ .search)
    (e j : Nat) : t.resByte e j = s.resByte e j := by
  have hread : Memory.read t.mem (s.resAddr e j) = Memory.read s.mem (s.resAddr e j) := by
    by_cases hblock : ∃ n, i = .block n
    · obtain ⟨n, rfl⟩ := hblock
      have hend := State.bufEnd_le_resBase hlegal
      obtain hmem | ⟨bs, hlen, hn, hmem⟩ := execBlock_mem h <;> rw [hmem]
      refine Memory.read_writeBytes_of_lt s.mem bs (.inr ?_)
      simp only [State.bufEnd] at hend
      simp only [State.resAddr]
      omega
    · rw [exec_mem h hsearch fun n hn => hblock ⟨n, hn⟩]
  rwa [State.resByte, State.resByte, State.resAddr, (exec_kept h).params]

/-- No command but BLOCK stores to `BUF`, and BLOCK only below its `LEN`. -/
theorem exec_bufByte {i : Instr} {s t : State} (h : exec i s = .next t) (hlegal : s.params.legal) {k : Nat}
    (hk : k < s.params.bufBytes) (hblock : ∀ n : Half, i = .block n → n.toNat ≤ k) : t.bufByte k = s.bufByte k := by
  unfold State.bufByte
  by_cases hsearch : i = .search
  · subst hsearch
    have hend := State.bufEnd_le_resBase hlegal
    exact read_execSearch_below h (by simp only [State.bufEnd] at hend; omega)
  · by_cases hn : ∃ n, i = .block n
    · obtain ⟨n, rfl⟩ := hn
      have hlen := hblock n rfl
      exact read_execBlock h (by omega)
    · rw [exec_mem h hsearch fun n hi => hn ⟨n, hi⟩]

/-- Settles O37: `writtenBy` is R43's table, and `BUF` and `RES` lie apart. -/
theorem commandsWriteOnlyTheListedState : Obligations.CommandsWriteOnlyTheListedState := by
  intro i s t h
  exact ⟨exec_seq h, exec_presence h, exec_speed h, exec_data h, exec_crc8r h, exec_crc16r h, exec_devcount h,
    fun hlegal hsearch e j _ _ => exec_resByte h hlegal hsearch e j,
    fun hlegal _ hk hblock => exec_bufByte h hlegal hk hblock⟩

end Sys2Proof.Machine
end

section
/-!
PROOFS. The host window on an idle OWC (20_memory section 1), the `STATUS` word (10_state R24 to R28), and the fault of a
command that consumes an undefined byte (R42).
-/

namespace Sys2Proof.Machine

/-! ### Where an offset lies -/

section
variable (s : State) {off : Offset}

theorem State.regAt_of_cmd (h : off.toNat = 0x000) : s.regAt off = .cmd := by simp [State.regAt, h]

theorem State.regAt_of_status (h : off.toNat = 0x004) : s.regAt off = .status := by simp [State.regAt, h]

theorem State.regAt_of_data (h : off.toNat = 0x008) : s.regAt off = .data := by simp [State.regAt, h]

theorem State.regAt_of_crc8r (h : off.toNat = 0x00C) : s.regAt off = .crc8r := by simp [State.regAt, h]

theorem State.regAt_of_crc16r (h : off.toNat = 0x010) : s.regAt off = .crc16r := by simp [State.regAt, h]

theorem State.regAt_of_maxdev (h : off.toNat = 0x014) : s.regAt off = .maxdev := by simp [State.regAt, h]

theorem State.regAt_of_devcount (h : off.toNat = 0x018) : s.regAt off = .devcount := by simp [State.regAt, h]

/-- Past the registers of the first words the map has `BUF`, `RES` and reserved words (R63). -/
theorem State.regAt_of_le (h : 0x01C ≤ off.toNat) :
    s.regAt off = if bufBase ≤ off.toNat ∧ off.toNat < s.bufEnd then .buf
      else if resBase ≤ off.toNat ∧ off.toNat < s.resEnd then .res else .reserved := by
  unfold State.regAt
  iterate 7 rw [if_neg (by omega)]

theorem State.regAt_of_buf (h : bufBase ≤ off.toNat ∧ off.toNat < s.bufEnd) : s.regAt off = .buf := by
  rw [State.regAt_of_le s (by simp only [bufBase] at h; omega), if_pos h]

theorem State.regAt_eq_cmd_iff : s.regAt off = .cmd ↔ off.toNat = 0x000 := by
  refine ⟨fun h => ?_, s.regAt_of_cmd⟩
  unfold State.regAt at h
  split_ifs at h
  assumption

theorem State.regAt_eq_maxdev_iff : s.regAt off = .maxdev ↔ off.toNat = 0x014 := by
  refine ⟨fun h => ?_, s.regAt_of_maxdev⟩
  unfold State.regAt at h
  split_ifs at h
  assumption

theorem State.regAt_eq_buf_iff : s.regAt off = .buf ↔ bufBase ≤ off.toNat ∧ off.toNat < s.bufEnd :=
  ⟨State.regAt_buf, s.regAt_of_buf⟩

end

/-! ### Accesses to an idle OWC -/

section
variable {s : State} {off : Offset} (hidle : s.seq = .idle) (halign : off.toNat % 4 = 0)
include hidle halign

/-- An aligned word access that is no fetch reaches an idle OWC (60_exceptions R269). -/
theorem hostAccess_idle {kind : AccessKind} (hkind : kind ≠ .fetch) (v : Word) :
    hostAccess ⟨kind, off, 4, v⟩ s = idleAccess ⟨kind, off, 4, v⟩ s := by
  simp [hostAccess, Access.malformed, hkind, halign, hidle]

theorem hostAccess_read_of_some (v : Word) {w : Word} (h : s.readReg off = some w) :
    hostAccess ⟨.read, off, 4, v⟩ s = .next (s, w) := by
  rw [hostAccess_idle hidle halign (by decide)]
  simp [idleAccess, h]

theorem hostAccess_read_of_none (v : Word) (h : s.readReg off = none) :
    hostAccess ⟨.read, off, 4, v⟩ s = .fault (.undefinedRead (.hostRead off)) := by
  rw [hostAccess_idle hidle halign (by decide)]
  simp [idleAccess, h]

theorem hostAccess_write_idle (v : Word) : hostAccess ⟨.write, off, 4, v⟩ s = .next (s.writeReg off v, 0) :=
  hostAccess_idle hidle halign (by decide) v

end

/-! ### Words of memory -/

/-- The four bytes of a word make the word (20_memory R62). -/
theorem wordOfBytes_extract (w : Word) :
    wordOfBytes (w.extractLsb' 0 8) (w.extractLsb' 8 8) (w.extractLsb' 16 8) (w.extractLsb' 24 8) = w := by
  rw [wordOfBytes, BitVec.extractLsb'_append_extractLsb'_eq_extractLsb' (start₂ := 24) (start₁ := 16) rfl,
    BitVec.extractLsb'_append_extractLsb'_eq_extractLsb' (start₂ := 16) (start₁ := 8) rfl,
    BitVec.extractLsb'_append_extractLsb'_eq_extractLsb' (start₂ := 8) (start₁ := 0) rfl]
  exact BitVec.extractLsb'_eq_self

/-- A word has a value when its four bytes have one. -/
theorem State.memWord_of_some {s : State} {a : Nat} {b0 b1 b2 b3 : Byte} (h0 : Memory.read s.mem a = some b0)
    (h1 : Memory.read s.mem (a + 1) = some b1) (h2 : Memory.read s.mem (a + 2) = some b2)
    (h3 : Memory.read s.mem (a + 3) = some b3) : s.memWord a = some (wordOfBytes b0 b1 b2 b3) := by
  rw [State.memWord, h0, h1, h2, h3]

theorem State.memWord_of_none {s : State} {a j : Nat} (hj : j < 4) (h : Memory.read s.mem (a + j) = none) :
    s.memWord a = none := by
  unfold State.memWord
  split
  case h_1 h0 h1 h2 h3 =>
    obtain rfl | rfl | rfl | rfl : j = 0 ∨ j = 1 ∨ j = 2 ∨ j = 3 := by omega
    all_goals simp_all
  case h_2 => rfl

/-- The bytes of memory after a word is stored (R62). -/
theorem read_storeWord (s : State) (a c : Nat) (w : Word) :
    Memory.read (s.storeBytes a (bytesOfWord w)).mem c =
      if c = a then some (w.extractLsb' 0 8) else if c = a + 1 then some (w.extractLsb' 8 8)
      else if c = a + 2 then some (w.extractLsb' 16 8) else if c = a + 3 then some (w.extractLsb' 24 8)
      else Memory.read s.mem c := by
  simp only [State.storeBytes_mem, bytesOfWord, Memory.writeBytes, Memory.read_write]
  grind

/-- The `MAXDEV` a write stores (10_state R32): a byte's minimum with a bound is a byte. -/
theorem State.writeMaxdev_maxdev (s : State) (w : Word) :
    (s.writeMaxdev w).maxdev.toNat = min (w.toNat % 256) (s.params.resultCap - 1) := by
  simp only [State.writeMaxdev, BitVec.toNat_ofNat, BitVec.extractLsb'_toNat, Nat.shiftRight_zero]
  omega

/-! ### The obligations on the window -/

/-- Settles O14: the register at the offset, range by range, and what it holds. -/
theorem idleReadReturnsTheRegister : Obligations.IdleReadReturnsTheRegister := by
  intro off v s hlegal hidle halign
  have hread {w : Word} := hostAccess_read_of_some hidle halign v (w := w)
  obtain ⟨-, ⟨-, -, hbuf⟩, -⟩ := hlegal
  refine ⟨fun h => hread ?_, fun h => hread ?_, fun h => hread ?_, fun h => hread ?_, fun h => hread ?_,
    fun h => hread ?_, fun h => hread ?_, fun h => hread ?_, fun h => ?_⟩
  · rw [State.readReg, s.regAt_of_cmd h]
  · rw [State.readReg, s.regAt_of_status h]
  · rw [State.readReg, s.regAt_of_data h]
  · rw [State.readReg, s.regAt_of_crc8r h]
  · rw [State.readReg, s.regAt_of_crc16r h]
  · rw [State.readReg, s.regAt_of_maxdev h]
  · rw [State.readReg, s.regAt_of_devcount h]
  · have hreg : s.regAt off = .reserved := by
      rw [s.regAt_of_le (by omega), if_neg (by simp only [State.bufEnd, bufBase]; omega),
        if_neg (by simp only [State.resEnd, resBase]; omega)]
    rw [State.readReg, hreg]
  · have hword : s.readReg off = s.memWord off.toNat := by
      rw [State.readReg, s.regAt_of_le (by omega)]
      split_ifs with hb hr
      · rfl
      · rfl
      · simp only [State.bufEnd, State.resEnd, bufBase, resBase] at hb hr
        omega
    refine ⟨fun b0 b1 b2 b3 h0 h1 h2 h3 => hread ?_, fun ⟨j, hj, hnone⟩ => ?_⟩
    · rw [hword, State.memWord_of_some h0 h1 h2 h3]
      rfl
    · exact hostAccess_read_of_none hidle halign v (by rw [hword, State.memWord_of_none hj hnone])

/-- Settles O16: the three registers a write changes, by where they lie. -/
theorem idleWriteEffects : Obligations.IdleWriteEffects := by
  intro off v s hidle halign
  refine ⟨_, hostAccess_write_idle hidle halign v, fun h => ?_, fun h => ?_, fun h => ?_, fun hcmd hmax hbuf => ?_⟩
  · rw [State.writeReg, s.regAt_of_cmd h]
    rfl
  · rw [State.writeReg, s.regAt_of_maxdev h]
    exact ⟨rfl, s.writeMaxdev_maxdev v⟩
  · rw [State.writeReg, s.regAt_of_buf h]
    exact ⟨rfl, fun a => read_storeWord s off.toNat a v⟩
  · obtain ⟨hreg, -⟩ | ⟨hreg, -⟩ | ⟨hreg, -⟩ | hsame := s.writeReg_cases off v
    · exact absurd (s.regAt_eq_cmd_iff.1 hreg) hcmd
    · exact absurd (s.regAt_eq_maxdev_iff.1 hreg) hmax
    · exact absurd (s.regAt_eq_buf_iff.1 hreg) hbuf
    · exact hsame

/-- Settles O18: the word is stored as its four bytes, and read back from them. -/
theorem bufferWordReadsBackLittleEndian : Obligations.BufferWordReadsBackLittleEndian := by
  intro k off v u s hidle hk hlt hoff
  have halign : off.toNat % 4 = 0 := by simp only [bufBase] at hoff; omega
  have hbuf : bufBase ≤ off.toNat ∧ off.toNat < s.bufEnd := by simp only [State.bufEnd]; omega
  have hwrite : s.writeReg off v = s.storeBytes off.toNat (bytesOfWord v) := by
    rw [State.writeReg, s.regAt_of_buf hbuf]
  have hbytes := fun c => read_storeWord s (bufBase + k) c v
  rw [← hoff, ← hwrite] at hbytes
  generalize ht : s.writeReg off v = t at hbytes
  have hregt : t.regAt off = .buf := by
    rw [← ht, hwrite]
    exact State.regAt_of_buf (s.storeBytes _ _) hbuf
  have hidlet : t.seq = .idle := by rw [← ht, hwrite]; exact hidle
  have h0 : Memory.read t.mem off.toNat = some (v.extractLsb' 0 8) := by simp [hbytes]
  have h1 : Memory.read t.mem (off.toNat + 1) = some (v.extractLsb' 8 8) := by simp [hbytes]
  have h2 : Memory.read t.mem (off.toNat + 2) = some (v.extractLsb' 16 8) := by simp [hbytes]
  have h3 : Memory.read t.mem (off.toNat + 3) = some (v.extractLsb' 24 8) := by simp [hbytes]
  refine ⟨t, ht ▸ hostAccess_write_idle hidle halign v, hostAccess_read_of_some hidlet halign u ?_, ?_⟩
  · rw [State.readReg, hregt]
    exact (State.memWord_of_some h0 h1 h2 h3).trans (congrArg some (wordOfBytes_extract v))
  · rw [hoff] at h0 h1 h2 h3
    exact ⟨h0, h1, h2, h3⟩

/-! ### The `STATUS` word -/

section
variable (busy presence speed : Bit) (result : BitVec 4)

/-- A `STATUS` word bit by bit. -/
theorem statusWord_getLsbD (i : Nat) :
    (statusWord busy presence speed result).getLsbD i =
      if i = 0 then busy else if i = 1 then presence else if i = 2 then speed else if i = 3 then false
      else result.getLsbD (i - 4) := by
  change BitVec.getLsbD (w := 24 + 4 + 1 + 1 + 1 + 1)
    (0#24 ++ result ++ 0#1 ++ BitVec.ofBool speed ++ BitVec.ofBool presence ++ BitVec.ofBool busy) i = _
  simp only [BitVec.getLsbD_append]
  match i with
  | 0 | 1 | 2 | 3 => simp
  | i + 4 =>
    by_cases hi : i < 4
    · simp [hi]
    · simp [hi, result.getLsbD_of_ge i (Nat.le_of_not_lt hi)]

theorem statusWord_result : (statusWord busy presence speed result).extractLsb' 4 4 = result := by
  apply BitVec.eq_of_getLsbD_eq
  intro i hi
  have hbit : (statusWord busy presence speed result).getLsbD (4 + i) = result.getLsbD i := by
    rw [statusWord_getLsbD, Nat.add_sub_cancel_left]
    iterate 4 rw [if_neg (by omega)]
  simpa [hi] using hbit

theorem statusWord_high : statusWord busy presence speed result >>> 8 = 0 := by
  apply BitVec.eq_of_getLsbD_eq
  intro i hi
  have hbit : (statusWord busy presence speed result).getLsbD (8 + i) = false := by
    rw [statusWord_getLsbD, result.getLsbD_of_ge _ (by omega)]
    iterate 4 rw [if_neg (by omega)]
  simpa using hbit

end

theorem Speed.bit_eq_decide (v : Speed) : v.bit = decide (v = .overdrive) := by cases v <;> rfl

theorem ResultCode.code_le_five (c : ResultCode) : c.code ≤ 5 := by cases c <;> decide

/-- Settles O20: the fields of `statusWord`, read at `STATUS`. -/
theorem statusWordFields : Obligations.StatusWordFields := by
  intro s hidle
  have hread : s.readReg 0x004 = some s.status := by rw [State.readReg, s.regAt_of_status rfl]
  have hbusy : s.busyBit = false := by simp [State.busyBit, hidle]
  refine ⟨hostAccess_read_of_some hidle rfl 0 hread, ?_, ?_, ?_, ?_,
    statusWord_result _ _ _ _, s.result.code_le_five, statusWord_high _ _ _ _, rfl, rfl, rfl, rfl, rfl, rfl⟩
  · exact (statusWord_getLsbD _ _ _ _ 0).trans hbusy
  · exact statusWord_getLsbD _ _ _ _ 1
  · exact (statusWord_getLsbD _ _ _ _ 2).trans s.speed.bit_eq_decide
  · exact statusWord_getLsbD _ _ _ _ 3

/-! ### Undefined operands -/

/-- A command over `BUF` with a legal `LEN` faults at the lowest undefined byte it consumes (R42, 60_exceptions R262). -/
theorem bufCommand_faults {n j : Nat} {s : State} (run : List Byte → State) (hj : j < n) (hnone : s.bufByte j = none)
    (hlow : ∀ i, i < j → (s.bufByte i).isSome) :
    bufCommand true n run s = .fault (.undefinedRead (.command s.cmd j)) := by
  obtain ⟨hlegal, -⟩ | ⟨-, i, -, hi, hilow, hfault⟩ | ⟨-, bs, hlen, hholds, -⟩ := bufCommand_cases true n run s
  · cases hlegal
  · have hij : i = j := by
      obtain hlt | heq | hgt := Nat.lt_trichotomy i j
      · exact absurd (hlow i hlt) (by simp [hi])
      · exact heq
      · exact absurd (hilow j hgt) (by simp [hnone])
    rw [hfault, hij]
  · have hdef := hholds j (hlen ▸ hj)
    rw [hnone, List.getElem?_eq_getElem (hlen ▸ hj)] at hdef
    cases hdef

/-- Settles O19: each of the six is a command over `BUF` whose `LEN` is within its limits. -/
theorem undefinedOperandFaults : Obligations.UndefinedOperandFaults := by
  intro s j hnone hlow
  refine ⟨fun hj => bufCommand_faults _ hj hnone hlow, fun n hn => ⟨fun hj => ?_, fun hwords hj => ?_⟩⟩
  · have hbytes : lenBytesLegal s.params.bufBytes n = true := decide_eq_true hn
    have hcheck : lenCheckLegal s.params.bufBytes n = true := by
      simp only [lenCheckLegal, Bool.and_eq_true, decide_eq_true_eq]
      omega
    simp only [exec, execBlock, execCrc8, execCrc8Table, execCrc8Check, hbytes, hcheck]
    exact ⟨bufCommand_faults _ hj hnone hlow, bufCommand_faults _ hj hnone hlow, bufCommand_faults _ hj hnone hlow,
      bufCommand_faults _ hj hnone hlow⟩
  · have hlegal : lenWordsLegal s.params.bufBytes n = true := decide_eq_true hwords
    simp only [exec, execCrc16, hlegal]
    exact bufCommand_faults _ hj hnone hlow

end Sys2Proof.Machine
end

section
/-!
PROOFS. The state after block reset (10_state R44) and the invariant: it holds there, and every agent's move keeps it.
-/

namespace Sys2Proof.Machine

/-! ### The state after block reset -/

/-- The reset value of `MAXDEV` fits its byte for every legal `RESULT_CAP` (R32, R44). -/
theorem State.resetOf_maxdev {p : Params} (h : p.legal) :
    (State.resetOf p).maxdev.toNat = min p.maxdevReset (p.resultCap - 1) := by
  obtain ⟨⟨-, hcap⟩, -⟩ := h
  simp only [State.resetOf, BitVec.toNat_ofNat]
  omega

theorem Params.owc_legal : Params.owc.legal := by decide

/-- Settles O7: `State.resetOf` field by field. -/
theorem resetHoldsTheListedValues : Obligations.ResetHoldsTheListedValues := by
  have hmaxdev : State.reset.maxdev.toNat = min 50 (Params.owc.resultCap - 1) :=
    State.resetOf_maxdev Params.owc_legal
  refine ⟨fun p hlegal => ?_, rfl, Params.owc_legal, rfl, hmaxdev, hmaxdev⟩
  exact ⟨rfl, rfl, rfl, rfl, rfl, rfl, rfl, rfl, rfl, State.resetOf_maxdev hlegal, rfl, fun _ _ => rfl,
    fun _ _ _ _ => rfl, rfl, rfl, rfl, rfl, rfl⟩

/-! ### The two halves of the invariant -/

/-- The half of the invariant about storage, with the bytes of memory as reads see them. -/
structure State.Stored (s : State) : Prop where
  paramsLegal : s.params.legal
  memWf : Memory.wf s.mem
  placed : ∀ a, (Memory.read s.mem a).isSome → (bufBase ≤ a ∧ a < s.bufEnd) ∨
    (resBase ≤ a ∧ a < s.resAddr s.devcount.toNat 0)
  defined : ∀ a, resBase ≤ a → a < s.resAddr s.devcount.toNat 0 → (Memory.read s.mem a).isSome
  maxdevLegal : s.maxdev.toNat ≤ s.params.resultCap - 1
  devcountLegal : s.devcount.toNat ≤ s.params.resultCap
  safeLegal : s.disc.safe.toNat ≤ s.params.resultCap
  stackEmpty : s.disc.stk = []

/-- The half of the invariant about the bus side, with the pull configuration its pin must have. -/
structure Wire.Rests (pull : PullConfig) (w : Wire) : Prop where
  released : w.pin.dir = .input
  latchLow : w.pin.latch = false
  pullSet : w.pin.pull = pull
  histLegal : legalHistory false w.hist = true
  histTimes : timesRise w.hist
  histPast : ∀ e ∈ w.hist, eventTime e ≤ w.now

theorem cellsRead_isSome_iff {β : Type} (l : List (Nat × β)) (a : Nat) :
    (cellsRead l a).isSome ↔ ∃ c ∈ l, c.1 = a := by
  induction l with
  | nil => simp [cellsRead]
  | cons d rest ih =>
    by_cases hd : d.1 = a <;> simp [cellsRead, hd, ih]

/-- What is listed in memory is what a read finds. -/
theorem Memory.forall_mem_iff (m : Memory) (p : Nat → Prop) :
    (∀ c ∈ m, p c.1) ↔ ∀ a, (Memory.read m a).isSome → p a := by
  constructor
  · intro h a ha
    obtain ⟨c, hc, rfl⟩ := (cellsRead_isSome_iff m a).1 ha
    exact h c hc
  · exact fun h c hc => h c.1 ((cellsRead_isSome_iff m c.1).2 ⟨c, hc, rfl⟩)

theorem State.inv_iff (s : State) : s.Inv ↔ s.Stored ∧ s.wire.Rests s.params.pullCfg := by
  have hplaced := Memory.forall_mem_iff s.mem fun a => (bufBase ≤ a ∧ a < s.bufEnd) ∨
    (resBase ≤ a ∧ a < resBase + s.params.addrBytes * s.devcount.toNat)
  constructor
  · intro h
    exact ⟨⟨h.paramsLegal, h.memWf, hplaced.1 h.memPlaced, h.resDefined, h.maxdevLegal, h.devcountLegal, h.safeLegal,
      h.stackEmpty⟩, ⟨h.released, h.latchLow, h.pullSet, h.histLegal, h.histTimes, h.histPast⟩⟩
  · rintro ⟨h, k⟩
    exact ⟨h.paramsLegal, h.memWf, hplaced.2 h.placed, h.defined, h.maxdevLegal, h.devcountLegal, h.safeLegal,
      h.stackEmpty, k.released, k.latchLow, k.pullSet, k.histLegal, k.histTimes, k.histPast⟩

/-- The invariant at block reset, for every legal choice of the parameters. -/
theorem State.resetOf_inv {p : Params} (h : p.legal) : (State.resetOf p).Inv where
  paramsLegal := h
  memWf := .nil
  memPlaced c hc := absurd hc List.not_mem_nil
  resDefined a h1 h2 := by
    change a < resBase + p.addrBytes * 0 at h2
    omega
  maxdevLegal := (State.resetOf_maxdev h).trans_le (Nat.min_le_right _ _)
  devcountLegal := Nat.zero_le _
  safeLegal := Nat.zero_le _
  stackEmpty := rfl
  released := rfl
  latchLow := rfl
  pullSet := rfl
  histLegal := rfl
  histTimes := .nil
  histPast e he := absurd he List.not_mem_nil

/-- Settles O8: nothing is defined, and no event has happened. -/
theorem invariantHoldsAtReset : Obligations.InvariantHoldsAtReset :=
  ⟨fun _ => State.resetOf_inv, State.resetOf_inv Params.owc_legal⟩

/-! ### What keeps the bus side's half -/

/-- A run of line sequences keeps the bus side at rest between commands (20_memory R73 to R75). -/
theorem Wire.Ran.rests {pull : PullConfig} {w w' : Wire} (h : w.Ran w') (k : w.Rests pull) : w'.Rests pull := by
  obtain ⟨evs, hhist, hlegal, htimes, hbetween⟩ := h.hist
  refine ⟨by rw [h.pin]; rfl, by rw [h.pin]; exact k.latchLow, by rw [h.pin]; exact k.pullSet, ?_, ?_, ?_⟩
  · rw [hhist]
    exact legalHistory_append evs k.histLegal hlegal
  · rw [hhist]
    exact List.pairwise_append.2
      ⟨k.histTimes, htimes, fun a ha b hb => (k.histPast a ha).trans (hbetween b hb).1⟩
  · intro e he
    rw [hhist] at he
    obtain he | he := List.mem_append.1 he
    · exact (k.histPast e he).trans h.later
    · exact (hbetween e he).2

/-! ### What keeps the storage half -/

/-- The storage half reads no more than these fields. -/
theorem State.Stored.congr {s t : State} (h : s.Stored) (hparams : t.params = s.params) (hmem : t.mem = s.mem)
    (hmaxdev : t.maxdev = s.maxdev) (hdev : t.devcount = s.devcount) (hdisc : t.disc = s.disc) : t.Stored where
  paramsLegal := hparams ▸ h.paramsLegal
  memWf := hmem ▸ h.memWf
  placed := by simpa only [State.bufEnd, State.resAddr, hparams, hmem, hdev] using h.placed
  defined := by simpa only [State.resAddr, hparams, hmem, hdev] using h.defined
  maxdevLegal := by simpa only [hparams, hmaxdev] using h.maxdevLegal
  devcountLegal := by simpa only [hparams, hdev] using h.devcountLegal
  safeLegal := by simpa only [hparams, hdisc] using h.safeLegal
  stackEmpty := hdisc ▸ h.stackEmpty

/-- Bytes stored within `BUF` keep the storage half (10_state R34). -/
theorem storeBytes_stored {s : State} (h : s.Stored) {a : Nat} (bs : List Byte) (hlo : bufBase ≤ a)
    (hhi : a + bs.length ≤ s.bufEnd) : (s.storeBytes a bs).Stored where
  paramsLegal := h.paramsLegal
  memWf := Memory.wf_writeBytes a bs h.memWf
  placed c hc := by
    by_cases hin : a ≤ c ∧ c < a + bs.length
    · exact .inl ⟨hlo.trans hin.1, hin.2.trans_le hhi⟩
    · rw [State.storeBytes_mem, Memory.read_writeBytes, if_neg hin] at hc
      exact h.placed c hc
  defined c h1 h2 := by
    have hend := State.bufEnd_le_resBase h.paramsLegal
    rw [State.storeBytes_mem, Memory.read_writeBytes_of_lt _ _ (.inr (by omega))]
    exact h.defined c h1 h2
  maxdevLegal := h.maxdevLegal
  devcountLegal := h.devcountLegal
  safeLegal := h.safeLegal
  stackEmpty := h.stackEmpty

theorem writeMaxdev_stored {s : State} (h : s.Stored) (w : Word) : (s.writeMaxdev w).Stored :=
  { h with maxdevLegal := (s.writeMaxdev_maxdev w).trans_le (Nat.min_le_right _ _) }

/-- The start of a pass leaves nothing defined but `BUF` (41_discovery R180): the entries below `DEVCOUNT` all lie in
`RES`. -/
theorem buf_of_read_startPass {s : State} (h : s.Stored) {a : Nat}
    (ha : (Memory.read (startPass s).mem a).isSome) : bufBase ≤ a ∧ a < s.bufEnd := by
  rw [read_startPass] at ha
  split_ifs at ha with hres
  · cases ha
  · obtain hbuf | ⟨hlo, hhi⟩ := h.placed a ha
    · exact hbuf
    · have hcap : s.params.addrBytes * s.devcount.toNat ≤ s.params.addrBytes * s.params.resultCap :=
        Nat.mul_le_mul_left _ h.devcountLegal
      simp only [State.resEnd] at hres
      simp only [State.resAddr] at hhi
      omega

/-- SEARCH keeps the storage half: the entries it appends are those below the new `DEVCOUNT`, at most `RESULT_CAP` of them
(R190). -/
theorem execSearch_stored {s t : State} (h : s.Stored) (hexec : execSearch s = .next t) : t.Stored := by
  obtain ⟨k, hk, happ, hsafe⟩ := execSearch_appended hexec
  have hkept := execSearch_kept hexec
  obtain ⟨⟨hcap1, hcap⟩, -⟩ := h.paramsLegal
  have hmax := h.maxdevLegal
  have hdev : t.devcount.toNat = k := by
    rw [happ.devcount, BitVec.toNat_ofNat]
    omega
  have hbuf : t.bufEnd = s.bufEnd := by rw [State.bufEnd, hkept.params]; rfl
  have hres : t.resAddr k 0 = (startPass s).resAddr k 0 := by rw [State.resAddr, happ.params]; rfl
  have hbase : (startPass s).resAddr 0 0 = resBase := rfl
  refine ⟨hkept.params ▸ h.paramsLegal, happ.wf (Memory.wf_clear _ _ h.memWf), fun a ha => ?_, fun a hlo hhi => ?_,
    ?_, ?_, ?_, ?_⟩
  · rw [hdev, hres, hbuf]
    by_cases hin : resBase ≤ a ∧ a < (startPass s).resAddr k 0
    · exact .inr hin
    · rw [happ.outside a hin] at ha
      exact .inl (buf_of_read_startPass h ha)
  · rw [hdev, hres] at hhi
    exact happ.inside a hlo hhi
  · rw [hkept.params, hkept.maxdev]
    exact hmax
  · rw [hdev, hkept.params]
    omega
  · rw [hkept.params]
    omega
  · obtain rfl := execSearch_next hexec
    obtain ⟨-, -, -, hstk, -⟩ := searchLoop_spec s.maxdev.toNat (startPass s)
    exact hstk

/-- Every command that completes keeps the storage half: all but BLOCK and SEARCH leave storage alone. -/
theorem exec_stored {i : Instr} {s t : State} (h : s.Stored) (hexec : exec i s = .next t) : t.Stored := by
  have hkept := exec_kept hexec
  by_cases hsearch : i = .search
  · subst hsearch
    exact execSearch_stored h hexec
  · have hdev := exec_devcount hexec hsearch
    have hdisc := exec_disc hexec hsearch
    by_cases hblock : ∃ n, i = .block n
    · obtain ⟨n, rfl⟩ := hblock
      obtain hmem | ⟨bs, hlen, hn, hmem⟩ := execBlock_mem hexec
      · exact h.congr hkept.params hmem hkept.maxdev hdev hdisc
      · have hroom : bufBase + bs.length ≤ s.bufEnd := by simp only [State.bufEnd]; omega
        exact (storeBytes_stored h bs le_rfl hroom).congr hkept.params hmem hkept.maxdev hdev hdisc
    · have hmem := exec_mem hexec hsearch fun n hn => hblock ⟨n, hn⟩
      exact h.congr hkept.params hmem hkept.maxdev hdev hdisc

/-! ### The agents' moves -/

/-- The invariant reads no more than these fields. -/
theorem State.Inv.congr {s t : State} (h : s.Inv) (hparams : t.params = s.params) (hmem : t.mem = s.mem)
    (hmaxdev : t.maxdev = s.maxdev) (hdev : t.devcount = s.devcount) (hdisc : t.disc = s.disc)
    (hwire : t.wire = s.wire) : t.Inv := by
  obtain ⟨hstored, hrests⟩ := s.inv_iff.1 h
  refine t.inv_iff.2 ⟨hstored.congr hparams hmem hmaxdev hdev hdisc, ?_⟩
  rw [hparams, hwire]
  exact hrests

/-- A command that completes keeps the invariant. -/
theorem exec_inv {i : Instr} {s t : State} (h : s.Inv) (hexec : exec i s = .next t) : t.Inv := by
  obtain ⟨hstored, hrests⟩ := s.inv_iff.1 h
  refine t.inv_iff.2 ⟨exec_stored hstored hexec, ?_⟩
  rw [(exec_kept hexec).params]
  exact (exec_ran hexec hrests.released).rests hrests

/-- A write of an aligned word to an idle OWC keeps the invariant: a word that begins in `BUF` lies in it, for `BUF_BYTES`
is a multiple of 4 (00_scope R8). -/
theorem writeReg_inv {s : State} (h : s.Inv) {off : Offset} (halign : off.toNat % 4 = 0) (w : Word) :
    (s.writeReg off w).Inv := by
  obtain ⟨hstored, hrests⟩ := s.inv_iff.1 h
  obtain ⟨-, heq⟩ | ⟨-, heq⟩ | ⟨hreg, heq⟩ | heq := s.writeReg_cases off w <;> rw [heq]
  · exact h.congr rfl rfl rfl rfl rfl rfl
  · exact (State.inv_iff _).2 ⟨writeMaxdev_stored hstored w, hrests⟩
  · obtain ⟨hlo, hhi⟩ := State.regAt_buf hreg
    obtain ⟨-, ⟨hmod, -⟩, -⟩ := h.paramsLegal
    have hroom : off.toNat + (bytesOfWord w).length ≤ s.bufEnd := by
      simp only [bytesOfWord, List.length_cons, List.length_nil, State.bufEnd, bufBase] at hhi ⊢
      omega
    exact (State.inv_iff _).2 ⟨storeBytes_stored hstored _ hlo hroom, hrests⟩
  · exact h

theorem Access.aligned_of_not_malformed {a : Access} (h : a.malformed = false) : a.off.toNat % 4 = 0 := by
  simp only [Access.malformed, Bool.or_eq_false_iff, bne_eq_false_iff_eq] at h
  exact h.2

/-- A host access that answers keeps the invariant: it draws a status, reads, or writes an aligned word. -/
theorem hostAccess_inv {a : Access} {s t : State} {w : Word} (h : s.Inv) (hacc : hostAccess a s = .next (t, w)) :
    t.Inv := by
  obtain ⟨-, ha⟩ | ⟨-, -, -, -, ha⟩ | ⟨-, -, -, ha⟩ | ⟨-, -, -, v, -, ha⟩ | ⟨-, -, -, -, ha⟩ | ⟨hform, -, -, ha⟩ :=
    hostAccess_cases a s <;> rw [ha] at hacc <;> cases hacc
  · exact h.congr rfl rfl rfl rfl rfl rfl
  · exact h
  · exact writeReg_inv h (Access.aligned_of_not_malformed hform) a.value

theorem hostStep_inv {s t : State} (h : s.Inv) (hstep : hostStep s = .next t) : t.Inv := by
  obtain ⟨a, u, w, hc, hacc, rfl⟩ | ⟨hc, rfl⟩ := hostStep_next hstep
  · exact (hostAccess_inv h hacc).congr rfl rfl rfl rfl rfl rfl
  · exact h.congr rfl rfl rfl rfl rfl rfl

theorem controllerStep_inv {s t : State} (h : s.Inv) (hstep : controllerStep s = .next t) : t.Inv := by
  obtain ⟨-, rfl⟩ | ⟨-, i, -, hexec⟩ | ⟨-, -, rfl⟩ := controllerStep_next hstep
  · exact h
  · exact exec_inv h hexec
  · exact h.congr rfl rfl rfl rfl rfl rfl

/-- A gap keeps the invariant: time passes over a released line (20_memory R73). -/
theorem passGap_inv {s : State} (h : s.Inv) (g : Nat) : (passGap g s).Inv := by
  unfold passGap
  split
  · obtain ⟨hstored, hrests⟩ := s.inv_iff.1 h
    exact (State.inv_iff _).2
      ⟨hstored.congr rfl rfl rfl rfl rfl, (Wire.delay_ran hrests.released g).rests hrests⟩
  · exact h

/-- Block reset leaves the invariant as at reset, the pin by its calls (70_reset_and_hazards R292). -/
theorem blockReset_inv {s : State} (h : s.Inv) (k d : Nat) : (blockReset k d s).Inv :=
  (State.resetOf_inv h.paramsLegal).congr rfl rfl rfl rfl rfl rfl

/-- Settles O9: the move of each agent keeps both halves of the invariant. -/
theorem stepKeepsTheInvariant : Obligations.StepKeepsTheInvariant := by
  intro s t h hstep
  have hturn : s.takeTurn.Inv := h.congr rfl rfl rfl rfl rfl rfl
  obtain ⟨-, hhost⟩ | ⟨-, hctrl⟩ | ⟨g, -, rfl⟩ | ⟨k, d, -, rfl⟩ := step_next hstep
  · exact hostStep_inv hturn hhost
  · exact controllerStep_inv hturn hctrl
  · exact passGap_inv hturn g
  · exact blockReset_inv hturn k d

end Sys2Proof.Machine
end

section
/-!
PROOFS. The accesses the window turns away or answers without effect (20_memory section 1): malformed ones (R61), those to
a running OWC (R69), reads (R66) and writes to read-only registers (R65); and the host's gap (R73).
-/

namespace Sys2Proof.Machine

/-! ### Malformed accesses -/

theorem Access.malformed_iff {a : Access} :
    a.malformed = true ↔ a.kind = .fetch ∨ a.width ≠ 4 ∨ a.off.toNat % 4 ≠ 0 := by
  simp [Access.malformed, or_assoc]

theorem Access.not_malformed {a : Access} (hkind : a.kind ≠ .fetch) (hwidth : a.width = 4)
    (halign : a.off.toNat % 4 = 0) : a.malformed = false := by
  rw [Bool.eq_false_iff, Ne, Access.malformed_iff]
  exact fun h => h.elim hkind fun h => h.elim (· hwidth) (· halign)

/-- The form of an access is checked before the state is looked at (60_exceptions R269). -/
theorem hostAccess_of_malformed {a : Access} (s : State) (h : a.malformed = true) :
    hostAccess a s = .fault (.hostAccess a.off a.width) := by
  rw [hostAccess, if_pos h]

/-- Settles O12: the three forms are those `Access.malformed` names. -/
theorem malformedAccessFaults : Obligations.MalformedAccessFaults :=
  fun _ s h => hostAccess_of_malformed s (Access.malformed_iff.2 h)

/-! ### Accesses to a running OWC -/

/-- The counterpart of `hostAccess_idle`: an access of good form reaches a running OWC. -/
theorem hostAccess_busy {a : Access} {s : State} (hform : a.malformed = false) (hbusy : s.seq = .busy) :
    hostAccess a s = busyAccess a s := by
  simp [hostAccess, hform, hbusy]

theorem busyAccess_of_status {a : Access} (s : State) (h : a.kind = .read ∧ a.off = statusOffset) :
    busyAccess a s = .next s.drawStatus := if_pos h

theorem busyAccess_of_other {a : Access} (s : State) (h : ¬ (a.kind = .read ∧ a.off = statusOffset)) :
    busyAccess a s = .fault (.busyAccess a.off a.kind) := if_neg h

/-- Whatever is drawn, `BUSY` reads 1 and the reserved bits 0 (10_state R24, R28). -/
theorem busyStatusWord_fixed_bits (draw : BitVec 6) :
    (busyStatusWord draw).getLsbD 0 = true ∧ (busyStatusWord draw).getLsbD 3 = false ∧ busyStatusWord draw >>> 8 = 0 :=
  ⟨statusWord_getLsbD _ _ _ _ 0, statusWord_getLsbD _ _ _ _ 3, statusWord_high _ _ _ _⟩

/-- Settles O13: `busyAccess` draws a status for the read of `STATUS` and faults for the rest. -/
theorem accessWhileBusy : Obligations.AccessWhileBusy := by
  intro a s hbusy hkind hwidth halign
  rw [hostAccess_busy (Access.not_malformed hkind hwidth halign) hbusy]
  exact ⟨fun hread hoff => ⟨_, busyAccess_of_status s ⟨hread, hoff⟩, busyStatusWord_fixed_bits _⟩,
    busyAccess_of_other s⟩

/-! ### Accesses without effect -/

/-- A read that answers reached a running OWC, and drew a status, or an idle one, and left it as it was. -/
theorem hostAccess_read_next {off : Offset} {width : Nat} {v : Word} {s t : State} {w : Word}
    (h : hostAccess ⟨.read, off, width, v⟩ s = .next (t, w)) :
    (s.seq = .busy ∧ t = { s with draws := s.draws + 1 }) ∨ (s.seq = .idle ∧ t = s) := by
  obtain ⟨-, ha⟩ | ⟨-, hbusy, -, -, ha⟩ | ⟨-, -, -, ha⟩ | ⟨-, hidle, -, _, -, ha⟩ | ⟨-, -, -, -, ha⟩ | ⟨-, -, hkind, -⟩ :=
    hostAccess_cases ⟨.read, off, width, v⟩ s
  case inr.inr.inr.inr.inr => cases hkind
  all_goals rw [ha] at h; cases h
  · exact .inl ⟨hbusy, rfl⟩
  · exact .inr ⟨hidle, rfl⟩

/-- The value field of a read has no part in it. -/
theorem hostAccess_read_value (off : Offset) (width : Nat) (v v' : Word) (s : State) :
    hostAccess ⟨.read, off, width, v⟩ s = hostAccess ⟨.read, off, width, v'⟩ s := rfl

/-- Settles O15: only a running OWC's counter moves, and an idle one is there to be read again. -/
theorem readsHaveNoSideEffect : Obligations.ReadsHaveNoSideEffect := by
  intro off width v s t w h
  obtain ⟨hbusy, rfl⟩ | ⟨-, rfl⟩ := hostAccess_read_next h
  · exact ⟨rfl, fun hidle => nomatch hbusy.symm.trans hidle⟩
  · exact ⟨rfl, fun _ => ⟨rfl, fun v' => (hostAccess_read_value off width v' v t).trans h⟩⟩

/-- Settles O17: the offsets named are those of neither `CMD`, `MAXDEV` nor `BUF`, the registers a write changes. -/
theorem readOnlyWritesAreIgnored : Obligations.ReadOnlyWritesAreIgnored := by
  intro off v s hidle halign hoff
  obtain ⟨t, hwrite, -, -, -, hsame⟩ := idleWriteEffects off v s hidle halign
  rw [hwrite, hsame (by omega) (by omega) (by omega)]

/-! ### Gaps -/

/-- A turn laid down is the next step's move. -/
theorem step_of_turns_cons {s : State} {turn : Turn} {rest : List Turn} (h : s.turns = turn :: rest) :
    step s = runTurn turn { s with turns := rest } := by
  simp only [step, State.nextTurn, State.takeTurn, h, List.tail_cons]

theorem passGap_idle {s : State} (g : Nat) (h : s.seq = .idle) : passGap g s = s.setWire (s.wire.delay g) := by
  rw [passGap, h]

theorem passGap_busy {s : State} (g : Nat) (h : s.seq = .busy) : passGap g s = s := by
  rw [passGap, h]

/-- Settles O59: the step is `passGap`, in the state with the turn taken off. -/
theorem gapPassesTime : Obligations.GapPassesTime := by
  intro s g rest hturns
  have hstep : step s = .next (passGap g { s with turns := rest }) := step_of_turns_cons hturns
  exact ⟨fun hidle => hstep.trans (congrArg _ (passGap_idle g hidle)),
    fun hbusy => hstep.trans (congrArg _ (passGap_busy g hbusy))⟩

end Sys2Proof.Machine
end

section
/-!
PROOFS. The command word (30_encoding): its fields (R90), what the decoder reads from them (R91 to R96), and the words
the assembler gives (R100).
-/

namespace Sys2Proof

/-! ### The fields of a word -/

section
variable (n : Half) (v op : Byte)

theorem opField_append : opField (n ++ v ++ op) = op := by
  rw [opField, BitVec.extractLsb'_append_eq_right]

theorem argField_append : argField (n ++ v ++ op) = v := by
  rw [argField, BitVec.extractLsb'_append_eq_of_le (by decide), BitVec.extractLsb'_append_eq_right]

theorem lenField_append : lenField (n ++ v ++ op) = n := by
  rw [lenField, BitVec.extractLsb'_append_eq_of_le (by decide)]
  exact BitVec.extractLsb'_append_eq_left

end

theorem opField_encode (i : Instr) : opField (encode i) = i.opcode := opField_append _ _ _

theorem argField_encode (i : Instr) : argField (encode i) = i.arg := argField_append _ _ _

theorem lenField_encode (i : Instr) : lenField (encode i) = i.len := lenField_append _ _ _

theorem opField_toNat (w : Word) : (opField w).toNat = w.toNat % 256 := by
  simp [opField]

theorem argBit_eq_getLsbD (w : Word) : argBit w = w.getLsbD 8 := by
  simp [argBit, argField]

/-- The mask of R91 keeps `OP`. -/
theorem opField_mask (w : Word) : opField (w &&& 0x000000FF) = opField w := by
  apply BitVec.eq_of_toNat_eq
  rw [opField_toNat, opField_toNat, BitVec.toNat_and]
  exact (congrArg (· % 256) (Nat.and_two_pow_sub_one_eq_mod w.toNat 8)).trans (Nat.mod_mod _ _)

/-! ### The decoder -/

/-- Command `i` is the one word `w` stands for: it has the opcode `OP`, and its operand is the field of R95's table. -/
def Instr.ReadFrom (i : Instr) (w : Word) : Prop :=
  opField w = i.opcode ∧
    match i with
    | .writeBit b | .setSpeed b => argBit w = b
    | .writeByte v | .touchByte v => argField w = v
    | .block n | .crc8 n | .crc8Table n | .crc8Check n | .crc16 n => lenField w = n
    | .reset | .readBit | .readByte | .speedSkip | .matchAddress | .skipAddress | .search => True

/-- The reserved opcodes (R96). -/
def ReservedOp (op : Byte) : Prop :=
  op.toNat = 0 ∨ (0x0D ≤ op.toNat ∧ op.toNat ≤ 0x0F) ∨ 0x14 ≤ op.toNat

theorem Instr.opcode_not_reserved (i : Instr) : ¬ ReservedOp i.opcode := by
  cases i <;> simp [ReservedOp, Instr.opcode]

/-- Everything the decoder can answer (R91, R95, R96). -/
theorem decode_cases (w : Word) :
    (∃ i : Instr, i.ReadFrom w ∧ decode w = .instr i) ∨
      (ReservedOp (opField w) ∧ decode w = .reserved (opField w)) := by
  unfold decode
  split
  case h_17 =>
    refine .inr ⟨?_, rfl⟩
    simp only [imp_false] at *
    unfold ReservedOp
    omega
  all_goals
    rename_i hop
    refine .inl ⟨_, ⟨?_, ?_⟩, rfl⟩
    · exact BitVec.eq_of_toNat_eq hop
    · trivial

/-- The decoder answers the command the word stands for. -/
theorem decode_of_readFrom {i : Instr} {w : Word} (h : i.ReadFrom w) : decode w = .instr i := by
  obtain ⟨hop, hoperand⟩ := h
  unfold decode
  rw [hop]
  cases i with
  | reset | readBit | readByte | speedSkip | matchAddress | skipAddress | search => rfl
  | writeBit _ | writeByte _ | touchByte _ | block _ | setSpeed _ | crc8 _ | crc8Table _ | crc8Check _ | crc16 _ =>
    rw [← hoperand]
    rfl

/-- A word of reserved `OP` is reserved, for it is no command's. -/
theorem decode_of_reserved {w : Word} (h : ReservedOp (opField w)) : decode w = .reserved (opField w) := by
  obtain ⟨i, ⟨hop, -⟩, -⟩ | ⟨-, hdecode⟩ := decode_cases w
  · exact absurd (hop ▸ h) i.opcode_not_reserved
  · exact hdecode

/-- A word is reserved when its `OP` is in the range of R96. -/
theorem decode_eq_reserved_iff (w : Word) : (∃ op, decode w = .reserved op) ↔ ReservedOp (opField w) := by
  refine ⟨fun ⟨op, hop⟩ => ?_, fun h => ⟨_, decode_of_reserved h⟩⟩
  obtain ⟨i, -, hdecode⟩ | ⟨hreserved, -⟩ := decode_cases w
  · cases hdecode.symm.trans hop
  · exact hreserved

/-- Any other word decodes to a command of its opcode. -/
theorem decode_of_not_reserved {w : Word} (h : ¬ ReservedOp (opField w)) :
    ∃ i : Instr, decode w = .instr i ∧ i.opcode = opField w := by
  obtain ⟨i, ⟨hop, -⟩, hdecode⟩ | ⟨hreserved, -⟩ := decode_cases w
  · exact ⟨i, hdecode, hop.symm⟩
  · exact absurd hreserved h

/-- A command is read back from its own word. -/
theorem Instr.readFrom_encode (i : Instr) : i.ReadFrom (encode i) := by
  refine ⟨opField_encode i, ?_⟩
  cases i with
  | writeBit b | setSpeed b =>
    dsimp only
    rw [argBit, argField_encode]
    cases b <;> rfl
  | writeByte _ | touchByte _ => exact argField_encode _
  | block _ | crc8 _ | crc8Table _ | crc8Check _ | crc16 _ => exact lenField_encode _
  | reset | readBit | readByte | speedSkip | matchAddress | skipAddress | search => trivial

/-- Settles O2: a command is read from its own word, and the decoder answers what is read. -/
theorem decodeOfEncodeIsTheCommand : Obligations.DecodeOfEncodeIsTheCommand :=
  fun i => decode_of_readFrom i.readFrom_encode

/-- Settles O3: whether `OP` is reserved, and the opcode of the command where it is not, are read from `OP` alone. -/
theorem opAloneSelectsTheCommand : Obligations.OpAloneSelectsTheCommand := by
  refine ⟨fun w => ?_, fun v w hmask => ?_⟩
  · by_cases hw : ReservedOp (opField w)
    · exact .inr ⟨decode_of_reserved hw, fun i hi => i.opcode_not_reserved (hi ▸ hw)⟩
    · exact .inl (decode_of_not_reserved hw)
  · have hop : opField v = opField w := by rw [← opField_mask v, hmask, opField_mask]
    by_cases hw : ReservedOp (opField w)
    · exact .inr (by rw [decode_of_reserved hw, decode_of_reserved (hop ▸ hw), hop])
    · obtain ⟨i, hv, hi⟩ := decode_of_not_reserved (hop ▸ hw : ¬ ReservedOp (opField v))
      obtain ⟨j, hw, hj⟩ := decode_of_not_reserved hw
      exact .inl ⟨i, j, hv, hw, by rw [hi, hop, hj]⟩

/-- Two words of equal `OP` that agree on the field their opcode uses stand for the same command. -/
theorem Instr.ReadFrom.congr {i : Instr} {v w : Word} (h : i.ReadFrom w) (hop : opField v = opField w)
    (hbit : opField w = 0x02 ∨ opField w = 0x08 → argBit v = argBit w)
    (harg : opField w = 0x04 ∨ opField w = 0x06 → argField v = argField w)
    (hlen : opField w = 0x07 ∨ opField w = 0x10 ∨ opField w = 0x11 ∨ opField w = 0x12 ∨ opField w = 0x13 →
      lenField v = lenField w) : i.ReadFrom v := by
  obtain ⟨hi, hoperand⟩ := h
  refine ⟨hop.trans hi, ?_⟩
  rw [hi] at hbit harg hlen
  cases i with
  | writeBit _ | setSpeed _ => exact (hbit (by simp [Instr.opcode])).trans hoperand
  | writeByte _ | touchByte _ => exact (harg (by simp [Instr.opcode])).trans hoperand
  | block _ | crc8 _ | crc8Table _ | crc8Check _ | crc16 _ => exact (hlen (by simp [Instr.opcode])).trans hoperand
  | reset | readBit | readByte | speedSkip | matchAddress | skipAddress | search => trivial

/-- Settles O4: the command one word stands for is the other's too, and a reserved `OP` is all that is answered. -/
theorem ignoredFieldsDoNotMatter : Obligations.IgnoredFieldsDoNotMatter := by
  intro v w (hop : opField v = opField w) hbit harg hlen
  rw [← argBit_eq_getLsbD, ← argBit_eq_getLsbD] at hbit
  obtain ⟨i, hi, hw⟩ | ⟨hreserved, hw⟩ := decode_cases w
  · rw [hw, decode_of_readFrom (hi.congr hop hbit harg hlen)]
  · rw [hw, decode_of_reserved (hop ▸ hreserved), hop]

/-! ### The assembler -/

section
variable (shift op : Nat) {bound v : Nat}

theorem asmOperand_of_lt (h : v < bound) : asmOperand bound shift op v = some (BitVec.ofNat 32 (v * 2 ^ shift + op)) :=
  if_pos h

theorem asmOperand_of_le (h : bound ≤ v) : asmOperand bound shift op v = none := if_neg (Nat.not_lt.2 h)

/-- A literal that fits its field, shifted into place and added to the opcode (R100). -/
theorem asmOperand_toNat {m : Nat} (x : BitVec m) (h : 2 ^ m ≤ bound) :
    asmOperand bound shift op x.toNat = some ((x.setWidth 32 <<< shift) + BitVec.ofNat 32 op) := by
  have hpow : BitVec.ofNat 32 (2 ^ shift) = BitVec.twoPow 32 shift := BitVec.eq_of_toNat_eq (by simp)
  rw [asmOperand_of_lt shift op (x.isLt.trans_le h), BitVec.ofNat_add, BitVec.ofNat_mul, BitVec.ofNat_toNat,
    BitVec.shiftLeft_eq_mul_twoPow, hpow]

end

/-- The assembler gives a command its word (R95, R100). -/
theorem assemble_asm (i : Instr) : assemble i.asm = some (encode i) := by
  cases i with
  | reset => exact Laws.AsmWord.reset
  | writeBit b => exact Laws.AsmWord.writeBit b
  | readBit => exact Laws.AsmWord.readBit
  | writeByte v => exact Laws.AsmWord.writeByte v
  | readByte => exact Laws.AsmWord.readByte
  | touchByte v => exact Laws.AsmWord.touchByte v
  | block n => exact Laws.AsmWord.block n
  | setSpeed b => exact Laws.AsmWord.setSpeed b
  | speedSkip => exact Laws.AsmWord.speedSkip
  | matchAddress => exact Laws.AsmWord.matchAddress
  | skipAddress => exact Laws.AsmWord.skipAddress
  | search => exact Laws.AsmWord.search
  | crc8 n => exact Laws.AsmWord.crc8 n
  | crc8Table n => exact Laws.AsmWord.crc8Table n
  | crc8Check n => exact Laws.AsmWord.crc8Check n
  | crc16 n => exact Laws.AsmWord.crc16 n

/-- Settles O6: the fixed words, then each operand by whether it fits its field. -/
theorem assemblyGivesTheListedWords : Obligations.AssemblyGivesTheListedWords := by
  refine ⟨⟨rfl, rfl, rfl, rfl, rfl, rfl, rfl, rfl, rfl⟩, fun v => ?_, fun b => ?_, ⟨rfl, rfl⟩, assemble_asm,
    fun n => ?_, fun v hv => ?_, fun v hv => ?_, fun v hv => ?_⟩
  · exact ⟨asmOperand_toNat 8 _ v le_rfl, asmOperand_toNat 8 _ v le_rfl⟩
  · exact ⟨assemble_asm (.writeBit b), assemble_asm (.setSpeed b)⟩
  · exact ⟨asmOperand_toNat 16 _ n le_rfl, asmOperand_toNat 16 _ n le_rfl, asmOperand_toNat 16 _ n le_rfl,
      asmOperand_toNat 16 _ n le_rfl, asmOperand_toNat 16 _ n le_rfl⟩
  · exact ⟨asmOperand_of_le 8 _ hv, asmOperand_of_le 8 _ hv⟩
  · exact ⟨asmOperand_of_le 8 _ hv, asmOperand_of_le 8 _ hv⟩
  · exact ⟨asmOperand_of_le 16 _ hv, asmOperand_of_le 16 _ hv, asmOperand_of_le 16 _ hv, asmOperand_of_le 16 _ hv,
      asmOperand_of_le 16 _ hv⟩

/-- Settles O1: the decoder run on each listed word. -/
theorem listedWordsDecode : Obligations.ListedWordsDecode := by
  unfold Obligations.ListedWordsDecode
  decide

end Sys2Proof
end

section
/-!
PROOFS. Bad commands (30_encoding R96, R97): the `LEN` limits, and the end of a bad command.
-/

namespace Sys2Proof.Machine

/-- A `LEN` out of its limits is a bad command, whatever `BUF` holds (R97, 60_exceptions R269). -/
theorem bufCommand_bad {legal : Bool} (h : legal = false) (n : Nat) (run : List Byte → State) (s : State) :
    bufCommand legal n run s = .next s.badCommand := by
  rw [h]
  rfl

theorem lenBytesLegal_eq_false {bufBytes : Nat} {n : Half} (h : bufBytes < n.toNat) :
    lenBytesLegal bufBytes n = false :=
  decide_eq_false (Nat.not_le.2 h)

theorem lenCheckLegal_eq_false {bufBytes : Nat} {n : Half} (h : n.toNat = 0 ∨ bufBytes < n.toNat) :
    lenCheckLegal bufBytes n = false := by
  simp only [lenCheckLegal, Bool.and_eq_false_iff, decide_eq_false_iff_not]
  omega

theorem lenWordsLegal_eq_false {bufBytes : Nat} {n : Half} (h : bufBytes < 2 * n.toNat) :
    lenWordsLegal bufBytes n = false :=
  decide_eq_false (Nat.not_le.2 h)

/-- Settles O5: the controller and the commands over `BUF` end a bad command alike. -/
theorem badCommandChangesOnlyTheResult : Obligations.BadCommandChangesOnlyTheResult := by
  refine ⟨fun w => ?_, fun s op hbusy hop => ?_, fun s n h => ?_, fun s n h => ?_, fun s n h => ?_, rfl⟩
  · rw [← opField_toNat]
    exact decode_eq_reserved_iff w
  · rw [controllerStep_of_busy hbusy, hop]
    rfl
  · have hlen := lenBytesLegal_eq_false h
    exact ⟨bufCommand_bad hlen _ _ s, bufCommand_bad hlen _ _ s, bufCommand_bad hlen _ _ s⟩
  · exact bufCommand_bad (lenCheckLegal_eq_false h) _ _ s
  · exact bufCommand_bad (lenWordsLegal_eq_false h) _ _ s

end Sys2Proof.Machine
end

section
/-!
PROOFS. The host's instructions (30_encoding R101), and the step on the host's turn (00_scope R7, 70_reset_and_hazards
R301).
-/

namespace Sys2Proof.Machine

section
variable {a : Access} {s : State}

/-- A transfer whose access answers and whose word is dropped moves the host to its next instruction. -/
theorem hostTransfer_none {u : State} {w : Word} (h : hostAccess a s = .next (u, w)) :
    hostTransfer a none s = .next (u.setHost (u.host.goto (u.host.pc + 1))) := by
  rw [hostTransfer, h]

/-- A transfer that keeps the word it read writes it to the register first. -/
theorem hostTransfer_some {u : State} {w : Word} (r : Nat) (h : hostAccess a s = .next (u, w)) :
    hostTransfer a (some r) s = .next (u.setHost ((u.host.setReg r w).goto (u.host.pc + 1))) := by
  rw [hostTransfer, h]

theorem hostTransfer_fault {f : Fault} (keep : Option Nat) (h : hostAccess a s = .fault f) :
    hostTransfer a keep s = .fault f := by
  rw [hostTransfer, h]

end

/-- The host's turn comes when it is laid down, or when none is and no command runs (70_reset_and_hazards R301): the
counterpart of `State.nextTurn_eq_controller`. -/
theorem State.nextTurn_eq_host {s : State} (hturn : s.turns.head? = some .host ∨ (s.turns = [] ∧ s.seq = .idle)) :
    s.nextTurn = .host := by
  unfold State.nextTurn
  obtain hhead | ⟨hnil, hidle⟩ := hturn
  · obtain ⟨rest, hcons⟩ := List.head?_eq_some_iff.1 hhead
    simp [hcons]
  · simp [hnil, hidle]

/-- On the host's turn a step is the host's move, in the state with that turn taken off. -/
theorem step_eq_hostStep {s : State} (hturn : s.turns.head? = some .host ∨ (s.turns = [] ∧ s.seq = .idle)) :
    step s = hostStep s.takeTurn := by
  rw [step, State.nextTurn_eq_host hturn, runTurn]

theorem hostStep_of_some {s : State} {i : HostInstr} (h : s.host.prog[s.host.pc]? = some i) :
    hostStep s = hostExec i s := by
  rw [hostStep, h]

theorem hostStep_of_none {s : State} (h : s.host.prog[s.host.pc]? = none) : hostStep s = .next s := by
  rw [hostStep, h]

/-- `ld` keeps the word read in its register and leaves the others (R101). -/
theorem hostExec_ld {s u : State} {off : Offset} {w : Word} (r : Nat)
    (h : hostAccess ⟨.read, off, 4, 0⟩ s = .next (u, w)) :
    ∃ t, hostExec (.ld r off) s = .next t ∧ t = u.setHost t.host ∧ t.host.pc = u.host.pc + 1 ∧
      t.host.prog = u.host.prog ∧ t.host.reg r = w ∧ ∀ q, q ≠ r → t.host.reg q = u.host.reg q :=
  ⟨_, hostTransfer_some r h, rfl, rfl, rfl, (u.host.reg_setReg r r w).trans (if_pos rfl),
    fun q hq => (u.host.reg_setReg r q w).trans (if_neg hq)⟩

theorem hostExec_ifNonzero (s : State) (r : Nat) (m : Word) (l : Nat) :
    hostExec (.ifNonzero r m l) s =
      .next (s.setHost { s.host with pc := if s.host.reg r &&& m ≠ 0 then l else s.host.pc + 1 }) := by
  simp [hostExec, hostBranch, HostCpu.goto]

theorem hostExec_ifZero (s : State) (r : Nat) (m : Word) (l : Nat) :
    hostExec (.ifZero r m l) s =
      .next (s.setHost { s.host with pc := if s.host.reg r &&& m = 0 then l else s.host.pc + 1 }) := by
  simp [hostExec, hostBranch, HostCpu.goto]

/-- Settles O21: each instruction by what its access answers, and the step by whether the program has one. -/
theorem hostInstructionsFollowTheListing : Obligations.HostInstructionsFollowTheListing := by
  refine ⟨fun _ _ _ _ => hostTransfer_none, fun _ _ _ _ => hostTransfer_none, fun _ _ _ r _ => hostExec_ld r,
    fun s r m l => ⟨hostExec_ifNonzero s r m l, hostExec_ifZero s r m l⟩, fun _ => rfl,
    fun _ _ _ _ => hostTransfer_none, fun _ _ _ _ => hostTransfer_fault none, fun _ _ _ _ => hostTransfer_fault none,
    fun _ _ r _ => hostTransfer_fault (some r), fun _ _ _ => hostTransfer_fault none, fun _ _ => rfl,
    fun s hturn => ?_⟩
  rw [step_eq_hostStep hturn]
  exact ⟨fun i hi => hostStep_of_some (s := s.takeTurn) hi, fun hnone => hostStep_of_none (s := s.takeTurn) hnone⟩

end Sys2Proof.Machine
end

section
/-!
PROOFS. The transport commands (40_bus_transport section 3): the bytes a sequence of samples makes (R129), each command's
next state, and the times of the sequences with this hardware's profiles (R120).
-/

namespace Sys2Proof.Machine

/-! ### Bytes as lists of bits -/

@[simp] theorem bitsOfByte_length (v : Byte) : (bitsOfByte v).length = 8 := rfl

theorem bitsOfByte_getElem? (v : Byte) {k : Nat} (hk : k < 8) : (bitsOfByte v)[k]? = some (v.getLsbD k) := by
  simp [bitsOfByte, hk]

theorem bitsOfByte_injective : Function.Injective bitsOfByte := by
  intro v w h
  apply BitVec.eq_of_getLsbD_eq
  intro k hk
  rw [← Option.some_inj, ← bitsOfByte_getElem? v hk, h, bitsOfByte_getElem? w hk]

theorem bitsOfBytes_length (bs : List Byte) : (bitsOfBytes bs).length = 8 * bs.length := by
  simp [bitsOfBytes, List.length_flatMap, Nat.mul_comm]

/-- Shifting a bit in drops the lowest bit and appends the new one (R129). -/
theorem bitsOfByte_shiftIn (acc : Byte) (b : Bit) : bitsOfByte (shiftIn acc b) = (bitsOfByte acc).tail ++ [b] := by
  cases b <;> simp [bitsOfByte_cons, shiftIn, bitByte]

theorem bitsOfByte_foldl_shiftIn (bits : List Bit) (acc : Byte) :
    bitsOfByte (bits.foldl shiftIn acc) = (bitsOfByte acc ++ bits).drop bits.length := by
  induction bits generalizing acc with
  | nil => simp
  | cons b bs ih => rw [List.foldl_cons, ih, bitsOfByte_shiftIn]; simp [bitsOfByte_cons]

/-- After eight shifts the accumulator is the bits shifted in, the first of them in bit 0 (R129). -/
theorem bitsOfByte_foldl_eight {bits : List Bit} (h : bits.length = 8) (acc : Byte) :
    bitsOfByte (bits.foldl shiftIn acc) = bits := by
  rw [bitsOfByte_foldl_shiftIn, h, List.drop_left' (bitsOfByte_length acc)]

/-! ### Touch slots -/

/-- `TouchByteSeq` in one piece (R130): its slots, and the byte of what they sense. -/
theorem Wire.touchByteSeq_eq (bus : Bus) (P : TimingProfile) (v : Byte) (w : Wire) :
    ∃ (slots : List TouchSlot) (acc : Byte), slots.map Prod.fst = bitsOfByte v ∧ slots.map Prod.snd = bitsOfByte acc ∧
      touchAnswered bus P slots w.hist w.now ∧
      w.touchByteSeq bus P v = (acc, { pin := w.pin.setInputDirection, now := w.now + touchTime P slots,
                                       hist := w.hist ++ touchTrace P slots w.now }) := by
  obtain ⟨slots, hsent, hanswered, hseq⟩ := Wire.touchBits_eq bus P (v.getLsbD 0) (bitsOfByte v).tail 0 w
  have hlen : (slots.map Prod.snd).length = 8 := by
    rw [List.length_map, ← List.length_map (f := Prod.fst), hsent]
    rfl
  exact ⟨slots, _, hsent, (bitsOfByte_foldl_eight hlen 0).symm, hanswered, hseq⟩

theorem Wire.readByteSeq_eq_touchByteSeq (bus : Bus) (P : TimingProfile) (w : Wire) :
    w.readByteSeq bus P = w.touchByteSeq bus P 0xFF := by
  rw [Wire.readByteSeq, Wire.readBits_eq_touchBits]
  rfl

/-- Touch slots that send zeros are write slots, and sense zeros (R130). -/
theorem Wire.touchBits_zeros (bus : Bus) (P : TimingProfile) (n : Nat) (acc : Byte) (w : Wire) :
    w.touchBits bus P (List.replicate n false) acc =
      ((List.replicate n false).foldl shiftIn acc, w.writeBits P (List.replicate n false)) := by
  induction n generalizing acc w with
  | zero => rfl
  | succ n ih => exact ih (shiftIn acc false) (w.writeBitSeq P false)

theorem Wire.touchByteSeq_zero (bus : Bus) (P : TimingProfile) (w : Wire) :
    w.touchByteSeq bus P 0 = (0, w.writeByteSeq P 0) := Wire.touchBits_zeros bus P 8 0 w

/-- Slots that all send 1 take the time of as many read slots. -/
theorem touchTime_ones (P : TimingProfile) {n : Nat} {slots : List TouchSlot}
    (h : slots.map Prod.fst = List.replicate n true) : touchTime P slots = n * readSlotTime P := by
  induction slots generalizing n with
  | nil => cases n with
    | zero => simp [touchTime]
    | succ n => cases h
  | cons slot rest ih => cases n with
    | zero => cases h
    | succ n =>
      obtain ⟨hslot, hrest⟩ := List.cons.inj h
      rw [touchTime, ih hrest, hslot, touchSlotTime, if_pos rfl, Nat.succ_mul, Nat.add_comm]

/-- A slot senses 1 only where it sends 1 (R130). -/
theorem sent_of_sensed {bus : Bus} {P : TimingProfile} {slots : List TouchSlot} {h : List LineEvent} {t : Nat}
    (hanswered : touchAnswered bus P slots h t) {slot : TouchSlot} (hmem : slot ∈ slots) (hsensed : slot.2 = true) :
    slot.1 = true := by
  induction slots generalizing h t with
  | nil => cases hmem
  | cons first rest ih =>
    obtain ⟨hfirst, hrest⟩ := hanswered
    obtain rfl | hmem := List.mem_cons.1 hmem
    · rw [hsensed] at hfirst
      exact (Bool.and_eq_true_iff.1 hfirst.symm).1
    · exact ih hrest hmem

/-- The byte sensed has no bit the byte sent has not (R130). -/
theorem sensed_and_not_sent {bus : Bus} {P : TimingProfile} {slots : List TouchSlot} {h : List LineEvent} {t : Nat}
    {v acc : Byte} (hanswered : touchAnswered bus P slots h t) (hsent : slots.map Prod.fst = bitsOfByte v)
    (hsensed : slots.map Prod.snd = bitsOfByte acc) : acc &&& ~~~v = 0 := by
  apply BitVec.eq_of_getLsbD_eq
  intro k hk
  have hv : (slots.map Prod.fst)[k]? = some (v.getLsbD k) := by rw [hsent, bitsOfByte_getElem? v hk]
  have hacc : (slots.map Prod.snd)[k]? = some (acc.getLsbD k) := by rw [hsensed, bitsOfByte_getElem? acc hk]
  rw [List.getElem?_map, Option.map_eq_some_iff] at hv hacc
  obtain ⟨slot, hslot, hv⟩ := hv
  obtain ⟨slot', hslot', hacc⟩ := hacc
  obtain rfl : slot = slot' := Option.some.inj (hslot.symm.trans hslot')
  have himp := sent_of_sensed hanswered (List.mem_of_getElem? hslot)
  rw [hv, hacc] at himp
  cases hbit : acc.getLsbD k with
  | false => simp [hbit]
  | true => simp [himp hbit]

/-! ### The slot times of this hardware -/

theorem State.profile_owc {s : State} (h : s.params.timings = Timings.owc) :
    s.profile = profileOf Timings.owc s.speed := by
  rw [State.profile, h]

/-! ### RESET and the commands of one slot -/

/-- Settles O22: `ResetSeq` in one piece, by what its sample read. -/
theorem resetDetectsPresence : Obligations.ResetDetectsPresence := by
  intro s P h at' v
  constructor
  · have hend : s.wire.now + resetTimeOf P = at' + P.presenceRecoveryDelay := by
      simp only [resetTimeOf, at']
      omega
    have hseq : s.wire.resetSeq s.bus P = (!v, ⟨s.wire.pin.setInputDirection, at' + P.presenceRecoveryDelay,
        h ++ [.smp at' v]⟩) := by rw [Wire.resetSeq_eq, hend]
    rw [exec, execReset, State.resetSeq_eq, hseq]
    clear_value v
    cases v <;> rfl
  · intro howc
    have hP : P = profileOf Timings.owc s.speed := State.profile_owc howc
    rw [hP]
    cases s.speed <;> rfl

/-- Settles O23: `WriteBitSeq` in one piece, its times by the bit. -/
theorem writeBitMakesOneSlot : Obligations.WriteBitMakesOneSlot := by
  intro b s P pulse rest
  have hslot : writeSlotTime P b = pulse + rest := by cases b <;> rfl
  constructor
  · rw [exec, execWriteBit, Wire.writeBitSeq_eq, hslot, ← Nat.add_assoc]
    rfl
  · intro howc
    have hP : P = profileOf Timings.owc s.speed := State.profile_owc howc
    rw [← hslot, hP]
    cases s.speed
    · cases b <;> rfl
    · cases b <;> rfl

/-- Settles O24: `ReadBitSeq` in one piece, `DATA` its bit. -/
theorem readBitSamplesOneSlot : Obligations.ReadBitSamplesOneSlot := by
  intro s P h at' v
  constructor
  · have hsample : s.wire.now + readSampleTime P = at' := (Nat.add_assoc _ _ _).symm
    have hend : s.wire.now + readSlotTime P = at' + P.readSampleWindow := by
      rw [← hsample]
      exact (Nat.add_assoc _ _ _).symm
    have hseq := Wire.readBitSeq_eq s.bus P s.wire
    rw [hsample, hend] at hseq
    rw [exec, execReadBit, hseq]
    rfl
  · intro howc
    have hP : P = profileOf Timings.owc s.speed := State.profile_owc howc
    rw [hP]
    cases s.speed
    · exact ⟨rfl, rfl⟩
    · exact ⟨rfl, rfl⟩

/-! ### Commands of one byte -/

/-- Settles O25: `WriteByteSeq` in one piece. -/
theorem writeByteSendsLowBitFirst : Obligations.WriteByteSendsLowBitFirst := by
  intro v s bits
  rw [exec, execWriteByte, Wire.writeByteSeq_eq, bitsOfByte_cons]
  rfl

/-- Settles O27: `TouchByteSeq` in one piece, its byte bit by bit. -/
theorem touchByteSensesTheOnes : Obligations.TouchByteSensesTheOnes := by
  intro v s
  obtain ⟨slots, acc, hsent, hsensed, hanswered, hseq⟩ := Wire.touchByteSeq_eq s.bus s.profile v s.wire
  refine ⟨slots, hsent, hanswered, acc, fun k hk => ?_, sensed_and_not_sent hanswered hsent hsensed, ?_⟩
  · rw [hsensed, bitsOfByte_getElem? acc hk]
  · rw [exec, execTouchByte, hseq]
    rfl

/-- Settles O28: READ_BYTE touches the byte of eight ones. -/
theorem touchOfAllOnesIsARead : Obligations.TouchOfAllOnesIsARead := by
  intro s
  rw [exec, exec, execTouchByte, execReadByte, Wire.readByteSeq_eq_touchByteSeq]

/-- Settles O26: READ_BYTE as the touch of eight ones, whose slots are read slots. -/
theorem readByteAssemblesTheSamples : Obligations.ReadByteAssemblesTheSamples := by
  intro s
  obtain ⟨slots, hsent, hanswered, acc, hbits, -, hexec⟩ := touchByteSensesTheOnes 0xFF s
  have hones : slots.map Prod.fst = List.replicate 8 true := hsent
  rw [touchOfAllOnesIsARead s, touchTime_ones _ hones] at hexec
  exact ⟨slots, hones, hanswered, acc, hbits, hexec⟩

/-- Settles O29: the touch of eight zeros makes the write slots of eight zeros and senses the byte 0. -/
theorem touchOfZeroIsAWrite : Obligations.TouchOfZeroIsAWrite := by
  intro s
  refine ⟨_, rfl, ?_⟩
  rw [exec, execTouchByte, Wire.touchByteSeq_zero]
  rfl

/-- Settles O34: SKIP_ADDRESS and WRITE_BYTE send the same byte by the same sequence. -/
theorem skipAddressSendsItsByte : Obligations.SkipAddressSendsItsByte :=
  fun s => ⟨rfl, _, writeByteSendsLowBitFirst 0xCC s, rfl, rfl⟩

/-! ### SET_SPEED and SPEED_SKIP -/

/-- Settles O31: SET_SPEED sets the field that selects the profile. -/
theorem setSpeedSelectsTheProfile : Obligations.SetSpeedSelectsTheProfile := by
  refine fun b s => ⟨rfl, fun t h => ?_⟩
  cases h
  cases b <;> rfl

theorem Wire.resetSeq_now (bus : Bus) (P : TimingProfile) (w : Wire) :
    (w.resetSeq bus P).2.now = w.now + resetTimeOf P := by
  rw [Wire.resetSeq_eq]

theorem Wire.writeByteSeq_now (P : TimingProfile) (v : Byte) (w : Wire) :
    (w.writeByteSeq P v).now = w.now + writeTime P (bitsOfByte v) := by
  rw [Wire.writeByteSeq_eq]

/-- What SPEED_SKIP does after a first reset that found presence (R148). -/
theorem speedUpgrade_next (s : State) :
    let r := (s.wire.writeByteSeq s.profile speedUpgradeByte).resetSeq s.bus s.params.timings.od
    speedUpgrade s = { s with wire := r.2, presence := r.1, speed := .overdrive, data := bitByte r.1
                              result := if r.1 then .ok else .noPresence, seq := .idle } := rfl

/-- Settles O32: by the presence of the first reset; the times are those of the sequences run. -/
theorem speedSkipSwitchesToOverdrive : Obligations.SpeedSkipSwitchesToOverdrive := by
  intro s T r1 r2
  have hreset : (s.setSpeed .standard).resetSeq = (r1.1, ((s.setSpeed .standard).setWire r1.2).setPresence r1.1) :=
    rfl
  have hfirst : r1.2.now = s.wire.now + resetTimeOf T.std := Wire.resetSeq_now _ _ _
  have hsecond : r2.2.now = r1.2.now + writeTime T.std (bitsOfByte 0x3C) + resetTimeOf T.od := by
    rw [Wire.resetSeq_now, Wire.writeByteSeq_now]
  refine ⟨fun habsent => ?_, fun hpresent => ?_, hfirst, hsecond, fun howc => ?_⟩
  · rw [exec, execSpeedSkip, hreset, habsent]
    rfl
  · rw [exec, execSpeedSkip, hreset, hpresent]
    exact congrArg _ (speedUpgrade_next _)
  · rw [hsecond, hfirst, howc]
    exact ⟨rfl, rfl⟩

/-! ### Commands over `BUF` -/

/-- A block touched is a fold over its bytes, in index order (R146). -/
theorem Wire.foldl_touchByteSeq (bus : Bus) (P : TimingProfile) (bs out : List Byte) (w : Wire) :
    bs.foldl (fun (r : List Byte × Wire) b => (r.1 ++ [(r.2.touchByteSeq bus P b).1], (r.2.touchByteSeq bus P b).2))
        (out, w) = (out ++ (w.touchBytesSeq bus P bs).1, (w.touchBytesSeq bus P bs).2) := by
  induction bs generalizing out w with
  | nil => simp [Wire.touchBytesSeq]
  | cons b bs ih => simp [Wire.touchBytesSeq, ih]

theorem lenBytesLegal_eq_true {bufBytes : Nat} {n : Half} (h : n.toNat ≤ bufBytes) : lenBytesLegal bufBytes n = true :=
  decide_eq_true h

/-- Settles O30: BLOCK runs on the bytes `BUF` holds, and stores as many from `BUF[0]` on. -/
theorem blockTouchesTheBufferInPlace : Obligations.BlockTouchesTheBufferInPlace := by
  intro n bs s hlegal hlen hholds
  have hexec : exec (.block n) s =
      .next (((s.setWire (s.wire.touchBytesSeq s.bus s.profile bs).2).storeBytes bufBase
        (s.wire.touchBytesSeq s.bus s.profile bs).1).complete .ok) := by
    rw [exec, execBlock, lenBytesLegal_eq_true hlegal, ← hlen]
    exact bufCommand_runs _ hholds
  refine ⟨_, hexec, rfl, fun k hk => ?_, fun a ha => read_execBlock hexec ha, ?_, ?_⟩
  · exact State.storeBytes_bufHolds _ _ k (by rwa [Wire.touchBytesSeq_length, hlen])
  · rintro rfl
    obtain rfl : bs = [] := List.eq_nil_of_length_eq_zero hlen
    rfl
  · rw [Wire.foldl_touchByteSeq]
    rfl

/-- Settles O33: MATCH_ADDRESS runs on the bytes `BUF` holds, and sends them after its own. -/
theorem matchAddressSendsTheAddress : Obligations.MatchAddressSendsTheAddress := by
  intro bs s hlen hholds
  have hcount : (bitsOfBytes (0x55 :: bs)).length = 8 + 8 * s.params.addrBytes := by
    rw [bitsOfBytes_length, List.length_cons, hlen]
    omega
  refine ⟨?_, hcount, fun hbits => ?_⟩
  · rw [exec, execMatchAddress, ← hlen, bufCommand_runs _ hholds, Wire.writeBytesSeq_eq]
    rfl
  · rw [hcount, Params.addrBytes, hbits]

end Sys2Proof.Machine
end

section
/-!
PROOFS. The loopback oracle (40_bus_transport R153): the slots a fixture reads in a history, and what it answers after
write slots.
-/

namespace Sys2Proof.Machine

/-! ### The slots of a history -/

/-- History `h` reads as these slots once the next `LOW` ends the last of them: the slots it makes are these and then those
of what follows. -/
def ReadsAs (T : Timings) (h : List LineEvent) (sl : List Slot) : Prop :=
  ∀ t rest, slotsOf T (h ++ .low t :: rest) = sl ++ slotsFrom T t none rest

theorem readsAs_nil (T : Timings) : ReadsAs T [] [] := fun _ _ => rfl

section
variable {T : Timings} {h : List LineEvent} {sl : List Slot} (hreads : ReadsAs T h sl)
include hreads

/-- A low pulse without a sample is a write slot (R126). -/
theorem ReadsAs.writeSlot (t d : Nat) :
    ReadsAs T (h ++ [.low t, .rel (t + d)]) (sl ++ [.write (pulseBit T d)]) := by
  intro u rest
  have hslot := hreads t (.rel (t + d) :: .low u :: rest)
  simpa [slotsFrom] using hslot

/-- A low pulse shorter than a reset's and a sample are a read slot (R127). -/
theorem ReadsAs.readSlot {d : Nat} (hpulse : isResetPulse T d = false) (t u : Nat) (v : Bit) :
    ReadsAs T (h ++ [.low t, .rel (t + d)] ++ [.smp u v]) (sl ++ [.read v]) := by
  intro u' rest
  have hslot := hreads t (.rel (t + d) :: .smp u v :: .low u' :: rest)
  simpa [slotsFrom, hpulse] using hslot

/-- A slot still open is not among the completed ones. -/
theorem ReadsAs.slotsOf_open (t d : Nat) : slotsOf T (h ++ [.low t, .rel (t + d)]) = sl := by
  simpa [slotsFrom] using hreads t [.rel (t + d)]

end

/-- The pulse in progress is the last one. -/
theorem openPulse_append (low pulse : Nat) (h : List LineEvent) (t d : Nat) :
    openPulse low pulse (h ++ [.low t, .rel (t + d)]) = d := by
  induction h generalizing low pulse with
  | nil => simp [openPulse]
  | cons e rest ih => cases e <;> exact ih _ _

/-! ### The bits the loopback oracle still has to answer with -/

/-- The bits written and not yet read back. -/
def unreadBits (sl : List Slot) : List Bit := (writtenBits sl).drop (readCount sl)

theorem writtenBits_append (sl sl' : List Slot) : writtenBits (sl ++ sl') = writtenBits sl ++ writtenBits sl' := by
  induction sl with
  | nil => rfl
  | cons slot rest ih => cases slot <;> simp [writtenBits, ih]

theorem readCount_append (sl sl' : List Slot) : readCount (sl ++ sl') = readCount sl + readCount sl' := by
  induction sl with
  | nil => simp [readCount]
  | cons slot rest ih => cases slot with
    | read v =>
      simp only [List.cons_append, readCount, ih]
      omega
    | busReset v | write b => exact ih

@[simp] theorem unreadBits_append_read (sl : List Slot) (v : Bit) :
    unreadBits (sl ++ [.read v]) = (unreadBits sl).tail := by
  simp [unreadBits, writtenBits_append, readCount_append, writtenBits, readCount]

theorem unreadBits_writes (bits : List Bit) : unreadBits (bits.map .write) = bits := by
  have hcount : readCount (bits.map .write) = 0 := by
    induction bits with
    | nil => rfl
    | cons b bs ih => exact ih
  have hbits : writtenBits (bits.map .write) = bits := by
    induction bits with
    | nil => rfl
    | cons b bs ih => exact congrArg (b :: ·) (ih hcount)
  rw [unreadBits, hcount, hbits, List.drop_zero]

/-- A read slot in progress is answered with the first unread bit (R153). -/
theorem loopbackAnswer_eq {T : Timings} {h : List LineEvent} {sl : List Slot} (hreads : ReadsAs T h sl) {d : Nat}
    (hpulse : isResetPulse T d = false) (t : Nat) :
    loopbackAnswer T (h ++ [.low t, .rel (t + d)]) = (unreadBits sl).headD true := by
  rw [loopbackAnswer, atPresenceSample, openPulse_append, hpulse, if_neg Bool.false_ne_true, hreads.slotsOf_open,
    unreadBits, List.headD_eq_head?_getD, List.head?_drop, List.getD_eq_getElem?_getD]

/-! ### Profiles the oracle can read -/

section
variable {T : Timings} (hT : readableTimings T) (v : Speed)
include hT

theorem isResetPulse_writeRecoveryLow : isResetPulse T (profileOf T v).writeRecoveryLow = false := by
  obtain ⟨hreset, -⟩ := hT
  have hne {r : Nat} (hr : r ∈ [T.std.resetLowDuration, T.od.resetLowDuration]) :
      ((profileOf T v).writeRecoveryLow == r) = false :=
    beq_false_of_ne (hreset r hr _ (by cases v <;> simp [profileOf])).symm
  rw [isResetPulse, hne (by simp), hne (by simp), Bool.or_false]

/-- A write slot's pulse tells its bit (R153). -/
theorem pulseBit_writePulse (b : Bit) : pulseBit T (writePulse (profileOf T v) b) = b := by
  obtain ⟨-, hwrite⟩ := hT
  cases b with
  | true => cases v <;> simp [pulseBit, writePulse, profileOf]
  | false =>
    have hne {a : Nat} (ha : a ∈ [T.std.writeRecoveryLow, T.od.writeRecoveryLow]) :
        ((profileOf T v).write0Low == a) = false :=
      beq_false_of_ne (hwrite a ha _ (by cases v <;> simp [profileOf])).symm
    rw [writePulse, if_neg Bool.false_ne_true, pulseBit, hne (by simp), hne (by simp), Bool.or_false]

/-! ### Sequences under the loopback oracle -/

theorem writeBitSeq_readsAs (b : Bit) {w : Wire} {sl : List Slot} (hreads : ReadsAs T w.hist sl) :
    ReadsAs T (w.writeBitSeq (profileOf T v) b).hist (sl ++ [.write b]) := by
  have hslot := hreads.writeSlot w.now (writePulse (profileOf T v) b)
  rw [pulseBit_writePulse hT] at hslot
  rwa [Wire.writeBitSeq_eq]

theorem writeBits_readsAs (bits : List Bit) {w : Wire} {sl : List Slot} (hreads : ReadsAs T w.hist sl) :
    ReadsAs T (w.writeBits (profileOf T v) bits).hist (sl ++ bits.map .write) := by
  induction bits generalizing w sl with
  | nil => simpa [Wire.writeBits] using hreads
  | cons b bs ih => simpa [Wire.writeBits] using ih (writeBitSeq_readsAs hT v b hreads)

/-- A read slot gets the first unread bit, which is then read. -/
theorem readBitSeq_loopback {w : Wire} {sl : List Slot} {b : Bit} {bs : List Bit} (hreads : ReadsAs T w.hist sl)
    (hunread : unreadBits sl = b :: bs) :
    (w.readBitSeq (.loopback T) (profileOf T v)).1 = b ∧
      ReadsAs T (w.readBitSeq (.loopback T) (profileOf T v)).2.hist (sl ++ [.read b]) := by
  have hpulse := isResetPulse_writeRecoveryLow hT v
  have hanswer := loopbackAnswer_eq hreads hpulse w.now
  rw [hunread, List.headD_cons] at hanswer
  rw [Wire.readBitSeq_eq]
  dsimp only [Bus.answer]
  rw [hanswer]
  exact ⟨rfl, hreads.readSlot hpulse _ _ b⟩

/-- Read slots shift the unread bits into the accumulator (R129, R153). -/
theorem readBits_loopback (bits : List Bit) {w : Wire} {sl : List Slot} (acc : Byte) (hreads : ReadsAs T w.hist sl)
    (hunread : unreadBits sl = bits) :
    (w.readBits (.loopback T) (profileOf T v) bits.length acc).1 = bits.foldl shiftIn acc := by
  induction bits generalizing w sl acc with
  | nil => rfl
  | cons b bs ih =>
    obtain ⟨hbit, hnext⟩ := readBitSeq_loopback hT v hreads hunread
    rw [List.length_cons, Wire.readBits, hbit]
    exact ih _ hnext (by rw [unreadBits_append_read, hunread, List.tail_cons])

end

/-- Settles O35: the slots written are all unread, and the reads that follow take them in order. -/
theorem loopbackReturnsWhatWasWritten : Obligations.LoopbackReturnsWhatWasWritten := by
  intro s hbus hT hhist
  have hstart : ReadsAs s.params.timings s.wire.hist [] := hhist ▸ readsAs_nil _
  refine ⟨fun b => ⟨_, _, rfl, rfl, ?_⟩, fun x => ⟨_, _, rfl, rfl, ?_⟩⟩
  · obtain ⟨hbit, -⟩ := readBitSeq_loopback hT s.speed (writeBitSeq_readsAs hT s.speed b hstart)
      (unreadBits_writes [b])
    rw [← hbus] at hbit
    exact congrArg bitByte hbit
  · apply bitsOfByte_injective
    have hwritten := writeBits_readsAs hT s.speed (bitsOfByte x) hstart
    have hbyte := readBits_loopback hT s.speed (bitsOfByte x) 0 hwritten (unreadBits_writes _)
    rw [← hbus] at hbyte
    exact (congrArg bitsOfByte hbyte).trans (bitsOfByte_foldl_eight (bitsOfByte_length x) 0)

end Sys2Proof.Machine
end

section
/-!
PROOFS. The discovery engine's operations (41_discovery): the discrepancy rule (R182), the entry a walk appends
(R183), the bits of a walk (R181) and what they do to the stack (R186).
-/

namespace Sys2Proof.Machine

/-! ### The discrepancy rule -/

section
variable {depth : Nat} {i : Fin 64} {d : Discovery}

theorem chooseDirection_of_nil (hstk : d.stk = []) : chooseDirection depth i d = (false, d.push depth i) := by
  rw [chooseDirection, hstk]

variable {t : Fin 64} {rest : List (Fin 64)} (hstk : d.stk = t :: rest)
include hstk

theorem chooseDirection_of_eq (hit : i = t) : chooseDirection depth i d = (true, { d with stk := rest }) := by
  rw [chooseDirection, hstk]
  exact if_pos hit

theorem chooseDirection_of_gt (hti : t < i) : chooseDirection depth i d = (false, d.push depth i) := by
  rw [chooseDirection, hstk]
  exact (if_neg hti.ne').trans (if_pos hti)

theorem chooseDirection_of_lt (hit : i < t) : chooseDirection depth i d = (d.waddr.getLsbD i.val, d) := by
  rw [chooseDirection, hstk]
  exact (if_neg hit.ne).trans (if_neg hit.not_gt)

end

/-- Settles O48: the four cases of the rule, with a push onto a stack that has room. -/
theorem directionFollowsTheStack : Obligations.DirectionFollowsTheStack := by
  refine fun depth i d => ⟨fun hstk hroom => ?_, fun t rest hstk => ⟨chooseDirection_of_eq hstk, fun hti hroom => ?_,
    chooseDirection_of_lt hstk⟩⟩
  · rw [chooseDirection_of_nil hstk, Discovery.push_of_lt i (by simpa [Discovery.sp, hstk] using hroom), hstk]
  · rw [chooseDirection_of_gt hstk hti, Discovery.push_of_lt i hroom, hstk]

/-! ### The entry appended -/

theorem bytesOfAddress_getElem? {n j : Nat} (a : Address) (hj : j < n) :
    (bytesOfAddress n a)[j]? = some (a.extractLsb' (8 * j) 8) := by
  simp [bytesOfAddress, hj]

/-- A byte of the appended entry is that byte of the working address (R183). -/
theorem appendAddress_resByte (s : State) {j : Nat} (hj : j < s.params.addrBytes) :
    (appendAddress s).resByte s.devcount.toNat j = some (s.disc.waddr.extractLsb' (8 * j) 8) := by
  have hread : (appendAddress s).resByte s.devcount.toNat j = _ :=
    Memory.read_writeBytes s.mem (s.resAddr s.devcount.toNat 0) (s.resAddr s.devcount.toNat j)
      (bytesOfAddress s.params.addrBytes s.disc.waddr)
  have hat : s.resAddr s.devcount.toNat j = s.resAddr s.devcount.toNat 0 + j := rfl
  rw [hread, bytesOfAddress_length, hat, if_pos (by omega), Nat.add_sub_cancel_left, bytesOfAddress_getElem? _ hj]

/-- Address bit `i` is bit `i mod 8` of byte `i div 8` (20_memory R76). -/
theorem byte_getLsbD_mod (a : Address) (i : Nat) : (a.extractLsb' (8 * (i / 8)) 8).getLsbD (i % 8) = a.getLsbD i := by
  rw [BitVec.getLsbD_extractLsb', decide_eq_true (Nat.mod_lt i (by decide)), Bool.true_and, Nat.div_add_mod]

theorem byte_toNat_add_one {b : Byte} (h : b.toNat < 255) : (b + 1).toNat = b.toNat + 1 := by bv_omega

/-- Settles O49: the bytes stored are the entry `DEVCOUNT` counts to. -/
theorem appendedEntryIsTheWorkingAddress : Obligations.AppendedEntryIsTheWorkingAddress := by
  intro s hdev t
  refine ⟨fun j hj => appendAddress_resByte s hj, fun i hi => ?_, byte_toNat_add_one hdev, fun a ha => ?_, rfl⟩
  · rw [appendAddress_resByte s (by omega), Option.map_some, byte_getLsbD_mod]
  · exact (appendAddress_appended s).outside a (by rwa [State.resAddr_succ])

/-! ### The bits of a walk -/

/-- How a walk goes on at bit `i` after the two reads of the bit returned something else than two ones (R181). -/
theorem walkBits_cons_of_not_both (depth : Nat) {bus : Bus} {P : TimingProfile} (i : Fin 64) (is : List (Fin 64))
    (d : Discovery) {w : Wire} {b bc : Bit × Wire} (hb : w.readBitSeq bus P = b) (hbc : b.2.readBitSeq bus P = bc)
    (h : (b.1 && bc.1) = false) :
    walkBits depth bus P (i :: is) d w =
      let c := walkDirection depth i b.1 bc.1 d
      walkBits depth bus P is (c.2.record i c.1) (bc.2.writeBitSeq P c.1) := by
  subst hb hbc
  simp only [walkBits, h, Bool.false_eq_true, if_false]

/-- Two ones end a walk right after the second read (R181, R264). -/
theorem walkBits_cons_of_both (depth : Nat) {bus : Bus} {P : TimingProfile} (i : Fin 64) (is : List (Fin 64))
    (d : Discovery) {w : Wire} {b bc : Bit × Wire} (hb : w.readBitSeq bus P = b) (hbc : b.2.readBitSeq bus P = bc)
    (h : (b.1 && bc.1) = true) :
    walkBits depth bus P (i :: is) d w = { result := .protocolViolation, disc := d, wire := bc.2 } := by
  subst hb hbc
  simp only [walkBits, h, if_true]

/-- One bit of a walk: it ends there, or goes on with the direction taken recorded and written back. -/
theorem walkBits_cons_cases (depth : Nat) (bus : Bus) (P : TimingProfile) (i : Fin 64) (is : List (Fin 64))
    (d : Discovery) (w : Wire) :
    let b := w.readBitSeq bus P
    let bc := b.2.readBitSeq bus P
    let c := walkDirection depth i b.1 bc.1 d
    (b.1 = true ∧ bc.1 = true ∧
      walkBits depth bus P (i :: is) d w = { result := .protocolViolation, disc := d, wire := bc.2 }) ∨
    walkBits depth bus P (i :: is) d w = walkBits depth bus P is (c.2.record i c.1) (bc.2.writeBitSeq P c.1) := by
  intro b bc c
  by_cases h : (b.1 && bc.1) = true
  · obtain ⟨hb, hbc⟩ := Bool.and_eq_true_iff.1 h
    exact .inl ⟨hb, hbc, walkBits_cons_of_both depth i is d rfl rfl h⟩
  · exact .inr (walkBits_cons_of_not_both depth i is d rfl rfl (Bool.eq_false_iff.2 h))

/-- Once the bits before are done, a walk goes on with the bits after. -/
theorem walkBits_append (depth : Nat) (bus : Bus) (P : TimingProfile) (before after : List (Fin 64)) (d : Discovery)
    (w : Wire) (hdone : (walkBits depth bus P before d w).result = .done) :
    walkBits depth bus P (before ++ after) d w =
      walkBits depth bus P after (walkBits depth bus P before d w).disc (walkBits depth bus P before d w).wire := by
  induction before generalizing d w with
  | nil => rfl
  | cons i is ih =>
    cases hboth : (w.readBitSeq bus P).1 && ((w.readBitSeq bus P).2.readBitSeq bus P).1 with
    | true =>
      rw [walkBits_cons_of_both depth i is d rfl rfl hboth] at hdone
      cases hdone
    | false =>
      rw [walkBits_cons_of_not_both depth i is d rfl rfl hboth] at hdone ⊢
      rw [List.cons_append, walkBits_cons_of_not_both depth i (is ++ after) d rfl rfl hboth]
      exact ih _ _ hdone

/-- The positions from `i` on, in order. -/
abbrev PositionsFrom (i : Nat) (is : List (Fin 64)) : Prop := is.map Fin.val = List.range' i is.length

theorem PositionsFrom.cons {i : Nat} {x : Fin 64} {is : List (Fin 64)} (h : PositionsFrom i (x :: is)) :
    x.val = i ∧ PositionsFrom (x.val + 1) is := by
  rw [PositionsFrom, List.map_cons, List.length_cons, List.range'_succ, List.cons.injEq] at h
  obtain ⟨rfl, h⟩ := h
  exact ⟨rfl, h⟩

theorem bitPositions_length (n : Nat) : (bitPositions n).length = min n 64 := by
  rw [bitPositions, List.length_take, List.length_finRange]

/-- The positions of an address are those from 0 on. -/
theorem bitPositions_from (n : Nat) : PositionsFrom 0 (bitPositions n) := by
  rw [PositionsFrom, bitPositions_length, bitPositions, List.map_take, List.map_coe_finRange_eq_range, List.take_range,
    List.range_eq_range']

theorem val_lt_of_mem_bitPositions {n : Nat} {i : Fin 64} (h : i ∈ bitPositions n) : i.val < n := by
  have hmem := List.mem_map_of_mem (f := Fin.val) h
  rw [bitPositions_from, bitPositions_length, List.mem_range'_1] at hmem
  omega

/-! ### The stack -/

/-- The stack's entries rise strictly from the bottom to the top (R186 a). -/
abbrev Rises (stk : List (Fin 64)) : Prop := stk.Pairwise fun a b => b < a

/-- What rises and lies below a bound has no more entries than there are positions below it (R186 b). -/
theorem Rises.length_le {stk : List (Fin 64)} (h : Rises stk) {n : Nat} (hn : ∀ i ∈ stk, i.val < n) :
    stk.length ≤ n := by
  have hnodup : (stk.map Fin.val).Nodup := (h.imp fun hlt => hlt.ne').map Fin.val fun _ _ hne => Fin.val_ne_of_ne hne
  have hsub : stk.map Fin.val ⊆ List.range n := by
    intro k hk
    obtain ⟨i, hi, rfl⟩ := List.mem_map.1 hk
    exact List.mem_range.2 (hn i hi)
  simpa using (hnodup.subperm hsub).length_le

/-- Position `i` is above every entry of the stack. -/
abbrev Above (i : Fin 64) (stk : List (Fin 64)) : Prop := ∀ t ∈ stk, t < i

theorem Rises.above_of_gt {t i : Fin 64} {rest : List (Fin 64)} (h : Rises (t :: rest)) (hti : t < i) :
    Above i (t :: rest) := by
  intro u hu
  obtain rfl | hu := List.mem_cons.1 hu
  · exact hti
  · exact (List.rel_of_pairwise_cons h hu).trans hti

/-- A position above a rising stack finds room in it where there is an entry for each position. -/
theorem Rises.push_eq {d : Discovery} (h : Rises d.stk) {depth : Nat} {i : Fin 64} (habove : Above i d.stk)
    (hi : i.val < depth) : d.push depth i = { d with stk := i :: d.stk } :=
  Discovery.push_of_lt i ((h.length_le habove).trans_lt hi)

/-- A discrepancy above the stack is a new branch point: its 0 is taken, and it is pushed (R182). -/
theorem chooseDirection_of_above {depth : Nat} {i : Fin 64} {d : Discovery} (h : Rises d.stk) (habove : Above i d.stk)
    (hi : i.val < depth) : chooseDirection depth i d = (false, { d with stk := i :: d.stk }) := by
  rw [← h.push_eq habove hi]
  cases hstk : d.stk with
  | nil => exact chooseDirection_of_nil hstk
  | cons t rest => exact chooseDirection_of_gt hstk (habove t (hstk ▸ List.mem_cons_self))

/-- What the discrepancy rule may do to a rising stack: nothing, a pop, or a push of a position above it while there is
room. -/
theorem chooseDirection_stk (depth : Nat) (i : Fin 64) {d : Discovery} (h : Rises d.stk) :
    (chooseDirection depth i d).2.stk = d.stk ∨ (chooseDirection depth i d).2.stk = d.stk.tail ∨
      (d.sp < depth ∧ Above i d.stk ∧ (chooseDirection depth i d).2.stk = i :: d.stk) := by
  have hpush (habove : Above i d.stk) : (d.push depth i).stk = d.stk ∨ (d.push depth i).stk = d.stk.tail ∨
      (d.sp < depth ∧ Above i d.stk ∧ (d.push depth i).stk = i :: d.stk) := by
    obtain hroom | hfull := Nat.lt_or_ge d.sp depth
    · exact .inr (.inr ⟨hroom, habove, congrArg Discovery.stk (Discovery.push_of_lt i hroom)⟩)
    · exact .inl (congrArg Discovery.stk (Discovery.push_of_le i hfull))
  cases hstk : d.stk with
  | nil =>
    rw [chooseDirection_of_nil hstk, ← hstk]
    exact hpush (hstk ▸ List.forall_mem_nil _)
  | cons t rest =>
    rw [hstk] at h
    obtain hit | rfl | hti := lt_trichotomy i t
    · rw [chooseDirection_of_lt hstk hit]
      exact .inl hstk
    · rw [chooseDirection_of_eq hstk rfl]
      exact .inr (.inl rfl)
    · rw [chooseDirection_of_gt hstk hti, ← hstk]
      exact hpush (hstk ▸ h.above_of_gt hti)

theorem walkDirection_stk (depth : Nat) (i : Fin 64) (b bc : Bit) {d : Discovery} (h : Rises d.stk) :
    (walkDirection depth i b bc d).2.stk = d.stk ∨ (walkDirection depth i b bc d).2.stk = d.stk.tail ∨
      (d.sp < depth ∧ Above i d.stk ∧ (walkDirection depth i b bc d).2.stk = i :: d.stk) := by
  unfold walkDirection
  split
  · exact .inl rfl
  · exact chooseDirection_stk depth i h

theorem walkDirection_rises (depth : Nat) (i : Fin 64) (b bc : Bit) {d : Discovery} (h : Rises d.stk) :
    Rises (walkDirection depth i b bc d).2.stk := by
  obtain hsame | hpopped | ⟨-, habove, hpushed⟩ := walkDirection_stk depth i b bc h
  · rwa [hsame]
  · exact hpopped ▸ h.tail
  · exact hpushed ▸ List.pairwise_cons.2 ⟨habove, h⟩

/-- What pops and such pushes keep, the bits of a walk keep. -/
theorem walkBits_stk_induction {p : List (Fin 64) → Prop} {depth : Nat} {is : List (Fin 64)}
    (hpop : ∀ stk, p stk → p stk.tail)
    (hpush : ∀ i ∈ is, ∀ stk, stk.length < depth → Above i stk → p stk → p (i :: stk)) (bus : Bus) (P : TimingProfile)
    {d : Discovery} (w : Wire) (hrise : Rises d.stk) (h : p d.stk) :
    Rises (walkBits depth bus P is d w).disc.stk ∧ p (walkBits depth bus P is d w).disc.stk := by
  induction is generalizing d w with
  | nil => exact ⟨hrise, h⟩
  | cons i is ih =>
    obtain ⟨-, -, hend⟩ | hgo := walkBits_cons_cases depth bus P i is d w
    · rw [hend]
      exact ⟨hrise, h⟩
    · rw [hgo]
      refine ih (fun j hj => hpush j (List.mem_cons_of_mem i hj)) _ (walkDirection_rises _ _ _ _ hrise) ?_
      rw [Discovery.record_stk]
      obtain hsame | hpopped | ⟨hroom, habove, hpushed⟩ := walkDirection_stk depth i (w.readBitSeq bus P).1
        ((w.readBitSeq bus P).2.readBitSeq bus P).1 hrise
      · rwa [hsame]
      · exact hpopped ▸ hpop _ h
      · exact hpushed ▸ hpush i List.mem_cons_self _ hroom habove h

theorem walkBits_rises (depth : Nat) (bus : Bus) (P : TimingProfile) (is : List (Fin 64)) {d : Discovery} (w : Wire)
    (h : Rises d.stk) : Rises (walkBits depth bus P is d w).disc.stk := by
  obtain ⟨hrises, -⟩ := walkBits_stk_induction (p := fun _ => True) (is := is) (depth := depth) (fun _ _ => trivial)
    (fun _ _ _ _ _ _ => trivial) bus P w h trivial
  exact hrises

/-- With an entry for every position the capacity of the stack takes no part in the discrepancy rule. -/
theorem chooseDirection_depth {depth depth' : Nat} {i : Fin 64} {d : Discovery} (h : Rises d.stk) (hi : i.val < depth)
    (hi' : i.val < depth') : chooseDirection depth' i d = chooseDirection depth i d := by
  by_cases habove : Above i d.stk
  · rw [chooseDirection_of_above h habove hi', chooseDirection_of_above h habove hi]
  · cases hstk : d.stk with
    | nil => simp [Above, hstk] at habove
    | cons t rest =>
      rw [hstk] at h habove
      obtain hit | hit := lt_or_eq_of_le (not_lt.1 fun hti => habove (h.above_of_gt hti))
      · rw [chooseDirection_of_lt hstk hit, chooseDirection_of_lt hstk hit]
      · rw [chooseDirection_of_eq hstk hit, chooseDirection_of_eq hstk hit]

/-- Nor does it take part in a walk over such positions (R186). -/
theorem walkBits_depth {depth depth' : Nat} (bus : Bus) (P : TimingProfile) {is : List (Fin 64)}
    (his : ∀ i ∈ is, i.val < depth ∧ i.val < depth') {d : Discovery} (w : Wire) (hrise : Rises d.stk) :
    walkBits depth' bus P is d w = walkBits depth bus P is d w := by
  induction is generalizing d w with
  | nil => rfl
  | cons i is ih =>
    obtain ⟨⟨hi, hi'⟩, his⟩ := List.forall_mem_cons.1 his
    have hdir (b bc : Bit) : walkDirection depth' i b bc d = walkDirection depth i b bc d := by
      rw [walkDirection, walkDirection, chooseDirection_depth hrise hi hi']
    simp only [walkBits, hdir]
    split
    · rfl
    · exact ih his _ (walkDirection_rises _ _ _ _ hrise)

/-- Settles O50: pops and pushes above the top keep each part. -/
theorem stackStaysRising : Obligations.StackStaysRising := by
  intro depth n bus P d w hrise e
  have hrises := walkBits_rises depth bus P (bitPositions n) w hrise
  refine ⟨hrises, hrises.length_le fun i _ => i.isLt, fun hlow => ?_, fun hroom => ?_, fun depth' hn hn' => ?_⟩
  · obtain ⟨-, hlow⟩ : _ ∧ ∀ i ∈ e.disc.stk, i.val < n := walkBits_stk_induction
      (p := fun stk => ∀ i ∈ stk, i.val < n) (fun _ h i hi => h i (List.mem_of_mem_tail hi))
      (fun i hi _ _ _ h => List.forall_mem_cons.2 ⟨val_lt_of_mem_bitPositions hi, h⟩) bus P w hrise hlow
    exact ⟨hlow, hrises.length_le hlow⟩
  · obtain ⟨-, hcap⟩ : _ ∧ e.disc.stk.length ≤ depth := walkBits_stk_induction (p := fun stk => stk.length ≤ depth)
      (fun stk h => by rw [List.length_tail]; omega) (fun _ _ _ hlt _ _ => hlt) bus P w hrise hroom
    exact hcap
  · exact walkBits_depth bus P (fun i hi => have hlt := val_lt_of_mem_bitPositions hi; ⟨by omega, by omega⟩) w hrise

end Sys2Proof.Machine
end

section
/-!
PROOFS. The rounds of a search pass (41_discovery R180): which of them a pass makes, how its last one ends it, and
with that how SEARCH completes (R185), on an empty bus (R189) and on two ones (R264).
-/

namespace Sys2Proof.Machine

/-! ### Walks -/

/-- A walk whose reset finds no presence ends there (R181). -/
theorem searchWalk_of_absent {s : State} (h : (s.wire.resetSeq s.bus s.profile).1 = false) :
    searchWalk s = (.noPresence, { s with wire := (s.wire.resetSeq s.bus s.profile).2, presence := false }) := by
  rw [searchWalk, State.resetSeq_eq, h]
  rfl

/-- A walk whose reset finds presence sends the search command and runs the bits of an address (R181). -/
theorem searchWalk_of_present {s : State} {r : Bit × Wire} (hr : s.wire.resetSeq s.bus s.profile = r)
    (h : r.1 = true) :
    searchWalk s =
      let e := walkBits s.params.stackDepth s.bus s.profile (bitPositions s.params.addrBits) s.disc
        (r.2.writeByteSeq s.profile searchByte)
      (e.result, { s with wire := e.wire, presence := true, disc := e.disc }) := by
  rw [searchWalk, State.resetSeq_eq, hr, h]
  rfl

theorem walkBits_result_ne_noPresence (depth : Nat) (bus : Bus) (P : TimingProfile) (is : List (Fin 64))
    (d : Discovery) (w : Wire) : (walkBits depth bus P is d w).result ≠ .noPresence := by
  induction is generalizing d w with
  | nil => exact WalkResult.noConfusion
  | cons i is ih =>
    obtain ⟨-, -, hend⟩ | hgo := walkBits_cons_cases depth bus P i is d w
    · rw [hend]
      exact WalkResult.noConfusion
    · rw [hgo]
      exact ih _ _

/-- A walk sets the presence bit, and ends for want of presence exactly when it cleared it. -/
theorem searchWalk_noPresence_iff (s : State) :
    (searchWalk s).1 = .noPresence ↔ (searchWalk s).2.presence = false := by
  cases hr : (s.wire.resetSeq s.bus s.profile).1 with
  | false => simp [searchWalk_of_absent hr]
  | true => simp [searchWalk_of_present rfl hr, walkBits_result_ne_noPresence]

/-! ### Rounds -/

/-- A pass goes on after the walk from `u`: the address is appended, the walk counted, and `v` begins the next walk. -/
inductive GoesOn (u : State) : State → Prop
  | next {v : State} (hwalk : searchWalk u = (.done, v)) (hstk : v.disc.stk ≠ [])
      (hlimit : v.disc.safe.toNat + 1 ≤ v.maxdev.toNat) : GoesOn u (countWalk (appendAddress v))

/-- The walk from `u` is the last of its pass, which ends in a given state (R184, R185). -/
inductive PassEnds (u : State) : State → Prop
  | noPresence {v : State} (hwalk : searchWalk u = (.noPresence, v)) : PassEnds u (endPass v .noPresence)
  | violation {v : State} (hwalk : searchWalk u = (.protocolViolation, v)) : PassEnds u (endPass v .protocolViolation)
  | explored {v : State} (hwalk : searchWalk u = (.done, v)) (hstk : v.disc.stk = []) :
      PassEnds u (endPass (appendAddress v) .ok)
  | limit {v : State} (hwalk : searchWalk u = (.done, v)) (hstk : v.disc.stk ≠ [])
      (hlimit : v.maxdev.toNat < v.disc.safe.toNat + 1) :
      PassEnds u (endPass (countWalk (appendAddress v)) .deviceLimit)

theorem goesOn_or_passEnds (u : State) : (∃ v, GoesOn u v) ∨ ∃ t, PassEnds u t := by
  rcases hwalk : searchWalk u with ⟨r, v⟩
  cases r with
  | noPresence => exact .inr ⟨_, .noPresence hwalk⟩
  | protocolViolation => exact .inr ⟨_, .violation hwalk⟩
  | done =>
    by_cases hstk : v.disc.stk = []
    · exact .inr ⟨_, .explored hwalk hstk⟩
    · obtain hlimit | hlimit := Nat.lt_or_ge v.maxdev.toNat (v.disc.safe.toNat + 1)
      · exact .inr ⟨_, .limit hwalk hstk hlimit⟩
      · exact .inl ⟨_, .next hwalk hstk hlimit⟩

theorem GoesOn.searchLoop {u v : State} (h : GoesOn u v) (n : Nat) : searchLoop (n + 1) u = searchLoop n v := by
  obtain ⟨hwalk, hstk, hlimit⟩ := h
  rw [Machine.searchLoop, hwalk]
  exact (if_neg hstk).trans (if_neg (Nat.not_lt.2 hlimit))

theorem PassEnds.searchLoop {u t : State} (h : PassEnds u t) (n : Nat) : searchLoop (n + 1) u = t := by
  cases h with
  | noPresence hwalk | violation hwalk => rw [Machine.searchLoop, hwalk]
  | explored hwalk hstk =>
    rw [Machine.searchLoop, hwalk]
    exact if_pos hstk
  | limit hwalk hstk hlimit =>
    rw [Machine.searchLoop, hwalk]
    exact (if_neg hstk).trans (if_pos hlimit)

theorem passAfter_succ {s v : State} {k : Nat} (h : passAfter s (k + 1) = some v) :
    ∃ u, passAfter s k = some u ∧ GoesOn u v := by
  rw [passAfter] at h
  split at h
  · cases h
  · next u hu =>
    refine ⟨u, hu, ?_⟩
    split at h
    · cases h
    · cases h
    · next w hwalk =>
      split_ifs at h with hend
      obtain ⟨hstk, hlimit⟩ := not_or.1 hend
      exact Option.some.inj h ▸ .next hwalk hstk (Nat.not_lt.1 hlimit)

theorem GoesOn.passAfter {s u v : State} {k : Nat} (hu : passAfter s k = some u) (h : GoesOn u v) :
    passAfter s (k + 1) = some v := by
  obtain ⟨hwalk, hstk, hlimit⟩ := h
  rw [Machine.passAfter, hu]
  simp [hwalk, hstk, Nat.not_lt.2 hlimit]

/-- To prove something of every state in which a walk of a pass begins: it holds at the start of the pass, and of each
state a pass goes on with. -/
theorem passAfter_induction {s : State} {p : Nat → State → Prop} (hstart : p 0 (startPass s))
    (hnext : ∀ k u v, p k u → GoesOn u v → p (k + 1) v) {k : Nat} {u : State} (h : passAfter s k = some u) : p k u := by
  induction k generalizing u with
  | zero => exact Option.some.inj h ▸ hstart
  | succ k ih =>
    obtain ⟨v, hv, hgo⟩ := passAfter_succ h
    exact hnext k v u (ih hv) hgo

/-- A walk that begins in a pass is one of its loop's. -/
theorem searchLoop_of_passAfter {s u : State} {k : Nat} (h : passAfter s k = some u) :
    ∀ n, searchLoop (k + n) (startPass s) = searchLoop n u := by
  refine passAfter_induction (p := fun k u => ∀ n, searchLoop (k + n) (startPass s) = searchLoop n u)
    (fun n => by rw [Nat.zero_add]) (fun k u v ih hgo n => ?_) h
  rw [Nat.add_assoc, Nat.add_comm 1 n, ih, hgo.searchLoop]

/-- What holds when walk `k` of a pass from `s` begins: `SAFE` and `DEVCOUNT` count the walks made, of which there are
no more than `MAXDEV`, and each has appended its entry (R190). -/
structure InPass (s : State) (k : Nat) (u : State) : Prop where
  searched : Searched (startPass s) u
  le : k ≤ s.maxdev.toNat
  safe : u.disc.safe.toNat = k
  devcount : u.devcount.toNat = k
  appended : Appended 0 k (startPass s) u

/-- What a walk and the append after it leave of the state in which the walk began. -/
theorem InPass.walk {s u v : State} {k : Nat} {r : WalkResult} (h : InPass s k u) (hwalk : searchWalk u = (r, v)) :
    Searched (startPass s) v ∧ v.mem = u.mem ∧ v.disc.safe.toNat = k ∧ v.devcount.toNat = k ∧
      Appended 0 (k + 1) (startPass s) (appendAddress v) := by
  have hsearched := searchWalk_searched u
  obtain ⟨hparams, hmem, -, hdev, hsafe⟩ := searchWalk_keeps u
  simp only [hwalk] at hsearched hparams hmem hdev hsafe
  have hcount : v.devcount.toNat = k := by rw [hdev, h.devcount]
  exact ⟨h.searched.trans hsearched, hmem, by rw [hsafe, h.safe], hcount,
    h.appended.trans ((hcount ▸ appendAddress_appended v).congr hparams.symm hmem.symm rfl rfl rfl)⟩

theorem inPass_of_passAfter {s u : State} {k : Nat} (h : passAfter s k = some u) : InPass s k u := by
  refine passAfter_induction (p := InPass s) ?_ ?_ h
  · exact ⟨by constructor <;> rfl, Nat.zero_le _, rfl, rfl, .none rfl rfl rfl⟩
  · intro k u _ ih hgo
    obtain @⟨v, hwalk, hstk, hlimit⟩ := hgo
    obtain ⟨hsearched, -, hsafe, hdev, happ⟩ := ih.walk hwalk
    have hmax : v.maxdev.toNat = s.maxdev.toNat := congrArg BitVec.toNat hsearched.maxdev
    have hlt := s.maxdev.isLt
    have hsafe' : (v.disc.safe + 1).toNat = k + 1 := hsafe ▸ byte_toNat_add_one (by omega)
    have hdev' : (v.devcount + 1).toNat = k + 1 := hdev ▸ byte_toNat_add_one (by omega)
    exact ⟨hsearched.trans (by constructor <;> rfl), by omega, hsafe', hdev', happ.congr rfl rfl rfl rfl rfl⟩

/-- Every pass ends: the walk its last round makes is one of its first `MAXDEV + 1`, and any bound on its loop that
allows so many gives the same end (R190, notes/assumptions/17.md). -/
theorem exists_passEnds (s : State) :
    ∃ k u t, passAfter s k = some u ∧ PassEnds u t ∧ ∀ n, s.maxdev.toNat + 1 ≤ n → searchLoop n (startPass s) = t := by
  by_contra hno
  have hgo (k : Nat) : ∃ u, passAfter s k = some u := by
    induction k with
    | zero => exact ⟨_, rfl⟩
    | succ k ih =>
      obtain ⟨u, hu⟩ := ih
      obtain ⟨v, hv⟩ | ⟨t, ht⟩ := goesOn_or_passEnds u
      · exact ⟨v, hv.passAfter hu⟩
      · refine absurd ⟨k, u, t, hu, ht, fun n hn => ?_⟩ hno
        have hle := (inPass_of_passAfter hu).le
        rw [show n = k + ((n - k - 1) + 1) by omega, searchLoop_of_passAfter hu, ht.searchLoop]
  obtain ⟨u, hu⟩ := hgo (s.maxdev.toNat + 1)
  have hle := (inPass_of_passAfter hu).le
  omega

/-- SEARCH ends where the last walk of its pass ends it. -/
theorem exec_search_of_passEnds {s u t : State} {k : Nat} (hu : passAfter s k = some u) (ht : PassEnds u t) :
    exec .search s = .next t := by
  have hle := (inPass_of_passAfter hu).le
  have hloop := searchLoop_of_passAfter hu (s.maxdev.toNat - k + 1)
  rw [ht.searchLoop, show k + (s.maxdev.toNat - k + 1) = s.maxdev.toNat + 1 by omega] at hloop
  exact congrArg _ hloop

/-- Where SEARCH ended, the last walk of its pass ended it. -/
theorem passEnds_of_exec_search {s t : State} (h : exec .search s = .next t) :
    ∃ k u, passAfter s k = some u ∧ PassEnds u t := by
  obtain ⟨k, u, t', hu, ht, -⟩ := exists_passEnds s
  obtain rfl := Host.Outcome.next.inj (h.symm.trans (exec_search_of_passEnds hu ht))
  exact ⟨k, u, hu, ht⟩

/-! ### How SEARCH completes -/

/-- A pass ends for want of presence exactly when its last reset found none. -/
theorem PassEnds.noPresence_iff {u t : State} (h : PassEnds u t) : t.result = .noPresence ↔ t.presence = false := by
  have hiff := searchWalk_noPresence_iff u
  cases h with
  | noPresence hwalk | violation hwalk | explored hwalk _ | limit hwalk _ _ =>
    simpa [hwalk, endPass, countWalk, appendAddress] using hiff

/-- With a legal `MAXDEV` the entries of `RES` defined after SEARCH are those below `DEVCOUNT` (10_state R35). -/
theorem resByte_isSome_iff {s t : State} (h : exec .search s = .next t) (hlegal : s.params.legal)
    (hmax : s.maxdev.toNat < s.params.resultCap) {e j : Nat} (he : e < s.params.resultCap)
    (hj : j < s.params.addrBytes) :
    (t.resByte e j).isSome ↔ e < t.devcount.toNat := by
  obtain ⟨k, hk, happ, -⟩ := execSearch_appended h
  obtain ⟨⟨-, hcap⟩, -⟩ := hlegal
  have hdev : t.devcount.toNat = k := by rw [happ.devcount, BitVec.toNat_ofNat]; omega
  have hat : t.resAddr e j = s.resAddr e 0 + j := by simp only [State.resAddr, happ.params]; rfl
  have hbase : (startPass s).resAddr 0 0 = resBase := rfl
  have hres : resBase ≤ s.resAddr e 0 := by simp only [State.resAddr]; omega
  rw [State.resByte, hat, hdev]
  constructor
  · intro hsome
    by_contra hek
    have hstart : (startPass s).resAddr k 0 ≤ s.resAddr e 0 := (startPass s).resAddr_le (Nat.not_lt.1 hek)
    have hend : s.resAddr (e + 1) 0 ≤ s.resEnd := s.resAddr_le he
    rw [State.resAddr_succ] at hend
    rw [happ.outside _ (by omega), read_startPass, if_pos (by omega)] at hsome
    cases hsome
  · intro hek
    have hend : s.resAddr (e + 1) 0 ≤ (startPass s).resAddr k 0 := (startPass s).resAddr_le hek
    rw [State.resAddr_succ] at hend
    exact happ.inside _ (by omega) (by omega)

/-- Settles O51: what the loop of a pass keeps, stores and ends with. -/
theorem searchAlwaysCompletes : Obligations.SearchAlwaysCompletes := by
  intro s
  obtain ⟨k, u, t, hu, ht, -⟩ := exists_passEnds s
  have hexec := exec_search_of_passEnds hu ht
  obtain ⟨-, -, -, hstk, hresult⟩ := searchLoop_spec s.maxdev.toNat (startPass s)
  rw [← execSearch_next hexec] at hstk hresult
  refine ⟨t, hexec, hstk, hresult, ?_, fun hmax a ha => read_execSearch_outside hexec hmax ha,
    fun hlegal hmax e j he hj => resByte_isSome_iff hexec hlegal hmax he hj, ht.noPresence_iff⟩
  exact execSearch_writes hexec

/-- Settles O52: the first walk finds no presence, and ends the pass. -/
theorem searchOfAnEmptyBus : Obligations.SearchOfAnEmptyBus :=
  fun s habsent => exec_search_of_passEnds (k := 0) rfl (.noPresence (searchWalk_of_absent (s := startPass s) habsent))

/-! ### Two ones -/

theorem bitPositions_of_pos {n : Nat} (h : 0 < n) : ∃ rest, bitPositions n = 0 :: rest := by
  obtain ⟨m, rfl⟩ := Nat.exists_eq_succ_of_ne_zero h.ne'
  exact ⟨_, rfl⟩

/-- A pass whose walk `k` meets two ones keeps the entries of the walks before it (R185, R264). -/
theorem exec_search_of_violation {s u v : State} {k : Nat} (hu : passAfter s k = some u)
    (hwalk : searchWalk u = (.protocolViolation, v)) :
    ∃ t, exec .search s = .next t ∧ t.result = .protocolViolation ∧ t.devcount.toNat = k ∧ t.wire = v.wire ∧
      t.mem = u.mem ∧ (∀ e j, e < k → j < s.params.addrBytes → (t.resByte e j).isSome) ∧ t.disc.stk = [] ∧
      t.presence = true := by
  have hpass := inPass_of_passAfter hu
  obtain ⟨hsearched, hmem, -, hdev, -⟩ := hpass.walk hwalk
  have hpresence := searchWalk_noPresence_iff u
  simp only [hwalk, reduceCtorEq, false_iff, Bool.not_eq_false] at hpresence
  refine ⟨_, exec_search_of_passEnds hu (.violation hwalk), rfl, hdev, rfl, hmem, fun e j he hj => ?_, rfl, hpresence⟩
  have hend := s.resAddr_le (Nat.succ_le_of_lt he)
  rw [State.resAddr_succ] at hend
  have hat : (endPass v .protocolViolation).resAddr e j = s.resAddr e 0 + j := by
    simp only [State.resAddr, endPass, State.complete_params, State.setDisc_params, hsearched.params]
    rfl
  have hbase : (startPass s).resAddr 0 0 ≤ s.resAddr e 0 := (startPass s).resAddr_le (Nat.zero_le e)
  have hk : (startPass s).resAddr k 0 = s.resAddr k 0 := rfl
  rw [State.resByte, hat, show (endPass v .protocolViolation).mem = u.mem from hmem]
  exact hpass.appended.inside _ (by omega) (by omega)

/-- Two ones at bit 0 end a walk right after the second read (R181). -/
theorem searchWalk_of_first_both {s : State} {r b bc : Bit × Wire} (hr : s.wire.resetSeq s.bus s.profile = r)
    (hb : (r.2.writeByteSeq s.profile searchByte).readBitSeq s.bus s.profile = b)
    (hbc : b.2.readBitSeq s.bus s.profile = bc) (hbits : 0 < s.params.addrBits) (hpresent : r.1 = true)
    (hboth : (b.1 && bc.1) = true) :
    searchWalk s = (.protocolViolation, { s with wire := bc.2, presence := true }) := by
  obtain ⟨rest, hrest⟩ := bitPositions_of_pos hbits
  simp only [searchWalk_of_present hr hpresent, hrest, walkBits_cons_of_both _ _ _ _ hb hbc hboth]

/-- Two ones at a bit of a walk whose bits before it were done end the walk right after the second read (R181). -/
theorem walkBits_of_both (depth : Nat) {bus : Bus} {P : TimingProfile} {before : List (Fin 64)} (after : List (Fin 64))
    (i : Fin 64) {d : Discovery} {w : Wire} {b bc : Bit × Wire}
    (hdone : (walkBits depth bus P before d w).result = .done)
    (hb : (walkBits depth bus P before d w).wire.readBitSeq bus P = b) (hbc : b.2.readBitSeq bus P = bc)
    (hboth : (b.1 && bc.1) = true) :
    walkBits depth bus P (before ++ i :: after) d w =
      ⟨.protocolViolation, (walkBits depth bus P before d w).disc, bc.2⟩ := by
  rw [walkBits_append depth bus P before (i :: after) d w hdone]
  exact walkBits_cons_of_both depth i after _ hb hbc hboth

/-- Settles O53: two ones at a bit end the walk there, and the pass with it. -/
theorem twoOnesEndThePass : Obligations.TwoOnesEndThePass := by
  refine ⟨?_, ?_, fun s u v k => exec_search_of_violation⟩
  · intro s r b bc hbits hpresent hb hbc
    have hwalk := searchWalk_of_first_both (s := startPass s) rfl rfl rfl hbits hpresent
      (Bool.and_eq_true_iff.2 ⟨hb, hbc⟩)
    exact ⟨_, exec_search_of_passEnds (k := 0) rfl (.violation hwalk), rfl, rfl, rfl, rfl, rfl, rfl⟩
  · intro depth n bus P before after i d w hsplit e b bc hdone hb hbc
    rw [hsplit]
    exact walkBits_of_both depth after i hdone rfl rfl (Bool.and_eq_true_iff.2 ⟨hb, hbc⟩)

end Sys2Proof.Machine
end

section
/-!
PROOFS. The bounds of a search pass (41_discovery R190): the bus resets of its walks, and the time they take.
-/

namespace Sys2Proof.Machine

/-! ### Bus resets of a history -/

/-- The next `LOW` completes the slots of a history, with a write slot if a low pulse was without its sample. -/
theorem slotsFrom_append_low (T : Timings) (low : Nat) (pulse : Option Nat) (h : List LineEvent) :
    ∃ last : List Slot, last.countP Slot.isReset = 0 ∧ ∀ t rest,
      slotsFrom T low pulse (h ++ .low t :: rest) = slotsFrom T low pulse h ++ last ++ slotsFrom T t none rest := by
  induction h generalizing low pulse with
  | nil => cases pulse with
    | none => exact ⟨[], rfl, fun _ _ => rfl⟩
    | some d => exact ⟨[.write (pulseBit T d)], rfl, fun _ _ => rfl⟩
  | cons e h ih => cases e with
    | rel t =>
      obtain ⟨last, hlast, hslots⟩ := ih low (some (t - low))
      exact ⟨last, hlast, hslots⟩
    | low t =>
      obtain ⟨last, hlast, hslots⟩ := ih t none
      exact ⟨last, hlast, by cases pulse <;> simp [slotsFrom, hslots]⟩
    | smp t v =>
      obtain ⟨last, hlast, hslots⟩ := ih low none
      exact ⟨last, hlast, by cases pulse <;> simp [slotsFrom, hslots]⟩

/-- Every history reads as some slots, with its bus resets among them. -/
theorem exists_readsAs (T : Timings) (h : List LineEvent) :
    ∃ sl, ReadsAs T h sl ∧ sl.countP Slot.isReset = busResetCount T h := by
  obtain ⟨last, hlast, hslots⟩ := slotsFrom_append_low T 0 none h
  exact ⟨_, hslots, by rw [List.countP_append, hlast]; rfl⟩

/-- The slots a history reads as are determined. -/
theorem ReadsAs.unique {T : Timings} {h : List LineEvent} {sl sl' : List Slot} (hreads : ReadsAs T h sl)
    (hreads' : ReadsAs T h sl') : sl = sl' := by
  simpa [slotsFrom] using (hreads 0 []).symm.trans (hreads' 0 [])

theorem ReadsAs.busResetCount {T : Timings} {h : List LineEvent} {sl : List Slot} (hreads : ReadsAs T h sl) :
    busResetCount T h = sl.countP Slot.isReset := by
  obtain ⟨sl', hreads', hcount⟩ := exists_readsAs T h
  rw [hreads.unique hreads', hcount]

/-- A low pulse of a reset's length and a sample are a bus reset (R125). -/
theorem ReadsAs.resetSlot {T : Timings} {h : List LineEvent} {sl : List Slot} (hreads : ReadsAs T h sl) {d : Nat}
    (hpulse : isResetPulse T d = true) (t u : Nat) (v : Bit) :
    ReadsAs T (h ++ [.low t, .rel (t + d)] ++ [.smp u v]) (sl ++ [.busReset v]) := by
  intro u' rest
  have hslot := hreads t (.rel (t + d) :: .smp u v :: .low u' :: rest)
  simpa [slotsFrom, hpulse] using hslot

theorem isResetPulse_resetLowDuration (T : Timings) (v : Speed) :
    isResetPulse T (profileOf T v).resetLowDuration = true := by
  cases v <;> simp [isResetPulse, profileOf]

theorem resetSeq_readsAs {T : Timings} (v : Speed) (bus : Bus) {w : Wire} {sl : List Slot}
    (hreads : ReadsAs T w.hist sl) :
    ReadsAs T (w.resetSeq bus (profileOf T v)).2.hist (sl ++ [.busReset (!(w.resetSeq bus (profileOf T v)).1)]) := by
  rw [Wire.resetSeq_eq]
  simpa using hreads.resetSlot (isResetPulse_resetLowDuration T v) _ _ _

theorem readBitSeq_readsAs {T : Timings} (hT : readableTimings T) (v : Speed) (bus : Bus) {w : Wire} {sl : List Slot}
    (hreads : ReadsAs T w.hist sl) :
    ReadsAs T (w.readBitSeq bus (profileOf T v)).2.hist (sl ++ [.read (w.readBitSeq bus (profileOf T v)).1]) := by
  rw [Wire.readBitSeq_eq]
  exact hreads.readSlot (isResetPulse_writeRecoveryLow hT v) _ _ _

theorem writeByteSeq_readsAs {T : Timings} (hT : readableTimings T) (v : Speed) (b : Byte) {w : Wire} {sl : List Slot}
    (hreads : ReadsAs T w.hist sl) :
    ReadsAs T (w.writeByteSeq (profileOf T v) b).hist (sl ++ (bitsOfByte b).map .write) :=
  writeBits_readsAs hT v (bitsOfByte b) hreads

/-! ### Bus resets of the sequences -/

theorem busResetCount_resetSeq (T : Timings) (v : Speed) (bus : Bus) (w : Wire) :
    busResetCount T (w.resetSeq bus (profileOf T v)).2.hist = busResetCount T w.hist + 1 := by
  obtain ⟨sl, hreads, hcount⟩ := exists_readsAs T w.hist
  rw [(resetSeq_readsAs v bus hreads).busResetCount, List.countP_append, hcount]
  rfl

section
variable {T : Timings} (hT : readableTimings T) (v : Speed)
include hT

theorem busResetCount_readBitSeq (bus : Bus) (w : Wire) :
    busResetCount T (w.readBitSeq bus (profileOf T v)).2.hist = busResetCount T w.hist := by
  obtain ⟨sl, hreads, hcount⟩ := exists_readsAs T w.hist
  rw [(readBitSeq_readsAs hT v bus hreads).busResetCount, List.countP_append, hcount]
  rfl

theorem busResetCount_writeBitSeq (b : Bit) (w : Wire) :
    busResetCount T (w.writeBitSeq (profileOf T v) b).hist = busResetCount T w.hist := by
  obtain ⟨sl, hreads, hcount⟩ := exists_readsAs T w.hist
  rw [(writeBitSeq_readsAs hT v b hreads).busResetCount, List.countP_append, hcount]
  rfl

theorem busResetCount_writeByteSeq (b : Byte) (w : Wire) :
    busResetCount T (w.writeByteSeq (profileOf T v) b).hist = busResetCount T w.hist := by
  obtain ⟨sl, hreads, hcount⟩ := exists_readsAs T w.hist
  rw [(writeByteSeq_readsAs hT v b hreads).busResetCount, List.countP_append, hcount]
  rfl

theorem busResetCount_walkBits (depth : Nat) (bus : Bus) (is : List (Fin 64)) (d : Discovery) (w : Wire) :
    busResetCount T (walkBits depth bus (profileOf T v) is d w).wire.hist = busResetCount T w.hist := by
  induction is generalizing d w with
  | nil => rfl
  | cons i is ih =>
    obtain ⟨-, -, hend⟩ | hgo := walkBits_cons_cases depth bus (profileOf T v) i is d w
    · rw [hend]
      dsimp only
      rw [busResetCount_readBitSeq hT, busResetCount_readBitSeq hT]
    · rw [hgo, ih, busResetCount_writeBitSeq hT, busResetCount_readBitSeq hT, busResetCount_readBitSeq hT]

end

/-- Each walk makes one bus reset (R181). -/
theorem busResetCount_searchWalk {s : State} (hT : readableTimings s.params.timings) :
    busResetCount s.params.timings (searchWalk s).2.wire.hist = busResetCount s.params.timings s.wire.hist + 1 := by
  rw [← busResetCount_resetSeq _ s.speed s.bus]
  cases hr : (s.wire.resetSeq s.bus s.profile).1 with
  | false => rw [searchWalk_of_absent hr, State.profile]
  | true =>
    rw [searchWalk_of_present rfl hr, State.profile]
    exact (busResetCount_walkBits hT _ _ _ _ _ _).trans (busResetCount_writeByteSeq hT _ _ _)

/-! ### The time of a walk -/

theorem Wire.readBitSeq_now (bus : Bus) (P : TimingProfile) (w : Wire) :
    (w.readBitSeq bus P).2.now = w.now + readSlotTime P := by
  rw [Wire.readBitSeq_eq]

theorem Wire.writeBitSeq_now (P : TimingProfile) (b : Bit) (w : Wire) :
    (w.writeBitSeq P b).now = w.now + writeSlotTime P b := by
  rw [Wire.writeBitSeq_eq]

/-- Where each bit of a walk takes the same time, the bits of a walk take no more than all of them, and as much when
they are done. -/
theorem walkBits_now {P : TimingProfile} {c : Nat} (hc : ∀ b, 2 * readSlotTime P + writeSlotTime P b = c) (depth : Nat)
    (bus : Bus) (is : List (Fin 64)) (d : Discovery) (w : Wire) :
    (walkBits depth bus P is d w).wire.now ≤ w.now + is.length * c ∧
      ((walkBits depth bus P is d w).result = .done →
        (walkBits depth bus P is d w).wire.now = w.now + is.length * c) := by
  induction is generalizing d w with
  | nil => simp [walkBits]
  | cons i is ih =>
    obtain ⟨-, -, hend⟩ | hgo := walkBits_cons_cases depth bus P i is d w
    · rw [hend]
      have hslots := hc true
      refine ⟨?_, WalkResult.noConfusion⟩
      dsimp only
      rw [Wire.readBitSeq_now, Wire.readBitSeq_now, List.length_cons, Nat.succ_mul]
      omega
    · generalize walkDirection depth i _ _ d = e at hgo
      have hslots := hc e.1
      obtain ⟨hle, hdone⟩ := ih (e.2.record i e.1) (((w.readBitSeq bus P).2.readBitSeq bus P).2.writeBitSeq P e.1)
      rw [Wire.writeBitSeq_now, Wire.readBitSeq_now, Wire.readBitSeq_now] at hle hdone
      rw [hgo, List.length_cons, Nat.succ_mul]
      exact ⟨by omega, fun h => by rw [hdone h]; omega⟩

/-- A walk over 64 bits at this hardware's standard speed takes at most 59840 units, and as many when it is done
(R190). -/
theorem searchWalk_now {s : State} (howc : s.params.timings = Timings.owc) (hbits : s.params.addrBits = 64)
    (hstd : s.speed = .standard) :
    (searchWalk s).2.wire.now ≤ s.wire.now + 59840 ∧
      ((searchWalk s).1 = .done → (searchWalk s).2.wire.now = s.wire.now + 59840) := by
  have hP : s.profile = tpStd := by rw [State.profile_owc howc, hstd]; rfl
  have hreset := Wire.resetSeq_now s.bus s.profile s.wire
  have htime : resetTimeOf s.profile = 3840 := by rw [hP]; rfl
  cases hr : (s.wire.resetSeq s.bus s.profile).1 with
  | false =>
    rw [searchWalk_of_absent hr]
    exact ⟨by dsimp only; omega, WalkResult.noConfusion⟩
  | true =>
    rw [searchWalk_of_present rfl hr]
    have hbyte := Wire.writeByteSeq_now s.profile searchByte (s.wire.resetSeq s.bus s.profile).2
    have hbits8 : writeTime s.profile (bitsOfByte searchByte) = 2240 := by rw [hP]; rfl
    have hslots (b : Bit) : 2 * readSlotTime s.profile + writeSlotTime s.profile b = 840 := by rw [hP]; cases b <;> rfl
    have hlength : (bitPositions s.params.addrBits).length = 64 := by rw [hbits]; rfl
    have hnow := walkBits_now hslots s.params.stackDepth s.bus (bitPositions s.params.addrBits) s.disc
      ((s.wire.resetSeq s.bus s.profile).2.writeByteSeq s.profile searchByte)
    rw [hlength, hbyte, hbits8, hreset, htime] at hnow
    obtain ⟨hle, hdone⟩ := hnow
    exact ⟨hle.trans (by omega), fun h => (hdone h).trans (by omega)⟩

/-! ### The walks of a pass -/

theorem GoesOn.wire {u v : State} (h : GoesOn u v) : (searchWalk u).1 = .done ∧ v.wire = (searchWalk u).2.wire := by
  obtain ⟨hwalk, -, -⟩ := h
  rw [hwalk]
  exact ⟨rfl, rfl⟩

theorem PassEnds.wire {u t : State} (h : PassEnds u t) : t.wire = (searchWalk u).2.wire := by
  cases h with
  | noPresence hwalk | violation hwalk | explored hwalk _ | limit hwalk _ _ =>
    rw [hwalk]
    rfl

/-- Each walk before walk `k` has made its bus reset. -/
theorem busResetCount_passAfter {s u : State} {k : Nat} (hT : readableTimings s.params.timings)
    (h : passAfter s k = some u) :
    busResetCount s.params.timings u.wire.hist = busResetCount s.params.timings s.wire.hist + k := by
  induction k generalizing u with
  | zero => exact Option.some.inj h ▸ rfl
  | succ k ih =>
    obtain ⟨u', hu', hgo⟩ := passAfter_succ h
    have hparams : u'.params = s.params := (inPass_of_passAfter hu').searched.params
    have hwalk := busResetCount_searchWalk (s := u') (hparams ▸ hT)
    rw [hparams] at hwalk
    obtain ⟨-, hwire⟩ := hgo.wire
    rw [hwire, hwalk, ih hu', Nat.add_assoc]

/-- A pass that walk `k` ends has made `k + 1` bus resets. -/
theorem busResetCount_passEnds {s u t : State} {k : Nat} (hT : readableTimings s.params.timings)
    (hu : passAfter s k = some u) (ht : PassEnds u t) :
    busResetCount s.params.timings t.wire.hist = busResetCount s.params.timings s.wire.hist + (k + 1) := by
  have hparams : u.params = s.params := (inPass_of_passAfter hu).searched.params
  have hwalk := busResetCount_searchWalk (s := u) (hparams ▸ hT)
  rw [hparams, busResetCount_passAfter hT hu] at hwalk
  rw [ht.wire, hwalk, Nat.add_assoc]

section
variable {s u : State} {k : Nat} (howc : s.params.timings = Timings.owc) (hbits : s.params.addrBits = 64)
  (hstd : s.speed = .standard) (hu : passAfter s k = some u)
include howc hbits hstd hu

/-- The walk that begins in a pass takes no more time than a complete one. -/
theorem searchWalk_now_of_passAfter :
    (searchWalk u).2.wire.now ≤ u.wire.now + 59840 ∧
      ((searchWalk u).1 = .done → (searchWalk u).2.wire.now = u.wire.now + 59840) := by
  have hsearched := (inPass_of_passAfter hu).searched
  have hparams : u.params = s.params := hsearched.params
  exact searchWalk_now (hparams ▸ howc) (hparams ▸ hbits) (hsearched.speed.trans hstd)

/-- The walks before walk `k` were complete ones. -/
theorem now_of_passAfter : u.wire.now = s.wire.now + k * 59840 := by
  induction k generalizing u with
  | zero => exact Option.some.inj hu ▸ rfl
  | succ k ih =>
    obtain ⟨u', hu', hgo⟩ := passAfter_succ hu
    obtain ⟨hdone, hwire⟩ := hgo.wire
    obtain ⟨-, hnow⟩ := searchWalk_now_of_passAfter howc hbits hstd hu'
    rw [hwire, hnow hdone, ih hu']
    omega

end

/-- Settles O54: each walk makes one bus reset and takes the time of a complete one at most, and the last of them is
one of the first `MAXDEV + 1`. -/
theorem searchIsBounded : Obligations.SearchIsBounded := by
  intro s t hlegal hmax hexec
  obtain ⟨k, u, t', hu, ht, hloop⟩ := exists_passEnds s
  obtain rfl := Host.Outcome.next.inj (hexec.symm.trans (exec_search_of_passEnds hu ht))
  have hle := (inPass_of_passAfter hu).le
  refine ⟨fun hT => ?_, ?_, fun howc hbits hstd => ?_, hloop⟩
  · rw [busResetCount_passEnds hT hu ht]
    omega
  · obtain ⟨j, hj, happ, -⟩ := execSearch_appended hexec
    rw [happ.devcount, BitVec.toNat_ofNat]
    exact (Nat.mod_le _ _).trans hj
  · have hbefore := now_of_passAfter howc hbits hstd hu
    obtain ⟨hlast, -⟩ := searchWalk_now_of_passAfter howc hbits hstd hu
    rw [ht.wire]
    have hmul := Nat.mul_le_mul_right 59840 hle
    omega

end Sys2Proof.Machine
end

section
/-!
PROOFS. What a search pass reads of the working address (41_discovery R186 d, R189): no bit of it that the pass has not
written.
-/

namespace Sys2Proof.Machine

/-! ### The bits of an address -/

/-- Recording a bit sets that bit and no other. -/
theorem setAddressBit_getLsbD (a : Address) (i : Fin 64) (b : Bit) (j : Nat) :
    (setAddressBit a i b).getLsbD j = if j = i.val then b else a.getLsbD j := by
  have hone : (1#64 <<< i.val).getLsbD j = decide (j = i.val) := by
    have hi := i.isLt
    rw [Bool.eq_iff_iff]
    simp [BitVec.getLsbD_one]
    omega
  obtain hj | hj := Nat.lt_or_ge j 64
  · cases b with
    | true =>
      rw [setAddressBit, if_pos rfl, BitVec.getLsbD_or, hone]
      by_cases hji : j = i.val <;> simp [hji]
    | false =>
      rw [setAddressBit, if_neg Bool.false_ne_true, BitVec.getLsbD_and, BitVec.getLsbD_not, hone]
      by_cases hji : j = i.val <;> simp [hji, hj]
  · have hne : j ≠ i.val := by have hi := i.isLt; omega
    rw [if_neg hne, BitVec.getLsbD_of_ge _ _ hj, BitVec.getLsbD_of_ge _ _ hj]

/-- Two addresses agree on their bits below `n`. -/
abbrev AgreeBelow (n : Nat) (a b : Address) : Prop := ∀ j, j < n → a.getLsbD j = b.getLsbD j

theorem AgreeBelow.trans {n : Nat} {a b c : Address} (h : AgreeBelow n a b) (k : AgreeBelow n b c) : AgreeBelow n a c :=
  fun j hj => (h j hj).trans (k j hj)

theorem AgreeBelow.symm {n : Nat} {a b : Address} (h : AgreeBelow n a b) : AgreeBelow n b a := fun j hj => (h j hj).symm

theorem AgreeBelow.mono {m n : Nat} {a b : Address} (h : AgreeBelow n a b) (hmn : m ≤ n) : AgreeBelow m a b :=
  fun j hj => h j (hj.trans_le hmn)

/-- A byte depends on its own bits. -/
theorem AgreeBelow.byte {n : Nat} {a b : Address} (h : AgreeBelow n a b) {j : Nat} (hj : 8 * j + 8 ≤ n) :
    a.extractLsb' (8 * j) 8 = b.extractLsb' (8 * j) 8 := by
  apply BitVec.eq_of_getLsbD_eq
  intro i hi
  rw [BitVec.getLsbD_extractLsb', BitVec.getLsbD_extractLsb', h _ (by omega)]

/-- A whole address has 64 bits. -/
theorem AgreeBelow.of_min {n : Nat} {a b : Address} (h : AgreeBelow (min n 64) a b) : AgreeBelow n a b := by
  intro j hj
  obtain hlt | hge := Nat.lt_or_ge j 64
  · exact h j (by omega)
  · rw [BitVec.getLsbD_of_ge _ _ hge, BitVec.getLsbD_of_ge _ _ hge]

/-! ### Another working address -/

/-- The engine with another working address. -/
def Discovery.withWaddr (d : Discovery) (a : Address) : Discovery := { d with waddr := a }

/-- The state with another working address. -/
def State.withWaddr (s : State) (a : Address) : State := s.setDisc (s.disc.withWaddr a)

/-- Two working addresses agree where a walk that has come to bit `i` may read them: at the bits before `i`, which it
has written, and at those below an entry of its stack. -/
def Settled (i : Nat) (stk : List (Fin 64)) (a b : Address) : Prop :=
  ∀ j, (j < i ∨ ∃ t ∈ stk, j < t.val) → a.getLsbD j = b.getLsbD j

theorem push_withWaddr (depth : Nat) (d : Discovery) (i : Fin 64) (a : Address) :
    (d.withWaddr a).push depth i = (d.push depth i).withWaddr a := by
  obtain hroom | hfull := Nat.lt_or_ge d.sp depth
  · rw [Discovery.push_of_lt i hroom, Discovery.push_of_lt (d := d.withWaddr a) i hroom]
    rfl
  · rw [Discovery.push_of_le i hfull, Discovery.push_of_le (d := d.withWaddr a) i hfull]

theorem mem_push {depth : Nat} {d : Discovery} {i t : Fin 64} (h : t ∈ (d.push depth i).stk) : t = i ∨ t ∈ d.stk := by
  obtain hroom | hfull := Nat.lt_or_ge d.sp depth
  · rw [Discovery.push_of_lt i hroom] at h
    exact List.mem_cons.1 h
  · rw [Discovery.push_of_le i hfull] at h
    exact .inr h

/-- The discrepancy rule at bit `i` reads the working address at bits below an entry of the stack only, leaves it
alone, and lets no position but `i` into the stack. -/
theorem chooseDirection_withWaddr (depth : Nat) (i : Fin 64) {d : Discovery} {a : Address}
    (h : Settled i.val d.stk a d.waddr) :
    chooseDirection depth i (d.withWaddr a) =
        ((chooseDirection depth i d).1, (chooseDirection depth i d).2.withWaddr a) ∧
      (chooseDirection depth i d).2.waddr = d.waddr ∧
      ∀ t ∈ (chooseDirection depth i d).2.stk, t = i ∨ t ∈ d.stk := by
  cases hstk : d.stk with
  | nil =>
    rw [chooseDirection_of_nil hstk, chooseDirection_of_nil (d := d.withWaddr a) hstk, push_withWaddr, ← hstk]
    exact ⟨rfl, Discovery.push_waddr depth d i, fun t => mem_push⟩
  | cons u rest =>
    obtain hiu | rfl | hui := lt_trichotomy i u
    · rw [chooseDirection_of_lt hstk hiu, chooseDirection_of_lt (d := d.withWaddr a) hstk hiu, ← hstk]
      have hread : a.getLsbD i.val = d.waddr.getLsbD i.val := h i.val (.inr ⟨u, hstk ▸ List.mem_cons_self, hiu⟩)
      exact ⟨congrArg (·, _) hread, rfl, fun t => .inr⟩
    · rw [chooseDirection_of_eq hstk rfl, chooseDirection_of_eq (d := d.withWaddr a) hstk rfl]
      exact ⟨rfl, rfl, fun t ht => .inr (List.mem_cons_of_mem i ht)⟩
    · rw [chooseDirection_of_gt hstk hui, chooseDirection_of_gt (d := d.withWaddr a) hstk hui, push_withWaddr, ← hstk]
      exact ⟨rfl, Discovery.push_waddr depth d i, fun t => mem_push⟩

theorem walkDirection_withWaddr (depth : Nat) (i : Fin 64) (b bc : Bit) {d : Discovery} {a : Address}
    (h : Settled i.val d.stk a d.waddr) :
    walkDirection depth i b bc (d.withWaddr a) =
        ((walkDirection depth i b bc d).1, (walkDirection depth i b bc d).2.withWaddr a) ∧
      (walkDirection depth i b bc d).2.waddr = d.waddr ∧
      ∀ t ∈ (walkDirection depth i b bc d).2.stk, t = i ∨ t ∈ d.stk := by
  unfold walkDirection
  split
  · exact ⟨rfl, rfl, fun t => .inr⟩
  · exact chooseDirection_withWaddr depth i h

/-- The bits of a walk go the same way for both working addresses, and settle them as far as they were done. -/
theorem walkBits_withWaddr (depth : Nat) (bus : Bus) (P : TimingProfile) {is : List (Fin 64)} {i : Nat}
    (his : PositionsFrom i is) {d : Discovery} {a : Address} (w : Wire)
    (h : Settled i d.stk a d.waddr) :
    let e := walkBits depth bus P is d w
    ∃ a', walkBits depth bus P is (d.withWaddr a) w = { e with disc := e.disc.withWaddr a' } ∧
      (e.result = .done → Settled (i + is.length) e.disc.stk a' e.disc.waddr) := by
  induction is generalizing i d a w with
  | nil => exact ⟨a, rfl, fun _ => h⟩
  | cons x is ih =>
    obtain ⟨rfl, hfrom⟩ := his.cons
    cases hboth : (w.readBitSeq bus P).1 && ((w.readBitSeq bus P).2.readBitSeq bus P).1 with
    | true =>
      simp only [walkBits_cons_of_both depth x is _ rfl rfl hboth]
      exact ⟨a, rfl, WalkResult.noConfusion⟩
    | false =>
      obtain ⟨hdir, hwaddr, hstk⟩ := walkDirection_withWaddr depth x (w.readBitSeq bus P).1
        ((w.readBitSeq bus P).2.readBitSeq bus P).1 h
      simp only [walkBits_cons_of_not_both depth x is _ rfl rfl hboth, hdir]
      generalize walkDirection depth x _ _ d = c at hwaddr hstk
      have hset : Settled (x.val + 1) (c.2.record x c.1).stk (setAddressBit a x c.1) (c.2.record x c.1).waddr := by
        intro j hj
        rw [Discovery.record_waddr, setAddressBit_getLsbD, setAddressBit_getLsbD, hwaddr]
        split
        · rfl
        · refine h j ?_
          obtain hj | ⟨t, ht, hjt⟩ := hj
          · exact .inl (by omega)
          · obtain rfl | ht := hstk t ht
            · exact .inl hjt
            · exact .inr ⟨t, ht, hjt⟩
      obtain ⟨a', hwalk, hdone⟩ := ih hfrom (((w.readBitSeq bus P).2.readBitSeq bus P).2.writeBitSeq P c.1) hset
      refine ⟨a', hwalk, fun hd => ?_⟩
      rw [List.length_cons, Nat.add_comm is.length, ← Nat.add_assoc]
      exact hdone hd

/-- So does a walk, whose reset and command do not read the engine. -/
theorem searchWalk_withWaddr {s : State} {a : Address} (h : Settled 0 s.disc.stk a s.disc.waddr) {r : WalkResult}
    {v : State} (hwalk : searchWalk s = (r, v)) :
    ∃ a', searchWalk (s.withWaddr a) = (r, v.withWaddr a') ∧
      (r = .done → AgreeBelow s.params.addrBits a' v.disc.waddr ∧ Settled 0 v.disc.stk a' v.disc.waddr) := by
  cases hr : (s.wire.resetSeq s.bus s.profile).1 with
  | false =>
    rw [searchWalk_of_absent hr] at hwalk
    cases hwalk
    exact ⟨a, searchWalk_of_absent (s := s.withWaddr a) hr, WalkResult.noConfusion⟩
  | true =>
    rw [searchWalk_of_present rfl hr] at hwalk
    cases hwalk
    obtain ⟨a', hbits, hdone⟩ := walkBits_withWaddr s.params.stackDepth s.bus s.profile
      (bitPositions_from s.params.addrBits)
      ((s.wire.resetSeq s.bus s.profile).2.writeByteSeq s.profile searchByte) h
    refine ⟨a', ?_, fun hd => ⟨.of_min fun j hj => hdone hd j (.inl ?_), fun j hj => hdone hd j (.inr ?_)⟩⟩
    · rw [searchWalk_of_present (s := s.withWaddr a) rfl hr]
      exact congrArg (fun e : WalkEnd => (e.result, { s with wire := e.wire, presence := true, disc := e.disc })) hbits
    · rwa [bitPositions_length, Nat.zero_add]
    · exact hj.resolve_left (Nat.not_lt_zero j)

/-- What is appended depends on the bits of an address alone. -/
theorem appendAddress_withWaddr {s : State} {a : Address} (h : AgreeBelow s.params.addrBits a s.disc.waddr) :
    appendAddress (s.withWaddr a) = (appendAddress s).withWaddr a := by
  have hbytes : bytesOfAddress s.params.addrBytes a = bytesOfAddress s.params.addrBytes s.disc.waddr := by
    refine List.map_congr_left fun j hj => h.byte ?_
    rw [List.mem_range, Params.addrBytes] at hj
    omega
  have happend : appendAddress (s.withWaddr a) =
      { (s.withWaddr a).storeBytes (s.resAddr s.devcount.toNat 0) (bytesOfAddress s.params.addrBytes a) with
        devcount := s.devcount + 1 } := rfl
  rw [happend, hbytes]
  rfl

/-- After a walk that is done the two working addresses are appended alike. -/
theorem searchWalk_done_withWaddr {s v : State} {a : Address} (h : Settled 0 s.disc.stk a s.disc.waddr)
    (hwalk : searchWalk s = (.done, v)) :
    ∃ a', searchWalk (s.withWaddr a) = (.done, v.withWaddr a') ∧
      appendAddress (v.withWaddr a') = (appendAddress v).withWaddr a' ∧ Settled 0 v.disc.stk a' v.disc.waddr := by
  obtain ⟨a', hwalk', hdone⟩ := searchWalk_withWaddr h hwalk
  obtain ⟨hagree, hsettled⟩ := hdone rfl
  rw [← (searchWalk_searched s).params, hwalk] at hagree
  exact ⟨a', hwalk', appendAddress_withWaddr hagree, hsettled⟩

theorem GoesOn.withWaddr {s v : State} {a : Address} (h : Settled 0 s.disc.stk a s.disc.waddr) (hgo : GoesOn s v) :
    ∃ a', GoesOn (s.withWaddr a) (v.withWaddr a') ∧ Settled 0 v.disc.stk a' v.disc.waddr := by
  obtain ⟨hwalk, hstk, hlimit⟩ := hgo
  obtain ⟨a', hwalk', happend, hsettled⟩ := searchWalk_done_withWaddr h hwalk
  have hgo := GoesOn.next hwalk' hstk hlimit
  rw [happend] at hgo
  exact ⟨a', hgo, hsettled⟩

theorem PassEnds.withWaddr {s t : State} {a : Address} (h : Settled 0 s.disc.stk a s.disc.waddr) (hend : PassEnds s t) :
    ∃ a', PassEnds (s.withWaddr a) (t.withWaddr a') := by
  cases hend with
  | noPresence hwalk =>
    obtain ⟨a', hwalk', -⟩ := searchWalk_withWaddr h hwalk
    exact ⟨a', .noPresence hwalk'⟩
  | violation hwalk =>
    obtain ⟨a', hwalk', -⟩ := searchWalk_withWaddr h hwalk
    exact ⟨a', .violation hwalk'⟩
  | explored hwalk hstk =>
    obtain ⟨a', hwalk', happend, -⟩ := searchWalk_done_withWaddr h hwalk
    have hend := PassEnds.explored hwalk' hstk
    rw [happend] at hend
    exact ⟨a', hend⟩
  | limit hwalk hstk hlimit =>
    obtain ⟨a', hwalk', happend, -⟩ := searchWalk_done_withWaddr h hwalk
    have hend := PassEnds.limit hwalk' hstk hlimit
    rw [happend] at hend
    exact ⟨a', hend⟩

/-- A pass ends the same way for both, but for the working address. -/
theorem searchLoop_withWaddr (n : Nat) {s : State} {a : Address} (h : Settled 0 s.disc.stk a s.disc.waddr) :
    ∃ a', searchLoop n (s.withWaddr a) = (searchLoop n s).withWaddr a' := by
  induction n generalizing s a with
  | zero => exact ⟨a, rfl⟩
  | succ n ih =>
    obtain ⟨v, hgo⟩ | ⟨t, hend⟩ := goesOn_or_passEnds s
    · obtain ⟨a', hgo', hsettled⟩ := hgo.withWaddr h
      rw [hgo.searchLoop, hgo'.searchLoop]
      exact ih hsettled
    · obtain ⟨a', hend'⟩ := hend.withWaddr h
      exact ⟨a', by rw [hend.searchLoop, hend'.searchLoop]⟩

/-- Settles O56: the two passes start alike but for the working address, of which an empty stack settles no bit. -/
theorem searchForgetsEarlierPasses : Obligations.SearchForgetsEarlierPasses := by
  intro s t d c m hclear hexec
  obtain rfl := execSearch_next hexec
  have hstart : startPass { s with disc := d, devcount := c, mem := m } = (startPass s).withWaddr d.waddr := by
    have hmem : (startPass { s with disc := d, devcount := c, mem := m }).mem = (startPass s).mem := hclear
    calc startPass { s with disc := d, devcount := c, mem := m }
        = { (startPass s).withWaddr d.waddr with
            mem := (startPass { s with disc := d, devcount := c, mem := m }).mem } := rfl
      _ = (startPass s).withWaddr d.waddr := by rw [hmem]; rfl
  obtain ⟨a, ha⟩ := searchLoop_withWaddr (s.maxdev.toNat + 1) (s := startPass s) (a := d.waddr) fun j hj => by
    obtain hj | ⟨u, hu, -⟩ := hj
    · exact absurd hj (Nat.not_lt_zero j)
    · exact absurd hu List.not_mem_nil
  rw [← hstart] at ha
  exact ⟨a, congrArg _ ha⟩

end Sys2Proof.Machine
end

section
/-!
PROOFS. The search of a population (41_discovery R188): the order of the addresses, the branch points the stack marks,
and the address a walk finds.
-/

namespace Sys2Proof.Machine

/-! ### The order of a search -/

theorem agreeBelow_succ_iff {i : Nat} {a b : Address} :
    AgreeBelow (i + 1) a b ↔ AgreeBelow i a b ∧ a.getLsbD i = b.getLsbD i := Nat.forall_lt_succ_right

/-- The number an address is when its bit 0 is the most significant (R188). -/
def searchRank (a : Address) : Nat := a.reverse.toNat

theorem searchRank_testBit (a : Address) {i : Nat} (hi : i < 64) : (searchRank a).testBit (63 - i) = a.getLsbD i := by
  rw [searchRank, BitVec.testBit_toNat, BitVec.getLsbD_reverse, BitVec.getMsbD]
  simp [show 63 - i < 64 by omega, show 63 - (63 - i) = i by omega]

theorem searchRank_lt_of_searchBefore {a b : Address} (h : searchBefore a b) : searchRank a < searchRank b := by
  obtain ⟨i, hi, hbelow, ha, hb⟩ := h
  refine Nat.lt_of_testBit (63 - i) (by rw [searchRank_testBit a hi, ha]) (by rw [searchRank_testBit b hi, hb]) ?_
  intro j hj
  obtain hlt | hge := Nat.lt_or_ge j 64
  · rw [show j = 63 - (63 - j) by omega, searchRank_testBit a (by omega), searchRank_testBit b (by omega),
      hbelow (63 - j) (by omega)]
  · have hbound (c : Address) : searchRank c < 2 ^ j := c.reverse.isLt.trans_le (Nat.pow_le_pow_right Nat.two_pos hge)
    rw [Nat.testBit_lt_two_pow (hbound a), Nat.testBit_lt_two_pow (hbound b)]

/-- Of two addresses one comes before the other: the first bit they differ in says which. -/
theorem searchBefore_or_searchBefore {a b : Address} (h : a ≠ b) : searchBefore a b ∨ searchBefore b a := by
  have hdiff : ∃ i, a.getLsbD i ≠ b.getLsbD i := by
    by_contra hno
    exact h (BitVec.eq_of_getLsbD_eq fun i _ => not_not.1 (not_exists.1 hno i))
  obtain ⟨i, hi, hfirst⟩ := Nat.findX hdiff
  have hbelow : AgreeBelow i a b := fun j hj => not_not.1 (hfirst j hj)
  have hlt : i < 64 := by
    by_contra hge
    exact hi (by rw [BitVec.getLsbD_of_ge _ _ (Nat.not_lt.1 hge), BitVec.getLsbD_of_ge _ _ (Nat.not_lt.1 hge)])
  cases ha : a.getLsbD i with
  | false => exact .inl ⟨i, hlt, hbelow, ha, by simpa [ha] using hi⟩
  | true => exact .inr ⟨i, hlt, hbelow.symm, by simpa [ha] using hi, ha⟩

theorem searchBefore_irrefl (a : Address) : ¬ searchBefore a a :=
  fun h => Nat.lt_irrefl _ (searchRank_lt_of_searchBefore h)

theorem not_searchBefore_of_searchBefore {a b : Address} (h : searchBefore a b) : ¬ searchBefore b a :=
  fun k => Nat.lt_asymm (searchRank_lt_of_searchBefore h) (searchRank_lt_of_searchBefore k)

/-- Distinct addresses can be put in the order of a search. -/
theorem exists_searchBefore_perm {devices : List Address} (h : devices.Nodup) :
    ∃ found : List Address, found.Perm devices ∧ found.Pairwise searchBefore := by
  refine ⟨devices.mergeSort fun a b => decide (searchRank a ≤ searchRank b), List.mergeSort_perm _ _, ?_⟩
  have hsorted := List.pairwise_mergeSort (le := fun a b => decide (searchRank a ≤ searchRank b))
    (fun a b c hab hbc => decide_eq_true ((of_decide_eq_true hab).trans (of_decide_eq_true hbc)))
    (fun a b => by simpa using Nat.le_total (searchRank a) (searchRank b)) devices
  have hnodup := (List.mergeSort_perm devices fun a b => decide (searchRank a ≤ searchRank b)).nodup_iff.2 h
  refine (hsorted.and hnodup).imp fun {a b} hab => ?_
  exact (searchBefore_or_searchBefore hab.2).resolve_right fun hba =>
    Nat.not_lt.2 (of_decide_eq_true hab.1) (searchRank_lt_of_searchBefore hba)

/-- In a list in that order an address comes before another exactly when its place does. -/
theorem searchBefore_getElem_iff {found : List Address} (h : found.Pairwise searchBefore) {i j : Nat}
    (hi : i < found.length) (hj : j < found.length) : searchBefore found[i] found[j] ↔ i < j := by
  have hlt := List.pairwise_iff_getElem.1 h
  refine ⟨fun hbefore => ?_, hlt i j hi hj⟩
  by_contra hge
  obtain heq | hji := Nat.eq_or_lt_of_le (Nat.not_lt.1 hge)
  · subst heq
    exact searchBefore_irrefl _ hbefore
  · exact not_searchBefore_of_searchBefore hbefore (hlt j i hj hi hji)

/-! ### Branch points -/

/-- Address `p` has a 0 at position `i` where another of the addresses that agree with it so far has a 1: an earlier
discrepancy whose 1-branch is still to be explored (R182). -/
def Branch (found : List Address) (p : Address) (i : Nat) : Prop :=
  p.getLsbD i = false ∧ ∃ a ∈ found, AgreeBelow i a p ∧ a.getLsbD i = true

/-- The stack holds the branch points of `p`, rising. -/
structure Marks (found : List Address) (p : Address) (stk : List (Fin 64)) : Prop where
  rises : Rises stk
  mem_iff : ∀ i : Fin 64, i ∈ stk ↔ Branch found p i

section
variable {found : List Address} {p q : Address}

/-- A branch point depends on the bits up to it. -/
theorem Branch.congr {i : Nat} (h : Branch found p i) (hpq : AgreeBelow (i + 1) p q) : Branch found q i := by
  obtain ⟨hbelow, hbit⟩ := agreeBelow_succ_iff.1 hpq
  obtain ⟨hp, a, ha, hap, hai⟩ := h
  exact ⟨hbit ▸ hp, a, ha, hap.trans hbelow, hai⟩

theorem Branch.searchBefore {i : Nat} (h : Branch found p i) : ∃ a ∈ found, searchBefore p a := by
  obtain ⟨hp, a, ha, hap, hai⟩ := h
  exact ⟨a, ha, i, BitVec.lt_of_getLsbD hai, hap.symm, hp, hai⟩

/-- The stack is empty exactly when no address is left to find (R184). -/
theorem Marks.eq_nil_iff {stk : List (Fin 64)} (h : Marks found p stk) :
    stk = [] ↔ ∀ a ∈ found, ¬ Machine.searchBefore p a := by
  rw [List.eq_nil_iff_forall_not_mem]
  constructor
  · rintro hnil a ha ⟨i, hi, hpa, hp, hai⟩
    exact hnil ⟨i, hi⟩ ((h.mem_iff _).2 ⟨hp, a, ha, AgreeBelow.symm hpa, hai⟩)
  · intro hlast i hi
    obtain ⟨a, ha, hpa⟩ := ((h.mem_iff i).1 hi).searchBefore
    exact hlast a ha hpa

/-- The address after `p` turns off at the last branch point of `p`. -/
theorem Marks.stk_eq_cons {stk : List (Fin 64)} (h : Marks found p stk) {t : Fin 64} (hq : q ∈ found)
    (hpq : AgreeBelow t.val p q) (hp : p.getLsbD t.val = false) (hqt : q.getLsbD t.val = true)
    (hnext : ∀ a ∈ found, Machine.searchBefore p a → ¬ Machine.searchBefore a q) : ∃ rest, stk = t :: rest := by
  have hlast (i : Fin 64) (hi : i ∈ stk) : ¬ t < i := by
    intro hti
    obtain ⟨hpi, a, ha, hap, hai⟩ := (h.mem_iff i).1 hi
    exact hnext a ha ⟨i, i.isLt, hap.symm, hpi, hai⟩
      ⟨t, t.isLt, (hap.mono (Fin.le_of_lt hti)).trans hpq, (hap t hti).trans hp, hqt⟩
  have hmem : t ∈ stk := (h.mem_iff t).2 ⟨hp, q, hq, hpq.symm, hqt⟩
  cases hstk : stk with
  | nil => simp [hstk] at hmem
  | cons u rest =>
    have hrise := h.rises
    rw [hstk] at hmem hlast hrise
    obtain rfl | ht := List.mem_cons.1 hmem
    · exact ⟨rest, rfl⟩
    · exact absurd (List.rel_of_pairwise_cons hrise ht) (hlast u List.mem_cons_self)

end

/-! ### A bus that answers for a population -/

/-- The bus side after the two reads and the write of one bit of a walk (R181). -/
def Wire.bitTriple (bus : Bus) (P : TimingProfile) (b : Bit) (w : Wire) : Wire :=
  ((w.readBitSeq bus P).2.readBitSeq bus P).2.writeBitSeq P b

/-- Over these bit positions the bus answers the reads as the wired-AND of some active addresses does, of which each bit
written back keeps those that have it (R187). -/
def AnswersFor (bus : Bus) (P : TimingProfile) : List (Fin 64) → List Address → Wire → Prop
  | [], _, _ => True
  | i :: is, active, w =>
    (w.readBitSeq bus P).1 = active.all (fun a => a.getLsbD i) ∧
    ((w.readBitSeq bus P).2.readBitSeq bus P).1 = active.all (fun a => !a.getLsbD i) ∧
    ∀ b, AnswersFor bus P is (active.filter fun a => a.getLsbD i == b) (w.bitTriple bus P b)

theorem AnswersFor.next {bus : Bus} {P : TimingProfile} {i : Fin 64} {is : List (Fin 64)} {active : List Address}
    {w : Wire} (h : AnswersFor bus P (i :: is) active w) (b : Bit) :
    AnswersFor bus P is (active.filter fun a => a.getLsbD i == b) (w.bitTriple bus P b) := by
  obtain ⟨-, -, hnext⟩ := h
  exact hnext b

theorem all_eq_of_forall {α : Type} {l : List α} {f : α → Bool} {c : Bool} {q : α} (hq : q ∈ l)
    (h : ∀ a ∈ l, f a = c) : l.all f = c := by
  cases c with
  | true => exact List.all_eq_true.2 h
  | false => exact List.all_eq_false.2 ⟨q, hq, by simp [h q hq]⟩

theorem all_eq_false_of_ne {α : Type} {l : List α} {f : α → Bool} {a q : α} (ha : a ∈ l) (hq : q ∈ l)
    (hne : f a ≠ f q) : l.all f = false := by
  refine List.all_eq_false.2 ?_
  cases hfa : f a with
  | false => exact ⟨a, ha, by simp [hfa]⟩
  | true => exact ⟨q, hq, by simpa [hfa] using hne.symm⟩

section
variable {bus : Bus} {P : TimingProfile} {x : Fin 64} {is : List (Fin 64)} {active : List Address} {w : Wire}
  (hans : AnswersFor bus P (x :: is) active w) (depth : Nat) {q : Address} (hq : q ∈ active)
include hans hq

/-- A bit in which the active addresses agree is taken. -/
theorem walkBits_cons_of_agreed (d : Discovery) (hagreed : ∀ a ∈ active, a.getLsbD x = q.getLsbD x) :
    walkBits depth bus P (x :: is) d w =
      walkBits depth bus P is (d.record x (q.getLsbD x)) (w.bitTriple bus P (q.getLsbD x)) := by
  obtain ⟨hb, hbc, -⟩ := hans
  rw [all_eq_of_forall hq hagreed] at hb
  rw [all_eq_of_forall (c := !q.getLsbD x) hq fun a ha => congrArg not (hagreed a ha)] at hbc
  have hdir : walkDirection depth x (w.readBitSeq bus P).1 ((w.readBitSeq bus P).2.readBitSeq bus P).1 d =
      (q.getLsbD x, d) := by
    rw [hb, hbc]
    cases q.getLsbD x <;> rfl
  rw [walkBits_cons_of_not_both depth x is d rfl rfl (by rw [hb, hbc, Bool.and_not_self]), hdir]
  rfl

/-- A bit in which they do not is a discrepancy. -/
theorem walkBits_cons_of_discrepancy {d d' : Discovery} {a : Address} (ha : a ∈ active)
    (hne : a.getLsbD x ≠ q.getLsbD x) (hdir : chooseDirection depth x d = (q.getLsbD x, d')) :
    walkBits depth bus P (x :: is) d w =
      walkBits depth bus P is (d'.record x (q.getLsbD x)) (w.bitTriple bus P (q.getLsbD x)) := by
  obtain ⟨hb, hbc, -⟩ := hans
  rw [all_eq_false_of_ne ha hq hne] at hb
  rw [all_eq_false_of_ne (f := fun a => !a.getLsbD x) ha hq fun h => hne (Bool.not_inj h)] at hbc
  have hdir' : walkDirection depth x (w.readBitSeq bus P).1 ((w.readBitSeq bus P).2.readBitSeq bus P).1 d =
      (q.getLsbD x, d') := by
    rw [hb, hbc]
    exact hdir
  rw [walkBits_cons_of_not_both depth x is d rfl rfl (by rw [hb, hbc, Bool.and_false]), hdir']
  rfl

end

/-! ### The address a walk finds -/

/-- The addresses still active before bit `i` of a walk on its way to `q`. -/
abbrev ActiveBelow (found : List Address) (q : Address) (i : Nat) (active : List Address) : Prop :=
  ∀ a, a ∈ active ↔ a ∈ found ∧ AgreeBelow i a q

theorem ActiveBelow.filter {found active : List Address} {q : Address} {i : Nat} (h : ActiveBelow found q i active) :
    ActiveBelow found q (i + 1) (active.filter fun a => a.getLsbD i == q.getLsbD i) := by
  intro a
  rw [List.mem_filter, h a, beq_iff_eq, agreeBelow_succ_iff, and_assoc]

theorem agreeBelow_record {d : Discovery} {q : Address} {x : Fin 64} (h : AgreeBelow x.val d.waddr q) :
    AgreeBelow (x.val + 1) (d.record x (q.getLsbD x)).waddr q := by
  intro j hj
  rw [Discovery.record_waddr, setAddressBit_getLsbD]
  split
  · next hjx => rw [hjx]
  · exact h j (by omega)

/-- A walk has found `q` of addresses of `n` bits: it was done, `WADDR` holds `q`, and the stack marks the branch
points of `q` among those positions. -/
structure Found (found : List Address) (n : Nat) (q : Address) (e : WalkEnd) : Prop where
  done : e.result = .done
  waddr : AgreeBelow n e.disc.waddr q
  marks : Marks found q e.disc.stk

/-- A walk on its way to `q`, before bit `i`, is above its stack: the stack holds the branch points of `q` so far, and
`WADDR` its bits so far. -/
structure Descending (found : List Address) (q : Address) (i : Nat) (d : Discovery) : Prop where
  rises : Rises d.stk
  mem_iff : ∀ j : Fin 64, j ∈ d.stk ↔ j.val < i ∧ Branch found q j
  waddr : AgreeBelow i d.waddr q

section
variable {found : List Address} {q : Address} {x : Fin 64} {d : Discovery}

theorem Descending.above (h : Descending found q x.val d) : Above x d.stk := fun t ht => ((h.mem_iff t).1 ht).1

/-- A bit that is no branch point of `q` goes by without a push. -/
theorem Descending.pass (h : Descending found q x.val d) (hno : ¬ Branch found q x) :
    Descending found q (x.val + 1) (d.record x (q.getLsbD x)) where
  rises := h.rises
  mem_iff j := by
    rw [Discovery.record_stk, h.mem_iff j]
    refine ⟨fun ⟨hj, hbranch⟩ => ⟨by omega, hbranch⟩, fun ⟨hj, hbranch⟩ => ⟨?_, hbranch⟩⟩
    exact lt_of_le_of_ne (Nat.le_of_lt_succ hj) fun hjx => hno (hjx ▸ hbranch)
  waddr := agreeBelow_record h.waddr

/-- A branch point of `q` is pushed. -/
theorem Descending.push (h : Descending found q x.val d) (hbranch : Branch found q x) :
    Descending found q (x.val + 1) (({ d with stk := x :: d.stk } : Discovery).record x (q.getLsbD x)) where
  rises := List.pairwise_cons.2 ⟨h.above, h.rises⟩
  mem_iff j := by
    rw [Discovery.record_stk, List.mem_cons, h.mem_iff j]
    constructor
    · rintro (rfl | ⟨hj, hb⟩)
      · exact ⟨Nat.lt_succ_self _, hbranch⟩
      · exact ⟨by omega, hb⟩
    · rintro ⟨hj, hb⟩
      obtain hj | hj := Nat.lt_succ_iff_lt_or_eq.1 hj
      · exact .inr ⟨hj, hb⟩
      · exact .inl (Fin.ext hj)
  waddr := agreeBelow_record (d := { d with stk := x :: d.stk }) h.waddr

/-- Where `q` turns off from the address `p` found before, the branch point is popped, and the walk is above what is
left of the stack. -/
theorem Descending.turn {p : Address} {rest : List (Fin 64)} (hmarks : Marks found p (x :: rest))
    (hpq : AgreeBelow x.val p q) (hqx : q.getLsbD x = true) (hwaddr : AgreeBelow x.val d.waddr p) :
    Descending found q (x.val + 1) (({ d with stk := rest } : Discovery).record x (q.getLsbD x)) := by
  obtain ⟨hbelow, hrise⟩ := List.pairwise_cons.1 hmarks.rises
  refine ⟨hrise, fun j => ?_, agreeBelow_record (d := { d with stk := rest }) (hwaddr.trans hpq)⟩
  have hmem := hmarks.mem_iff j
  rw [List.mem_cons] at hmem
  rw [Discovery.record_stk]
  constructor
  · intro hj
    have hjx : j.val < x.val := hbelow j hj
    exact ⟨by omega, (hmem.1 (.inr hj)).congr (hpq.mono hjx)⟩
  · rintro ⟨hj, hbranch⟩
    obtain hj | hj := Nat.lt_succ_iff_lt_or_eq.1 hj
    · exact (hmem.2 (hbranch.congr (hpq.mono hj).symm)).resolve_left fun h => by
        rw [h] at hj
        exact Nat.lt_irrefl _ hj
    · have hqj := hbranch.1
      rw [hj, hqx] at hqj
      cases hqj

end

section
variable {bus : Bus} {P : TimingProfile} {depth n : Nat} (hdepth : n ≤ depth) {found : List Address}
  (hbits : ∀ a ∈ found, ∀ i, n ≤ i → a.getLsbD i = false) {q : Address} (hq : q ∈ found)
include hdepth hbits hq

/-- Above its stack a walk takes the 0 of each discrepancy, and comes to the first of the addresses it can still
reach. -/
theorem walkBits_descends {is : List (Fin 64)} {i : Nat} (his : PositionsFrom i is) (hn : i + is.length = n)
    {active : List Address} {d : Discovery} {w : Wire} (hans : AnswersFor bus P is active w)
    (hactive : ActiveBelow found q i active) (hleast : ∀ a ∈ found, AgreeBelow i a q → ¬ searchBefore a q)
    (hdesc : Descending found q i d) : Found found n q (walkBits depth bus P is d w) := by
  induction is generalizing i active d w with
  | nil =>
    obtain rfl : i = n := hn
    refine ⟨rfl, hdesc.waddr, hdesc.rises, fun j => (hdesc.mem_iff j).trans (and_iff_right_iff_imp.2 ?_)⟩
    rintro ⟨-, a, ha, -, haj⟩
    by_contra hj
    rw [hbits a ha j (Nat.not_lt.1 hj)] at haj
    cases haj
  | cons x is ih =>
    obtain ⟨rfl, hfrom⟩ := his.cons
    rw [List.length_cons] at hn
    have hqa : q ∈ active := (hactive q).2 ⟨hq, fun _ _ => rfl⟩
    have hgo {d' : Discovery} (hd' : Descending found q (x.val + 1) d') :=
      ih hfrom (by omega) (hans.next (q.getLsbD x)) hactive.filter
        (fun a ha haq => hleast a ha (haq.mono (Nat.le_succ _))) hd'
    by_cases hagreed : ∀ a ∈ active, a.getLsbD x = q.getLsbD x
    · rw [walkBits_cons_of_agreed hans depth hqa d hagreed]
      refine hgo (hdesc.pass ?_)
      rintro ⟨hqx, a, ha, haq, hax⟩
      rw [hagreed a ((hactive a).2 ⟨ha, haq⟩), hqx] at hax
      cases hax
    · push Not at hagreed
      obtain ⟨a, ha, hne⟩ := hagreed
      obtain ⟨haf, haq⟩ := (hactive a).1 ha
      have hqx : q.getLsbD x = false := by
        by_contra hqx
        rw [Bool.not_eq_false] at hqx
        exact hleast a haf haq ⟨x, x.isLt, haq, Bool.eq_false_iff.2 (hqx ▸ hne), hqx⟩
      have hax : a.getLsbD x = true := Bool.ne_false_iff.1 (hqx ▸ hne)
      have hdir := chooseDirection_of_above hdesc.rises hdesc.above (depth := depth) (by omega)
      rw [← hqx] at hdir
      rw [walkBits_cons_of_discrepancy hans depth hqa ha hne hdir]
      exact hgo (hdesc.push ⟨hqx, a, haf, haq, hax⟩)

/-- After a walk that found `p` the next one retakes its bits up to the last branch point of `p`, turns off there, and
comes to the address after `p`. -/
theorem walkBits_replays {p : Address} (hp : p ∈ found) {t : Fin 64} (hpq : AgreeBelow t.val p q)
    (hpt : p.getLsbD t = false) (hqt : q.getLsbD t = true)
    (hafter : ∀ a ∈ found, searchBefore p a → ¬ searchBefore a q) {rest : List (Fin 64)}
    (hmarks : Marks found p (t :: rest)) {is : List (Fin 64)} {i : Nat} (his : PositionsFrom i is)
    (hn : i + is.length = n) (hit : i ≤ t.val) {active : List Address} {d : Discovery} {w : Wire}
    (hans : AnswersFor bus P is active w) (hactive : ActiveBelow found q i active) (hstk : d.stk = t :: rest)
    (hwaddr : AgreeBelow n d.waddr p) : Found found n q (walkBits depth bus P is d w) := by
  have htn : t.val < n := by
    by_contra hge
    rw [hbits q hq t (Nat.not_lt.1 hge)] at hqt
    cases hqt
  induction is generalizing i active d w with
  | nil =>
    rw [List.length_nil] at hn
    omega
  | cons x is ih =>
    obtain ⟨rfl, hfrom⟩ := his.cons
    rw [List.length_cons] at hn
    have hqa : q ∈ active := (hactive q).2 ⟨hq, fun _ _ => rfl⟩
    have hnext := hans.next (q.getLsbD x)
    obtain hxt | hxt := Nat.lt_or_eq_of_le hit
    · have hread : d.waddr.getLsbD x = q.getLsbD x := (hwaddr x (by omega)).trans (hpq x hxt)
      have hstep : walkBits depth bus P (x :: is) d w =
          walkBits depth bus P is (d.record x (q.getLsbD x)) (w.bitTriple bus P (q.getLsbD x)) := by
        by_cases hagreed : ∀ a ∈ active, a.getLsbD x = q.getLsbD x
        · exact walkBits_cons_of_agreed hans depth hqa d hagreed
        · push Not at hagreed
          obtain ⟨a, ha, hne⟩ := hagreed
          exact walkBits_cons_of_discrepancy hans depth hqa ha hne (hread ▸ chooseDirection_of_lt hstk hxt)
      rw [hstep]
      refine ih hfrom (by omega) hxt hnext hactive.filter hstk fun j hj => ?_
      rw [Discovery.record_waddr, setAddressBit_getLsbD]
      split
      · next hjx => rw [hjx, hpq x hxt]
      · exact hwaddr j hj
    · obtain rfl : x = t := Fin.ext hxt
      have hpa : p ∈ active := (hactive p).2 ⟨hp, hpq⟩
      have hdir := chooseDirection_of_eq (depth := depth) hstk rfl
      rw [← hqt] at hdir
      rw [walkBits_cons_of_discrepancy hans depth hqa hpa (by rw [hpt, hqt]; exact Bool.false_ne_true) hdir]
      refine walkBits_descends hdepth hbits hq hfrom (by omega) hnext hactive.filter (fun a ha haq => ?_)
        (.turn hmarks hpq hqt (hwaddr.mono htn.le))
      obtain ⟨haq, hax⟩ := agreeBelow_succ_iff.1 haq
      exact hafter a ha ⟨x, x.isLt, hpq.trans haq.symm, hpt, hax.trans hqt⟩

end

/-- The walk that begins with this engine is on its way to `q`: the first address of all where the stack is empty,
else the one after the address found before. -/
def LeadsTo (found : List Address) (n : Nat) (d : Discovery) (q : Address) : Prop :=
  (d.stk = [] ∧ ∀ a ∈ found, ¬ searchBefore a q) ∨
  ∃ p ∈ found, Marks found p d.stk ∧ AgreeBelow n d.waddr p ∧ searchBefore p q ∧
    ∀ a ∈ found, searchBefore p a → ¬ searchBefore a q

/-- A walk finds the address it is on its way to. -/
theorem walkBits_found {bus : Bus} {P : TimingProfile} {depth n : Nat} (hdepth : n ≤ depth) (h64 : n ≤ 64)
    {found : List Address} (hbits : ∀ a ∈ found, ∀ i, n ≤ i → a.getLsbD i = false) {q : Address} (hq : q ∈ found)
    {active : List Address} (hactive : ∀ a, a ∈ active ↔ a ∈ found) {d : Discovery} {w : Wire}
    (hans : AnswersFor bus P (bitPositions n) active w) (hlead : LeadsTo found n d q) :
    Found found n q (walkBits depth bus P (bitPositions n) d w) := by
  have his := bitPositions_from n
  have hn : 0 + (bitPositions n).length = n := by rw [bitPositions_length]; omega
  have hbelow : ActiveBelow found q 0 active := fun a =>
    (hactive a).trans (and_iff_left fun j hj => absurd hj (Nat.not_lt_zero j)).symm
  obtain ⟨hstk, hleast⟩ | ⟨p, hp, hmarks, hwaddr, ⟨t, ht, hpq, hpt, hqt⟩, hafter⟩ := hlead
  · exact walkBits_descends hdepth hbits hq his hn hans hbelow (fun a ha _ => hleast a ha)
      ⟨hstk ▸ .nil, fun j => by simp [hstk], fun j hj => absurd hj (Nat.not_lt_zero j)⟩
  · obtain ⟨rest, hstk⟩ := hmarks.stk_eq_cons (t := ⟨t, ht⟩) hq hpq hpt hqt hafter
    exact walkBits_replays hdepth hbits hq hp (t := ⟨t, ht⟩) hpq hpt hqt hafter (hstk ▸ hmarks) his hn (Nat.zero_le _)
      hans hbelow hstk hwaddr

end Sys2Proof.Machine
end

section
/-!
PROOFS. SEARCH on a bus that answers for a population (41_discovery R187, R188): the pass finds its addresses in
order. Two buses do so: the fixture `DP(S)`, and for the set of all addresses the adversarial bus (R190).
-/

namespace Sys2Proof.Machine

/-! ### The entries of a pass -/

/-- The first `k` entries of `RES` hold the first `k` addresses found. -/
def HoldsEntries (found : List Address) (k : Nat) (u : State) : Prop :=
  ∀ e j, e < k → j < u.params.addrBytes → u.resByte e j = (found[e]?).map fun a => a.extractLsb' (8 * j) 8

theorem HoldsEntries.congr {found : List Address} {k : Nat} {u v : State} (h : HoldsEntries found k u)
    (hparams : v.params = u.params) (hmem : v.mem = u.mem) : HoldsEntries found k v := by
  unfold HoldsEntries State.resByte State.resAddr at *
  rwa [hparams, hmem]

/-- The address appended after them is the next of them. -/
theorem HoldsEntries.append {found : List Address} {v : State} (h : HoldsEntries found v.devcount.toNat v) {q : Address}
    (hq : found[v.devcount.toNat]? = some q) (hwaddr : AgreeBelow v.params.addrBits v.disc.waddr q) :
    HoldsEntries found (v.devcount.toNat + 1) (appendAddress v) := by
  intro e j he hj
  have hj' : j < v.params.addrBytes := hj
  obtain he | rfl := Nat.lt_succ_iff_lt_or_eq.1 he
  · have hat : (appendAddress v).resAddr e j = v.resAddr e 0 + j := rfl
    have hend := v.resAddr_le (Nat.succ_le_of_lt he)
    rw [State.resAddr_succ] at hend
    rw [State.resByte, hat, (appendAddress_appended v).outside _ (by omega)]
    exact h e j he hj'
  · have hbyte : 8 * j + 8 ≤ v.params.addrBits := by rw [Params.addrBytes] at hj'; omega
    rw [appendAddress_resByte v hj', hq, hwaddr.byte hbyte]
    rfl

/-! ### The pass -/

/-- SEARCH runs from `s` with a legal `MAXDEV` on a bus that answers for some devices, which are the addresses `found`
in the order of a search. -/
structure Populated (s : State) (devices found : List Address) : Prop where
  legal : s.params.legal
  maxdevLegal : s.maxdev.toNat < s.params.resultCap
  perm : found.Perm devices
  sorted : found.Pairwise searchBefore
  nonempty : 0 < found.length
  bits : ∀ a ∈ found, ∀ i, s.params.addrBits ≤ i → a.getLsbD i = false
  answers : ∀ w : Wire, (w.resetSeq s.bus s.profile).1 = true ∧
    AnswersFor s.bus s.profile (bitPositions s.params.addrBits) devices
      ((w.resetSeq s.bus s.profile).2.writeByteSeq s.profile searchByte)

section
variable {s : State} {devices found : List Address} (h : Populated s devices found) {u : State} {k : Nat}
include h

/-- A walk on its way to one of the addresses finds it. -/
theorem Populated.walk (hsearched : Searched (startPass s) u) {q : Address} (hq : q ∈ found)
    (hlead : LeadsTo found s.params.addrBits u.disc q) :
    ∃ v, searchWalk u = (.done, v) ∧ Marks found q v.disc.stk ∧ AgreeBelow s.params.addrBits v.disc.waddr q := by
  obtain ⟨-, -, ⟨-, -, h64⟩, hdepth⟩ := h.legal
  have hparams : u.params = s.params := hsearched.params
  have hbus : u.bus = s.bus := hsearched.bus
  have hspeed : u.speed = s.speed := hsearched.speed
  have hprofile : u.profile = s.profile := by rw [State.profile, State.profile, hparams, hspeed]
  obtain ⟨hpresent, hans⟩ := h.answers u.wire
  rw [← hbus, ← hprofile] at hpresent hans
  obtain ⟨hdone, hwaddr, hmarks⟩ := walkBits_found hdepth h64 h.bits hq (fun a => h.perm.mem_iff.symm) hans hlead
  rw [← hparams] at hdone hwaddr hmarks
  rw [searchWalk_of_present rfl hpresent]
  exact ⟨_, congrArg (·, _) hdone, hmarks, hparams ▸ hwaddr⟩

/-- A walk of the pass that is on its way to address `k` finds it and appends it, and leaves the stack empty exactly
when it is the last address. -/
theorem Populated.round (hpass : InPass s k u) (hk : k < found.length)
    (hlead : LeadsTo found s.params.addrBits u.disc found[k]) (hholds : HoldsEntries found k u) :
    ∃ v, searchWalk u = (.done, v) ∧ Marks found found[k] v.disc.stk ∧
      AgreeBelow s.params.addrBits v.disc.waddr found[k] ∧ (v.disc.stk = [] ↔ found.length = k + 1) ∧
      HoldsEntries found (k + 1) (appendAddress v) := by
  obtain ⟨v, hwalk, hmarks, hwaddr⟩ := h.walk hpass.searched (List.getElem_mem hk) hlead
  obtain ⟨hsearched, hmem, -, hdev, -⟩ := hpass.walk hwalk
  refine ⟨v, hwalk, hmarks, hwaddr, ?_, ?_⟩
  · rw [hmarks.eq_nil_iff]
    constructor
    · intro hnone
      by_contra hne
      have hnext : k + 1 < found.length := by omega
      exact hnone _ (List.getElem_mem hnext) ((searchBefore_getElem_iff h.sorted hk hnext).2 (Nat.lt_succ_self k))
    · intro hlen a ha
      obtain ⟨e, he, rfl⟩ := List.getElem_of_mem ha
      rw [searchBefore_getElem_iff h.sorted hk he]
      omega
  · have hparams : v.params = s.params := hsearched.params
    have hbefore := hholds.congr (hsearched.params.trans hpass.searched.params.symm) hmem
    rw [← hdev] at hbefore ⊢
    exact hbefore.append (by rw [hdev, List.getElem?_eq_getElem hk]) (hparams ▸ hwaddr)

/-- Walk `k` of the pass is on its way to address `k`, and the entries hold those before it. -/
theorem Populated.passAfter (hu : passAfter s k = some u) :
    ∃ hk : k < found.length, LeadsTo found s.params.addrBits u.disc found[k] ∧ HoldsEntries found k u := by
  have hbefore {i j : Nat} (hi : i < found.length) (hj : j < found.length) := searchBefore_getElem_iff h.sorted hi hj
  induction k generalizing u with
  | zero =>
    obtain rfl := Option.some.inj hu
    refine ⟨h.nonempty, .inl ⟨rfl, fun a ha => ?_⟩, fun e j he => absurd he (Nat.not_lt_zero e)⟩
    obtain ⟨e, he, rfl⟩ := List.getElem_of_mem ha
    rw [hbefore he h.nonempty]
    exact Nat.not_lt_zero e
  | succ k ih =>
    obtain ⟨u', hu', hgo⟩ := passAfter_succ hu
    obtain ⟨hk, hlead, hholds⟩ := ih hu'
    obtain ⟨v, hwalk, hmarks, hwaddr, hlast, hholds'⟩ := h.round (inPass_of_passAfter hu') hk hlead hholds
    obtain ⟨hwalk', hstk, -⟩ := hgo
    obtain rfl := (Prod.mk.inj (hwalk.symm.trans hwalk')).2
    have hnext : k + 1 < found.length := by
      have hmore := mt hlast.2 hstk
      omega
    refine ⟨hnext, .inr ⟨found[k], List.getElem_mem hk, hmarks, hwaddr, (hbefore hk hnext).2 (Nat.lt_succ_self k),
      fun a ha => ?_⟩, hholds'.congr rfl rfl⟩
    obtain ⟨e, he, rfl⟩ := List.getElem_of_mem ha
    rw [hbefore hk he, hbefore he hnext]
    omega

/-- The pass ends after a walk for each address, or after `MAXDEV + 1` of them (R188). -/
theorem Populated.search :
    ∃ k u t, Machine.passAfter s k = some u ∧ PassEnds u t ∧ (searchWalk u).1 = .done ∧
      k + 1 = min found.length (s.maxdev.toNat + 1) ∧
      t.result = (if found.length ≤ s.maxdev.toNat + 1 then .ok else .deviceLimit) ∧
      t.devcount.toNat = k + 1 ∧ HoldsEntries found (k + 1) t := by
  obtain ⟨k, u, t, hu, ht, -⟩ := exists_passEnds s
  have hpass := inPass_of_passAfter hu
  obtain ⟨hk, hlead, hholds⟩ := h.passAfter hu
  obtain ⟨v, hwalk, -, -, hlast, hholds'⟩ := h.round hpass hk hlead hholds
  obtain ⟨hsearched, -, hsafe, hdev, -⟩ := hpass.walk hwalk
  have hmax : v.maxdev.toNat = s.maxdev.toNat := congrArg BitVec.toNat hsearched.maxdev
  have hle := hpass.le
  have hmaxdev := h.maxdevLegal
  obtain ⟨⟨-, hcap⟩, -⟩ := h.legal
  have hcount : (v.devcount + 1).toNat = k + 1 := hdev ▸ byte_toNat_add_one (by omega)
  refine ⟨k, u, t, hu, ht, by rw [hwalk], ?_⟩
  cases ht with
  | noPresence hwalk' | violation hwalk' =>
    rw [hwalk] at hwalk'
    cases hwalk'
  | explored hwalk' hstk =>
    obtain rfl := (Prod.mk.inj (hwalk.symm.trans hwalk')).2
    have hlen := hlast.1 hstk
    exact ⟨by omega, by rw [if_pos (by omega)]; rfl, hcount, hholds'.congr rfl rfl⟩
  | limit hwalk' hstk hlimit =>
    obtain rfl := (Prod.mk.inj (hwalk.symm.trans hwalk')).2
    have hlen := mt hlast.2 hstk
    exact ⟨by omega, by rw [if_neg (by omega)]; rfl, hcount, hholds'.congr rfl rfl⟩

end

/-! ### The device-population fixture -/

/-- What the fixture answers in a read slot from where its devices are (R187). -/
def Devices.answer (D : Devices) : Bit :=
  match D.mode with
  | .bit i => D.active.all fun a => a.getLsbD i
  | .complementBit i => D.active.all fun a => !a.getLsbD i
  | .quiet | .command _ | .direction _ => true

theorem populationAnswer_eq (T : Timings) (n : Nat) (devices : List Address) (h : List LineEvent) :
    populationAnswer T n devices h =
      if atPresenceSample T h then devices.isEmpty else (populationAfter T n devices h).answer := rfl

/-- After this history, once its last slot is completed, the devices of the fixture are here. -/
def DevicesAt (T : Timings) (n : Nat) (devices : List Address) (h : List LineEvent) (D : Devices) : Prop :=
  ∃ sl, ReadsAs T h sl ∧ sl.foldl (populationSlot n devices) { active := devices, mode := .quiet } = D

section
variable {T : Timings} {n : Nat} {devices : List Address} {D : Devices} (v : Speed)

/-- A bus reset starts the fixture anew, whatever the history holds. -/
theorem devicesAt_resetSeq (T : Timings) (n : Nat) (devices : List Address) (bus : Bus) (w : Wire) :
    DevicesAt T n devices (w.resetSeq bus (profileOf T v)).2.hist { active := devices, mode := .command [] } := by
  obtain ⟨sl, hreads, -⟩ := exists_readsAs T w.hist
  exact ⟨_, resetSeq_readsAs v bus hreads, by rw [List.foldl_append]; rfl⟩

/-- It answers the presence sample of a non-empty set with 0. -/
theorem resetSeq_population (T : Timings) (n : Nat) (hne : devices ≠ []) (w : Wire) :
    (w.resetSeq (.population T n devices) (profileOf T v)).1 = true := by
  rw [Wire.resetSeq_eq]
  simp [Bus.answer, populationAnswer, atPresenceSample, openPulse_append, isResetPulse_resetLowDuration, hne]

variable {w : Wire} (hT : readableTimings T) (hat : DevicesAt T n devices w.hist D)
include hT hat

theorem DevicesAt.readBitSeq (bus : Bus) : DevicesAt T n devices (w.readBitSeq bus (profileOf T v)).2.hist
    (populationSlot n devices D (.read (w.readBitSeq bus (profileOf T v)).1)) := by
  obtain ⟨sl, hreads, rfl⟩ := hat
  exact ⟨_, readBitSeq_readsAs hT v bus hreads, by rw [List.foldl_append]; rfl⟩

theorem DevicesAt.writeBitSeq (b : Bit) :
    DevicesAt T n devices (w.writeBitSeq (profileOf T v) b).hist (populationSlot n devices D (.write b)) := by
  obtain ⟨sl, hreads, rfl⟩ := hat
  exact ⟨_, writeBitSeq_readsAs hT v b hreads, by rw [List.foldl_append]; rfl⟩

theorem DevicesAt.writeByteSeq (b : Byte) : DevicesAt T n devices (w.writeByteSeq (profileOf T v) b).hist
    (((bitsOfByte b).map Slot.write).foldl (populationSlot n devices) D) := by
  obtain ⟨sl, hreads, rfl⟩ := hat
  exact ⟨_, writeByteSeq_readsAs hT v b hreads, by rw [List.foldl_append]⟩

/-- A read slot gets the answer of the devices after the slots before it. -/
theorem DevicesAt.readBitSeq_answer :
    (w.readBitSeq (.population T n devices) (profileOf T v)).1 = D.answer := by
  obtain ⟨sl, hreads, rfl⟩ := hat
  have hslots := hreads.slotsOf_open w.now (profileOf T v).writeRecoveryLow
  rw [Wire.readBitSeq_eq]
  dsimp only [Bus.answer]
  rw [populationAnswer_eq, atPresenceSample, openPulse_append, isResetPulse_writeRecoveryLow hT,
    if_neg Bool.false_ne_true, populationAfter, hslots]

end

section
variable {T : Timings} (hT : readableTimings T) (v : Speed) (n : Nat) (devices : List Address)
include hT

/-- From the first read of a bit on, `DP(S)` answers for its active devices (R187). -/
theorem answersFor_population {is : List (Fin 64)} {i : Nat} (his : PositionsFrom i is)
    (hn : i + is.length = n) {active : List Address} {w : Wire}
    (hat : is ≠ [] → DevicesAt T n devices w.hist { active := active, mode := .bit i }) :
    AnswersFor (.population T n devices) (profileOf T v) is active w := by
  induction is generalizing i active w with
  | nil => trivial
  | cons x is ih =>
    obtain ⟨rfl, hfrom⟩ := his.cons
    rw [List.length_cons] at hn
    have hbit := hat (List.cons_ne_nil _ _)
    have hcomplement := hbit.readBitSeq v hT (.population T n devices)
    refine ⟨hbit.readBitSeq_answer v hT, hcomplement.readBitSeq_answer v hT, fun b => ih hfrom (by omega) fun hne => ?_⟩
    have hdirection := (hcomplement.readBitSeq v hT (.population T n devices)).writeBitSeq v hT b
    have hmore : x.val + 1 < n := by have := List.length_pos_iff.2 hne; omega
    simpa only [populationSlot, if_pos hmore, Wire.bitTriple] using hdirection

/-- The fixture answers for its devices in every walk. -/
theorem population_answers (hne : devices ≠ []) (h64 : n ≤ 64) (w : Wire) :
    (w.resetSeq (.population T n devices) (profileOf T v)).1 = true ∧
      AnswersFor (.population T n devices) (profileOf T v) (bitPositions n) devices
        ((w.resetSeq (.population T n devices) (profileOf T v)).2.writeByteSeq (profileOf T v) searchByte) :=
  ⟨resetSeq_population v T n hne w, answersFor_population hT v n devices (bitPositions_from n)
    (by rw [bitPositions_length]; omega) fun _ => (devicesAt_resetSeq v T n devices _ w).writeByteSeq v hT searchByte⟩

end

/-- Settles O57: the fixture answers for its devices, so the pass finds them. -/
theorem searchFindsEveryDevice : Obligations.SearchFindsEveryDevice := by
  intro devices s hbus hbits hT hnodup hne hlegal hmax
  obtain ⟨-, -, ⟨-, -, h64⟩, -⟩ := id hlegal
  obtain ⟨found, hperm, hsorted⟩ := exists_searchBefore_perm hnodup
  have hlen := hperm.length_eq
  have hpop : Populated s devices found := by
    refine ⟨hlegal, hmax, hperm, hsorted, ?_, fun a ha => hbits a (hperm.mem_iff.1 ha), ?_⟩
    · rw [hlen]
      exact List.length_pos_iff.2 hne
    · rw [hbus]
      exact population_answers hT s.speed s.params.addrBits devices hne h64
  obtain ⟨k, u, t, hu, ht, -, hk, hresult, hdev, hholds⟩ := hpop.search
  have hexec := exec_search_of_passEnds hu ht
  rw [hlen] at hk hresult
  refine ⟨t, found, hexec, hperm, hsorted, hresult, hdev.trans hk, ?_, fun e j he hj => ?_⟩
  · rw [busResetCount_passEnds hT hu ht, hk]
  · exact hholds e j (hk ▸ he) (by rwa [(exec_kept hexec).params])

/-! ### The adversarial bus -/

section
variable (P : TimingProfile) (n : Nat)

/-- The bus that answers 0 to every sample answers for all the addresses of so many bits: among those with given bits
below a position there is one with either bit there. -/
theorem answersFor_always_false {is : List (Fin 64)} {i : Nat} (his : PositionsFrom i is)
    (hn : i + is.length = n) {active : List Address} {c : Address} (hc : ∀ j, n ≤ j → c.getLsbD j = false)
    (hactive : ∀ a, a ∈ active ↔ (∀ j, n ≤ j → a.getLsbD j = false) ∧ AgreeBelow i a c) (w : Wire) :
    AnswersFor (.always false) P is active w := by
  induction is generalizing i active c w with
  | nil => trivial
  | cons x is ih =>
    obtain ⟨rfl, hfrom⟩ := his.cons
    rw [List.length_cons] at hn
    have hread (w : Wire) : (w.readBitSeq (.always false) P).1 = false := by rw [Wire.readBitSeq_eq]; rfl
    have hset (b : Bit) : ∀ j, n ≤ j → (setAddressBit c x b).getLsbD j = false := by
      intro j hj
      rw [setAddressBit_getLsbD, if_neg (by omega), hc j hj]
    have hmem (b : Bit) : setAddressBit c x b ∈ active := by
      refine (hactive _).2 ⟨hset b, fun j hj => ?_⟩
      rw [setAddressBit_getLsbD, if_neg hj.ne]
    have hbit (b : Bit) : (setAddressBit c x b).getLsbD x = b := by rw [setAddressBit_getLsbD, if_pos rfl]
    refine ⟨?_, ?_, fun b => ih hfrom (by omega) (hset b) (fun a => ?_) _⟩
    · rw [hread, eq_comm, List.all_eq_false]
      exact ⟨_, hmem false, by rw [hbit]; exact Bool.false_ne_true⟩
    · rw [hread, eq_comm, List.all_eq_false]
      exact ⟨_, hmem true, by rw [hbit]; exact Bool.false_ne_true⟩
    · have hbelow : AgreeBelow x.val (setAddressBit c x b) c := fun j hj => by
        rw [setAddressBit_getLsbD, if_neg hj.ne]
      rw [List.mem_filter, hactive a, beq_iff_eq, agreeBelow_succ_iff, hbit, and_assoc]
      exact and_congr_right fun _ => and_congr_left fun _ =>
        ⟨fun h => h.trans hbelow.symm, fun h => h.trans hbelow⟩

end

/-- All the addresses of so many bits. -/
def allAddresses (n : Nat) : List Address := (List.range (2 ^ n)).map (BitVec.ofNat 64)

theorem mem_allAddresses_iff (n : Nat) (a : Address) :
    a ∈ allAddresses n ↔ ∀ j, n ≤ j → a.getLsbD j = false := by
  simp only [allAddresses, List.mem_map, List.mem_range]
  constructor
  · rintro ⟨x, hx, rfl⟩ j hj
    have hlt := hx.trans_le (Nat.pow_le_pow_right Nat.two_pos hj)
    rw [BitVec.getLsbD_ofNat, Nat.testBit_lt_two_pow hlt, Bool.and_false]
  · intro ha
    exact ⟨a.toNat, Nat.lt_pow_two_of_testBit _ ha, BitVec.ofNat_toNat 64 a ▸ BitVec.setWidth_eq a⟩

theorem allAddresses_nodup {n : Nat} (h64 : n ≤ 64) : (allAddresses n).Nodup := by
  refine List.Nodup.map_on (fun x hx y hy hxy => ?_) List.nodup_range
  have hlt {z : Nat} (hz : z ∈ List.range (2 ^ n)) : z < 2 ^ 64 :=
    (List.mem_range.1 hz).trans_le (Nat.pow_le_pow_right Nat.two_pos h64)
  have heq := congrArg BitVec.toNat hxy
  rwa [BitVec.toNat_ofNat, BitVec.toNat_ofNat, Nat.mod_eq_of_lt (hlt hx), Nat.mod_eq_of_lt (hlt hy)] at heq

/-- Settles O55: the adversarial bus answers for all addresses, and `MAXDEV + 1` of them are not all. -/
theorem adversarialBusEndsAtTheLimit : Obligations.AdversarialBusEndsAtTheLimit := by
  intro s hbus hlegal hmax
  obtain ⟨⟨-, hcap⟩, -, ⟨hmod, hpos, h64⟩, -⟩ := id hlegal
  obtain ⟨found, hperm, hsorted⟩ := exists_searchBefore_perm (allAddresses_nodup h64)
  have hmany : 256 ≤ found.length := by
    rw [hperm.length_eq, allAddresses, List.length_map, List.length_range]
    exact Nat.pow_le_pow_right (n := 2) Nat.two_pos (show 8 ≤ s.params.addrBits by omega)
  have hpop : Populated s (allAddresses s.params.addrBits) found := by
    refine ⟨hlegal, hmax, hperm, hsorted, by omega,
      fun a ha => (mem_allAddresses_iff _ a).1 (hperm.mem_iff.1 ha), fun w => ⟨?_, ?_⟩⟩
    · rw [hbus, Wire.resetSeq_eq]
      rfl
    · rw [hbus]
      refine answersFor_always_false s.profile s.params.addrBits (bitPositions_from _)
        (by rw [bitPositions_length]; omega) (c := 0) (fun j _ => BitVec.getLsbD_zero) (fun a => ?_) _
      rw [mem_allAddresses_iff]
      exact (and_iff_left fun j hj => absurd hj (Nat.not_lt_zero j)).symm
  obtain ⟨k, u, t, hu, ht, hdone, hk, hresult, hdev, -⟩ := hpop.search
  rw [if_neg (by omega)] at hresult
  refine ⟨t, exec_search_of_passEnds hu ht, hresult, by omega, fun howc hbits hstd => ?_⟩
  obtain ⟨-, hlast⟩ := searchWalk_now_of_passAfter howc hbits hstd hu
  rw [ht.wire, hlast hdone, now_of_passAfter howc hbits hstd hu, show s.maxdev.toNat + 1 = k + 1 by omega,
    Nat.succ_mul, Nat.add_assoc]

end Sys2Proof.Machine
end

section
/-!
PROOFS. The 8-bit checksum (42_checksum R220 to R222, R229): the printed table is the bitwise step, and a string
followed by its checksum has checksum 0.
-/

namespace Sys2Proof.Machine

/-- Every entry of the printed table is the shifts of its index (R221). -/
theorem crc8Table_getD (d : Byte) : crc8Table.getD d.toNat 0 = crc8Shifts 8 d := by
  revert d
  decide

theorem crc8TableStep_eq (c x : Byte) : crc8TableStep c x = crc8Step c x := crc8Table_getD (c ^^^ x)

theorem crc8TableOf_eq : crc8TableOf = crc8Of :=
  congrArg (fun step bs => List.foldl step 0 bs) (funext₂ crc8TableStep_eq)

/-- A byte equal to the accumulator clears it. -/
theorem crc8Step_self (c : Byte) : crc8Step c c = 0 := by
  rw [crc8Step, BitVec.xor_self]
  rfl

theorem crc8Of_append_self (bs : List Byte) : crc8Of (bs ++ [crc8Of bs]) = 0 := by
  rw [crc8Of, List.foldl_concat]
  exact crc8Step_self _

end Sys2Proof.Machine
end

section
/-!
PROOFS. The 16-bit checksum (42_checksum R226, R227, R229): its shift is linear, so eight shifts of a word are its high
byte and the shifts of its low byte, which the parity step adds at once.
-/

namespace Sys2Proof.Machine

/-! ### The bitwise shifts -/

/-- A shift adds the polynomial when the bit it drops is 1. -/
theorem crc16Shift_eq_xor (c : Half) : crc16Shift c = (c >>> 1) ^^^ bif c.getLsbD 0 then 0xA001 else 0 := by
  rw [crc16Shift]
  cases c.getLsbD 0
  · exact BitVec.xor_zero.symm
  · rfl

theorem crc16Shift_xor (a b : Half) : crc16Shift (a ^^^ b) = crc16Shift a ^^^ crc16Shift b := by
  have hdropped (p q : Bit) : (bif p ^^ q then 0xA001 else 0 : Half) =
      (bif p then 0xA001 else 0) ^^^ bif q then 0xA001 else 0 := by
    revert p q
    decide
  rw [crc16Shift_eq_xor, crc16Shift_eq_xor, crc16Shift_eq_xor, BitVec.ushiftRight_xor_distrib, BitVec.getLsbD_xor,
    hdropped]
  ac_rfl

theorem crc16Shifts_xor (n : Nat) (a b : Half) : crc16Shifts n (a ^^^ b) = crc16Shifts n a ^^^ crc16Shifts n b := by
  induction n generalizing a b with
  | zero => rfl
  | succ n ih => rw [crc16Shifts, crc16Shift_xor, ih, crc16Shifts, crc16Shifts]

/-- The polynomial does not enter while the bits shifted out are 0. -/
theorem crc16Shifts_of_low_zero {n : Nat} {c : Half} (h : ∀ i, i < n → c.getLsbD i = false) :
    crc16Shifts n c = c >>> n := by
  induction n generalizing c with
  | zero => rfl
  | succ n ih =>
    have hshift : crc16Shift c = c >>> 1 := by rw [crc16Shift, h 0 n.succ_pos]; rfl
    rw [crc16Shifts, hshift, ih fun i hi => ?_, Nat.add_comm, BitVec.shiftRight_add]
    rw [BitVec.getLsbD_ushiftRight, h (1 + i) (by omega)]

/-! ### The bytes of a word -/

/-- The two bytes of a word make the word (20_memory R62). -/
theorem high_append_low (w : Half) : w.extractLsb' 8 8 ++ w.extractLsb' 0 8 = w := by
  rw [BitVec.extractLsb'_append_extractLsb'_eq_extractLsb' (start₂ := 8) (start₁ := 0) rfl]
  exact BitVec.extractLsb'_eq_self

theorem high_xor_low (c : Half) : (c >>> 8 <<< 8) ^^^ (c.extractLsb' 0 8).setWidth 16 = c := by
  apply BitVec.eq_of_getLsbD_eq
  intro i hi
  rw [BitVec.getLsbD_xor, BitVec.getLsbD_setWidth, BitVec.getLsbD_extractLsb', BitVec.getLsbD_shiftLeft]
  by_cases h : i < 8
  · simp [h, hi]
  · simp [h, hi, Nat.add_sub_cancel' (Nat.not_lt.1 h)]

theorem high_shiftLeft_ushiftRight (c : Half) : c >>> 8 <<< 8 >>> 8 = c >>> 8 := by
  apply BitVec.eq_of_getLsbD_eq
  intro i hi
  simpa using BitVec.lt_of_getLsbD

theorem extractLsb'_setWidth_byte (x : Byte) : (x.setWidth 16 : Half).extractLsb' 0 8 = x :=
  (BitVec.extractLsb'_setWidth_of_le (by decide)).trans BitVec.extractLsb'_eq_self

theorem setWidth_byte_ushiftRight (x : Byte) : (x.setWidth 16 : Half) >>> 8 = 0#16 := by
  apply BitVec.eq_of_getLsbD_eq
  intro i hi
  simp

theorem extractLsb'_ushiftRight_eight (c : Half) : (c >>> 8).extractLsb' 0 8 = c.extractLsb' 8 8 := by
  rw [← BitVec.setWidth_eq_extractLsb' (by decide), BitVec.setWidth_ushiftRight_eq_extractLsb]

/-! ### The parity step -/

/-- Eight shifts of a word bring its high byte down, and add the shifts of its low byte. -/
theorem crc16Shifts_eight (c : Half) :
    crc16Shifts 8 c = (c >>> 8) ^^^ crc16Shifts 8 ((c.extractLsb' 0 8).setWidth 16) := by
  have hhigh : crc16Shifts 8 (c >>> 8 <<< 8) = c >>> 8 := by
    rw [crc16Shifts_of_low_zero fun i hi => by simp [hi], high_shiftLeft_ushiftRight]
  conv_lhs => rw [← high_xor_low c, crc16Shifts_xor, hhigh]

/-- Eight shifts of a byte are what the parity step adds for it (R226, R227). -/
theorem crc16Shifts_byte (d : Byte) :
    crc16Shifts 8 (d.setWidth 16) =
      ((if oddParity d then 0xC001#16 else 0#16) ^^^ (d.setWidth 16 <<< 6)) ^^^ (d.setWidth 16 <<< 7) := by
  revert d
  decide

theorem crc16Step_eq_xor (c w : Half) :
    crc16Step c w = (c >>> 8) ^^^ crc16Shifts 8 ((c.extractLsb' 0 8 ^^^ w.extractLsb' 0 8).setWidth 16) := by
  rw [crc16Shifts_byte, BitVec.xor_comm (c.extractLsb' 0 8), ← BitVec.xor_assoc, ← BitVec.xor_assoc, crc16Step]
  split
  · rfl
  · rw [BitVec.xor_zero]

theorem crc16Step_eq_bitwise (c w : Half) : crc16Step c w = crc16Bitwise c (w.extractLsb' 0 8) := by
  rw [crc16Step_eq_xor, crc16Bitwise, crc16Shifts_eight (c ^^^ _), BitVec.ushiftRight_xor_distrib,
    setWidth_byte_ushiftRight, BitVec.xor_zero, BitVec.extractLsb'_xor, extractLsb'_setWidth_byte]

/-- Settles O45: the step is the bitwise update by the linearity of the shift. -/
theorem crc16StepIsTheBitwiseUpdate : Obligations.Crc16StepIsTheBitwiseUpdate :=
  ⟨crc16Step_eq_bitwise, by simp [crc16Of, crc16Step, oddParity, oddp]⟩

/-- A byte equal to the accumulator's low byte leaves its high byte. -/
theorem crc16Step_of_low_eq {c : Half} {x : Byte} (h : x = c.extractLsb' 0 8) :
    crc16Step c (x.setWidth 16) = c >>> 8 := by
  have hzero : crc16Shifts 8 ((0#8).setWidth 16) = 0#16 := by decide
  rw [crc16Step_eq_xor, extractLsb'_setWidth_byte, h, BitVec.xor_self, hzero, BitVec.xor_zero]

theorem crc16Of_append_self (ws : List Half) :
    crc16Of (ws ++ [((crc16Of ws).extractLsb' 0 8).setWidth 16, ((crc16Of ws).extractLsb' 8 8).setWidth 16]) = 0 := by
  rw [crc16Of, List.foldl_append, ← crc16Of, List.foldl_cons, crc16Step_of_low_eq rfl, List.foldl_cons,
    crc16Step_of_low_eq (extractLsb'_ushiftRight_eight _).symm, List.foldl_nil, ← BitVec.shiftRight_add]
  exact BitVec.ushiftRight_eq_zero le_rfl

end Sys2Proof.Machine
end

section
/-!
PROOFS. The checksum commands (42_checksum R222 to R225, R228 to R230): what each makes of the bytes `BUF` holds, and
that nothing else of the state is read or written.
-/

namespace Sys2Proof.Machine

/-! ### The `LEN` limits -/

theorem lenBytesLegal_iff {bufBytes : Nat} {n : Half} : lenBytesLegal bufBytes n = true ↔ n.toNat ≤ bufBytes :=
  decide_eq_true_iff

theorem lenCheckLegal_iff {bufBytes : Nat} {n : Half} :
    lenCheckLegal bufBytes n = true ↔ 1 ≤ n.toNat ∧ n.toNat ≤ bufBytes := by
  rw [lenCheckLegal, Bool.and_eq_true, decide_eq_true_iff, decide_eq_true_iff]

theorem lenWordsLegal_iff {bufBytes : Nat} {n : Half} : lenWordsLegal bufBytes n = true ↔ 2 * n.toNat ≤ bufBytes :=
  decide_eq_true_iff

/-! ### What the commands compute -/

/-- A command over `BUF` runs on as many bytes as it takes, when its `LEN` is legal and they are defined. -/
theorem bufCommand_of_holds {legal : Bool} {n : Nat} {s : State} {bs : List Byte} (hlegal : legal = true)
    (hlen : bs.length = n) (hholds : s.bufHolds bs) (run : List Byte → State) :
    bufCommand legal n run s = .next (run bs) := by
  rw [hlegal, ← hlen]
  exact bufCommand_runs run hholds

/-- Settles O41: CRC8 runs on the bytes `BUF` holds. -/
theorem crc8ComputesTheChecksum : Obligations.Crc8ComputesTheChecksum :=
  fun _ _ _ hlegal hlen hholds => bufCommand_of_holds (lenBytesLegal_iff.2 hlegal) hlen hholds _

theorem exec_crc8Table_eq (n : Half) (s : State) : exec (.crc8Table n) s = exec (.crc8 n) s := by
  rw [exec, exec, execCrc8Table, execCrc8, crc8TableOf_eq]

/-- Settles O42: the table step is the bitwise step, so the two commands are one. -/
theorem tableChecksumIsTheBitwiseOne : Obligations.TableChecksumIsTheBitwiseOne :=
  ⟨crc8TableStep_eq,
    fun n bs s hlegal hlen hholds => (exec_crc8Table_eq n s).trans (crc8ComputesTheChecksum n bs s hlegal hlen hholds),
    exec_crc8Table_eq⟩

theorem checksumMatches_append (bs : List Byte) (e : Byte) : checksumMatches (bs ++ [e]) = (crc8Of bs == e) := by
  rw [checksumMatches, List.dropLast_concat, List.getLastD_concat]

/-- Settles O43: CRC8_CHECK runs on the bytes `BUF` holds, and its comparison splits off the last. -/
theorem crc8CheckComparesTheLastByte : Obligations.Crc8CheckComparesTheLastByte := by
  intro n bs e s hlegal hlen hholds
  have hcheck : lenCheckLegal s.params.bufBytes n = true := lenCheckLegal_iff.2 ⟨by omega, hlegal⟩
  rw [exec, execCrc8Check, bufCommand_of_holds hcheck (List.length_append.trans hlen) hholds, checksumMatches_append,
    List.dropLast_concat]
  simp only [beq_iff_eq]
  rfl

theorem wordsOfBytes_flatMap (ws : List Half) :
    wordsOfBytes (ws.flatMap fun w => [w.extractLsb' 0 8, w.extractLsb' 8 8]) = ws := by
  induction ws with
  | nil => rfl
  | cons w ws ih => exact congrArg₂ List.cons (high_append_low w) ih

/-- Settles O44: CRC16 runs on the bytes `BUF` holds, which are those of the words. -/
theorem crc16ComputesTheChecksum : Obligations.Crc16ComputesTheChecksum := by
  intro n ws s hlegal hlen hholds
  have hbytes : (ws.flatMap fun w => [w.extractLsb' 0 8, w.extractLsb' 8 8]).length = 2 * n.toNat := by
    simp [← hlen, Nat.mul_comm]
  rw [exec, execCrc16, bufCommand_of_holds (lenWordsLegal_iff.2 hlegal) hbytes hholds, wordsOfBytes_flatMap]
  rfl

/-- Settles O46: the last step meets an operand equal to what the accumulator holds. -/
theorem residueIsZero : Obligations.ResidueIsZero := by
  refine ⟨crc8Of_append_self, fun bs n s hlegal hlen hholds => ?_, crc16Of_append_self⟩
  exact ⟨_, crc8CheckComparesTheLastByte n bs (crc8Of bs) s hlegal hlen hholds, if_pos rfl⟩

/-! ### Purity -/

/-- In state `s'` command `i` completes as it did with `t`: with the same result and, unless it was a bad command, the
same register `reg` (R230). -/
def EndsAlike {α : Type} (i : Instr) (reg : State → α) (s' t : State) : Prop :=
  ∃ t', exec i s' = .next t' ∧ t'.result = t.result ∧ (t.result ≠ .badCommand → reg t' = reg t)

section
variable {s s' t : State} (hagree : ∀ k, k < s.params.bufBytes → s'.bufByte k = s.bufByte k)
include hagree

/-- A command over `BUF` that makes the same register and result of the same bytes does so in a state whose `BUF`
agrees. -/
theorem endsAlike_of_bufCommand {α : Type} {i : Instr} {legal : Bool} {n : Nat} {run : State → List Byte → State}
    (reg : State → α) (hlimit : legal = true → n ≤ s.params.bufBytes) (h : bufCommand legal n (run s) s = .next t)
    (hexec : exec i s' = bufCommand legal n (run s') s')
    (hrun : ∀ bs, (run s' bs).result = (run s bs).result ∧ reg (run s' bs) = reg (run s bs)) :
    EndsAlike i reg s' t := by
  obtain ⟨hlegal, hbad⟩ | ⟨-, _, -, -, -, hfault⟩ | ⟨hlegal, bs, hlen, hholds, hnext⟩ :=
    bufCommand_cases legal n (run s) s
  · obtain rfl := Host.Outcome.next.inj (hbad.symm.trans h)
    exact ⟨_, hexec.trans (bufCommand_bad hlegal n _ s'), rfl, fun hgood => absurd rfl hgood⟩
  · cases hfault.symm.trans h
  · obtain rfl := Host.Outcome.next.inj (hnext.symm.trans h)
    have hle : bs.length ≤ s.params.bufBytes := hlen ▸ hlimit hlegal
    have hholds' : s'.bufHolds bs := fun k hk => (hagree k (hk.trans_le hle)).trans (hholds k hk)
    exact ⟨_, hexec.trans (bufCommand_of_holds hlegal hlen hholds' _), (hrun bs).1, fun _ => (hrun bs).2⟩

variable (hparams : s'.params.bufBytes = s.params.bufBytes) {n : Half}
include hparams

theorem crc8_endsAlike (h : exec (.crc8 n) s = .next t) : EndsAlike (.crc8 n) State.crc8r s' t := by
  rw [exec, execCrc8] at h
  exact endsAlike_of_bufCommand hagree State.crc8r lenBytesLegal_iff.1 h (by rw [exec, execCrc8, hparams])
    fun _ => ⟨rfl, rfl⟩

theorem crc8Table_endsAlike (h : exec (.crc8Table n) s = .next t) : EndsAlike (.crc8Table n) State.crc8r s' t := by
  rw [EndsAlike, exec_crc8Table_eq]
  exact crc8_endsAlike hagree hparams ((exec_crc8Table_eq n s).symm.trans h)

theorem crc8Check_endsAlike (h : exec (.crc8Check n) s = .next t) : EndsAlike (.crc8Check n) State.crc8r s' t := by
  rw [exec, execCrc8Check] at h
  exact endsAlike_of_bufCommand hagree State.crc8r (fun hlegal => (lenCheckLegal_iff.1 hlegal).2) h
    (by rw [exec, execCrc8Check, hparams]) fun _ => ⟨rfl, rfl⟩

theorem crc16_endsAlike (h : exec (.crc16 n) s = .next t) : EndsAlike (.crc16 n) State.crc16r s' t := by
  rw [exec, execCrc16] at h
  exact endsAlike_of_bufCommand hagree State.crc16r lenWordsLegal_iff.1 h (by rw [exec, execCrc16, hparams])
    fun _ => ⟨rfl, rfl⟩

end

/-- The frame of a checksum command (10_state R43). -/
theorem checksum_frame {i : Instr} (hi : ∃ n, i = .crc8 n ∨ i = .crc8Table n ∨ i = .crc8Check n ∨ i = .crc16 n)
    {s t : State} (h : exec i s = .next t) :
    t = { s with crc8r := t.crc8r, crc16r := t.crc16r, result := t.result, seq := .idle } := by
  have hwrites := exec_writes h
  obtain ⟨n, rfl | rfl | rfl | rfl⟩ := hi
  case inr.inr.inr =>
    rw [exec_crc8r h nofun nofun nofun]
    exact hwrites
  all_goals
    rw [exec_crc16r h nofun]
    exact hwrites

/-- Settles O47: each checksum command takes its bytes from `BUF` and sets one register. -/
theorem checksumCommandsArePure : Obligations.ChecksumCommandsArePure := by
  intro i s s' t hparams hi hagree h
  refine ⟨checksum_frame hi h, ?_⟩
  by_cases h16 : ∃ n, i = .crc16 n
  · obtain ⟨n, rfl⟩ := h16
    obtain ⟨t', hnext, hresult, hreg⟩ := crc16_endsAlike hagree hparams h
    exact ⟨t', hnext, hresult, fun hgood => ⟨fun _ => hreg hgood, fun hne => absurd rfl (hne n)⟩⟩
  · have halike : EndsAlike i State.crc8r s' t := by
      obtain ⟨n, rfl | rfl | rfl | rfl⟩ := hi
      · exact crc8_endsAlike hagree hparams h
      · exact crc8Table_endsAlike hagree hparams h
      · exact crc8Check_endsAlike hagree hparams h
      · exact absurd ⟨n, rfl⟩ h16
    obtain ⟨t', hnext, hresult, hreg⟩ := halike
    exact ⟨t', hnext, hresult, fun hgood => ⟨fun hn => absurd hn h16, fun _ => hreg hgood⟩⟩

end Sys2Proof.Machine
end

section
/-!
PROOFS. How a command ends (60_exceptions R268): the commands that always complete, and those over `BUF`, which fault on an
undefined byte.
-/

namespace Sys2Proof.Machine

/-- The code for what a bus reset found is a listed one of RESET and SPEED_SKIP (40_bus_transport R140, R148). -/
theorem presenceCode_mem (present : Bit) :
    (if present then ResultCode.ok else .noPresence) ∈ [ResultCode.ok, .noPresence] := by
  cases present <;> decide

/-- SPEED_SKIP completes, its result that of its last reset (40_bus_transport R148). -/
theorem execSpeedSkip_completes (s : State) :
    ∃ t, execSpeedSkip s = .next t ∧ t.result ∈ [ResultCode.ok, .noPresence] := by
  refine ⟨_, rfl, ?_⟩
  split
  · exact presenceCode_mem _
  · exact presenceCode_mem false

/-- A command that may not fault always completes, with one of its listed codes. -/
theorem exec_completes {i : Instr} (hi : mayFault i = false) (s : State) :
    ∃ t, exec i s = .next t ∧ t.result ∈ mayComplete i := by
  cases i with
  | writeBit _ | readBit | writeByte _ | readByte | touchByte _ | setSpeed _ | skipAddress =>
    exact ⟨_, rfl, List.mem_singleton_self _⟩
  | reset => exact ⟨_, rfl, presenceCode_mem _⟩
  | speedSkip => exact execSpeedSkip_completes s
  | search =>
    obtain ⟨t, hexec, -, hresult, -⟩ := searchAlwaysCompletes s
    exact ⟨t, hexec, hresult⟩
  | block _ | matchAddress | crc8 _ | crc8Table _ | crc8Check _ | crc16 _ => cases hi

/-- A command over `BUF` completes or faults on an undefined byte: its codes are those of its run, and `BAD_COMMAND` where
its `LEN` may be out of range. -/
theorem bufCommand_outcomes {legal : Bool} {codes : List ResultCode} {run : List Byte → State} (n : Nat) (s : State)
    (hbad : legal = false → .badCommand ∈ codes) (hrun : ∀ bs, (run bs).result ∈ codes) :
    (∃ t, bufCommand legal n run s = .next t ∧ t.result ∈ codes) ∨
      ∃ j, bufCommand legal n run s = .fault (.undefinedRead (.command s.cmd j)) := by
  obtain ⟨hlegal, hbuf⟩ | ⟨-, j, -, -, -, hbuf⟩ | ⟨-, bs, -, -, hbuf⟩ := bufCommand_cases legal n run s
  · exact .inl ⟨_, hbuf, hbad hlegal⟩
  · exact .inr ⟨j, hbuf⟩
  · exact .inl ⟨_, hbuf, hrun bs⟩

/-- A command that may fault completes with one of its listed codes, or faults. -/
theorem exec_completes_or_faults {i : Instr} (hi : mayFault i = true) (s : State) :
    (∃ t, exec i s = .next t ∧ t.result ∈ mayComplete i) ∨
      ∃ j, exec i s = .fault (.undefinedRead (.command s.cmd j)) := by
  cases i with
  | matchAddress => exact bufCommand_outcomes (legal := true) _ s nofun fun _ => List.mem_singleton.2 rfl
  | block _ | crc8 _ | crc8Table _ | crc16 _ =>
    exact bufCommand_outcomes _ s (fun _ => by simp [mayComplete]) fun _ => by simp [mayComplete]
  | crc8Check _ =>
    refine bufCommand_outcomes _ s (fun _ => by simp [mayComplete]) fun bs => ?_
    cases checksumMatches bs <;> simp [mayComplete]
  | reset | writeBit _ | readBit | writeByte _ | readByte | touchByte _ | setSpeed _ | speedSkip | skipAddress | search =>
    cases hi

/-- Settles O40: the commands the table marks for a fault are those over `BUF`. -/
theorem outcomesAreTheListedOnes : Obligations.OutcomesAreTheListedOnes := by
  intro i s
  cases hi : mayFault i with
  | false => exact .inl (exec_completes hi s)
  | true => exact (exec_completes_or_faults hi s).imp_right fun hfault => ⟨rfl, hfault⟩

end Sys2Proof.Machine
end

section
/-!
PROOFS. Block reset inside a command (70_reset_and_hazards R290, R291): the state it leaves, and the history it ends.
-/

namespace Sys2Proof.Machine

/-! ### The command a block reset stops -/

theorem wireAtEnd_of_next {s t : State} (h : controllerStep s = .next t) : wireAtEnd s = t.wire := by
  rw [wireAtEnd, h]

/-- A command that faults has no inside (notes/assumptions/6.md). -/
theorem wireAtEnd_of_no_next {s : State} (h : ∀ t, controllerStep s ≠ .next t) : wireAtEnd s = s.wire := by
  unfold wireAtEnd
  split
  · next t ht => exact absurd ht (h t)
  · rfl
  · rfl

/-- From a released line the controller's move runs the bus side, be it for no time. -/
theorem controllerStep_ran {s t : State} (h : controllerStep s = .next t) (hrel : s.wire.pin.dir = .input) :
    s.wire.Ran t.wire := by
  obtain ⟨-, rfl⟩ | ⟨-, i, -, hexec⟩ | ⟨-, -, rfl⟩ := controllerStep_next h
  · exact Wire.delay_ran hrel 0
  · exact exec_ran hexec hrel
  · exact Wire.delay_ran hrel 0

theorem wireAtEnd_ran {s : State} (hrel : s.wire.pin.dir = .input) : s.wire.Ran (wireAtEnd s) := by
  by_cases h : ∃ t, controllerStep s = .next t
  · obtain ⟨t, ht⟩ := h
    rw [wireAtEnd_of_next ht]
    exact controllerStep_ran ht hrel
  · rw [wireAtEnd_of_no_next (not_exists.1 h)]
    exact Wire.delay_ran hrel 0

/-! ### A history cut off -/

/-- A history cut off anywhere is one the OWC can make, once a low line is released (R291). -/
theorem legalHistory_take_release {low : Bool} {evs : List LineEvent} (h : legalHistory low evs = true) (k t : Nat) :
    legalHistory low (evs.take k ++ if lowAfter low (evs.take k) then [.rel t] else []) = true := by
  induction evs generalizing low k with
  | nil => cases low <;> simp [legalHistory, lowAfter]
  | cons e rest ih => cases k with
    | zero => cases low <;> simp [legalHistory, lowAfter]
    | succ k => cases e <;> cases low <;> simp_all [legalHistory, lowAfter]

/-- The time of the last of some events, or `t` where there is none. -/
def lastTime (t : Nat) (evs : List LineEvent) : Nat := (evs.getLast?.map eventTime).getD t

/-- The time of the first of some events, or `t` where there is none. -/
def firstTime (t : Nat) (evs : List LineEvent) : Nat := (evs.head?.map eventTime).getD t

theorem le_lastTime {t : Nat} {evs : List LineEvent} (hrise : timesRise evs) (ht : ∀ e ∈ evs, t ≤ eventTime e) :
    t ≤ lastTime t evs ∧ ∀ e ∈ evs, eventTime e ≤ lastTime t evs := by
  obtain rfl | ⟨before, e, rfl⟩ := List.eq_nil_or_concat' evs
  · exact ⟨le_rfl, fun e he => absurd he List.not_mem_nil⟩
  · have hlast : lastTime t (before ++ [e]) = eventTime e := by simp [lastTime]
    obtain ⟨-, -, hbefore⟩ := List.pairwise_append.1 hrise
    rw [hlast]
    refine ⟨ht e (by simp), fun a ha => ?_⟩
    obtain ha | ha := List.mem_append.1 ha
    · exact hbefore a ha e (List.mem_singleton_self e)
    · rw [List.mem_singleton.1 ha]

theorem le_firstTime {x t : Nat} {evs : List LineEvent} (hevs : ∀ e ∈ evs, x ≤ eventTime e) (ht : x ≤ t) :
    x ≤ firstTime t evs := by
  cases evs with
  | nil => exact ht
  | cons e rest => exact hevs e List.mem_cons_self

theorem firstTime_drop (t : Nat) {evs : List LineEvent} {k : Nat} {e : LineEvent} (h : evs[k]? = some e) :
    firstTime t (evs.drop k) = eventTime e := by
  rw [firstTime, List.head?_drop, h]
  rfl

/-- The time of a block reset, by the events of the command it stops. -/
theorem resetTime_eq {s : State} {evs : List LineEvent} (h : (wireAtEnd s).hist = s.wire.hist ++ evs) (k d : Nat) :
    resetTime k d s =
      min (lastTime s.wire.now (evs.take k) + d) (firstTime (wireAtEnd s).now (evs.drop k)) := by
  rw [resetTime, eventsBefore, h, List.drop_left, List.drop_length_add_append]
  rfl

/-- A block reset comes between the last event of the command and its next (notes/assumptions/6.md). -/
theorem resetTime_between {s : State} {evs : List LineEvent} (hhist : (wireAtEnd s).hist = s.wire.hist ++ evs)
    (hrise : timesRise evs) (hnow : s.wire.now ≤ (wireAtEnd s).now)
    (hevs : ∀ e ∈ evs, s.wire.now ≤ eventTime e ∧ eventTime e ≤ (wireAtEnd s).now) (k d : Nat) :
    s.wire.now ≤ resetTime k d s ∧ (∀ e ∈ evs.take k, eventTime e ≤ resetTime k d s) ∧
      ∀ e, evs[k]? = some e → resetTime k d s ≤ eventTime e := by
  rw [resetTime_eq hhist]
  have hsplit : timesRise (evs.take k ++ evs.drop k) := by rwa [List.take_append_drop]
  obtain ⟨hbefore, -, hcut⟩ := List.pairwise_append.1 hsplit
  obtain ⟨hstart, hlast⟩ := le_lastTime hbefore fun e he => (hevs e (List.mem_of_mem_take he)).1
  have hmin {x : Nat} (hx : x ≤ lastTime s.wire.now (evs.take k)) (hend : x ≤ (wireAtEnd s).now)
      (hafter : ∀ e ∈ evs.drop k, x ≤ eventTime e) :
      x ≤ min (lastTime s.wire.now (evs.take k) + d) (firstTime (wireAtEnd s).now (evs.drop k)) :=
    le_min (hx.trans (Nat.le_add_right _ d)) (le_firstTime hafter hend)
  refine ⟨hmin hstart hnow fun e he => (hevs e (List.mem_of_mem_drop he)).1, fun e he => ?_, fun e he => ?_⟩
  · exact hmin (hlast e he) (hevs e (List.mem_of_mem_take he)).2 (hcut e he)
  · exact (min_le_right _ _).trans_eq (firstTime_drop _ he)

theorem eq_rel_of_mem {c : Prop} [Decidable c] {t : Nat} {e : LineEvent}
    (h : e ∈ if c then [LineEvent.rel t] else []) : e = .rel t := by
  split at h
  · exact List.mem_singleton.1 h
  · cases h

/-- A run of line sequences cut off after `k` events, with the line released at a time after them, is still a run of the
bus side (R291). -/
theorem Wire.ran_cut {w : Wire} {evs : List LineEvent} (hlegal : legalHistory false evs = true) (hrise : timesRise evs)
    (hevs : ∀ e ∈ evs, w.now ≤ eventTime e) {k time : Nat} (hnow : w.now ≤ time)
    (hbefore : ∀ e ∈ evs.take k, eventTime e ≤ time) :
    w.Ran { pin := w.pin.setInputDirection, now := time,
            hist := w.hist ++ evs.take k ++ if lowAfter false (evs.take k) then [.rel time] else [] } where
  pin := rfl
  later := hnow
  hist := by
    refine ⟨_, List.append_assoc _ _ _, legalHistory_take_release hlegal k time, List.pairwise_append.2
      ⟨hrise.sublist (List.take_sublist k evs), by split <;> simp, fun a ha b hb => ?_⟩, fun e he => ?_⟩
    · rw [eq_rel_of_mem hb]
      exact hbefore a ha
    · obtain he | he := List.mem_append.1 he
      · exact ⟨hevs e (List.mem_of_mem_take he), hbefore e he⟩
      · rw [eq_rel_of_mem he]
        exact ⟨hnow, le_rfl⟩

/-- Settles O11: the step is `blockReset`; the history it ends is that of a run cut off, with the line released. -/
theorem blockResetRestoresTheResetValues : Obligations.BlockResetRestoresTheResetValues := by
  intro s k d rest hturns u evs low time
  refine ⟨_, abandonedHistory k d u, step_of_turns_cons hturns, rfl, rfl, fun e => wireAtEnd_of_next, fun hnone => ?_,
    fun hinv => ?_⟩
  · rw [show evs = s.wire.hist.drop s.wire.hist.length from congrArg (fun w : Wire => w.hist.drop _)
      (wireAtEnd_of_no_next hnone)]
    exact List.drop_length
  · obtain ⟨-, hrests⟩ := s.inv_iff.1 hinv
    have hran : s.wire.Ran (wireAtEnd u) := wireAtEnd_ran (s := u) hrests.released
    obtain ⟨evs', hhist, hlegal, hrise, hbounds⟩ := hran.hist
    obtain rfl : evs' = evs := by simp only [evs, hhist, List.drop_left]
    obtain ⟨hnow, hbefore, hnext⟩ := resetTime_between (s := u) hhist hrise hran.later hbounds k d
    have hcut := (Wire.ran_cut hlegal hrise (fun e he => (hbounds e he).1) hnow hbefore).rests hrests
    have hdir : (s.wire.pin.dir == .output) = false := by rw [hrests.released]; rfl
    rw [← hdir] at hcut
    exact ⟨hcut.histLegal, hcut.histTimes, hcut.histPast, hnext⟩

end Sys2Proof.Machine
end

section
/-!
PROOFS. The durations of the commands other than SEARCH (70_reset_and_hazards R300): what each takes, slot by slot, and
the values this hardware's profiles give.
-/

namespace Sys2Proof.Machine

/-! ### The time of the sequences -/

/-- The time of the touch slots of a byte (40_bus_transport R130). -/
def touchByteTime (P : TimingProfile) (v : Byte) : Nat := ((bitsOfByte v).map (touchSlotTime P)).sum

theorem touchTime_eq_sum (P : TimingProfile) (slots : List TouchSlot) :
    touchTime P slots = ((slots.map Prod.fst).map (touchSlotTime P)).sum := by
  induction slots with
  | nil => rfl
  | cons slot rest ih => rw [touchTime, ih]; rfl

theorem writeTime_eq_sum (P : TimingProfile) (bits : List Bit) :
    writeTime P bits = (bits.map (writeSlotTime P)).sum := by
  induction bits with
  | nil => rfl
  | cons b bs ih => rw [writeTime, ih]; rfl

theorem Wire.touchByteSeq_now (bus : Bus) (P : TimingProfile) (v : Byte) (w : Wire) :
    (w.touchByteSeq bus P v).2.now = w.now + touchByteTime P v := by
  obtain ⟨slots, acc, hsent, -, -, hseq⟩ := Wire.touchByteSeq_eq bus P v w
  rw [hseq, touchTime_eq_sum, hsent, touchByteTime]

theorem Wire.touchBytesSeq_now (bus : Bus) (P : TimingProfile) (vs : List Byte) (w : Wire) :
    (w.touchBytesSeq bus P vs).2.now = w.now + (vs.map (touchByteTime P)).sum := by
  induction vs generalizing w with
  | nil => rfl
  | cons v vs ih => rw [Wire.touchBytesSeq, ih, Wire.touchByteSeq_now, List.map_cons, List.sum_cons, Nat.add_assoc]

/-! ### The time of the commands -/

/-- The bytes `BUF` holds are determined by their number. -/
theorem State.bufHolds.unique {s : State} {bs cs : List Byte} (h : s.bufHolds bs) (k : s.bufHolds cs)
    (hlen : bs.length = cs.length) : bs = cs := by
  have hoperand := State.bufOperand_of_holds h
  rw [hlen, State.bufOperand_of_holds k] at hoperand
  exact (Except.ok.inj hoperand).symm

/-- A command over `BUF` with a legal `LEN` that completes has run on the bytes `BUF` holds. -/
theorem bufCommand_next_of_legal {legal : Bool} {n : Nat} {run : List Byte → State} {s t : State}
    (hlegal : legal = true) (h : bufCommand legal n run s = .next t) :
    ∃ bs, bs.length = n ∧ s.bufHolds bs ∧ t = run bs := by
  obtain ⟨hbad, -⟩ | ⟨-, _, -, -, -, hfault⟩ | ⟨-, bs, hlen, hholds, hnext⟩ := bufCommand_cases legal n run s
  · cases hbad.symm.trans hlegal
  · cases hfault.symm.trans h
  · exact ⟨bs, hlen, hholds, Host.Outcome.next.inj (h.symm.trans hnext)⟩

section
variable {s t : State}

theorem exec_reset_now (h : exec .reset s = .next t) : t.wire.now = s.wire.now + resetTimeOf s.profile := by
  cases h
  exact Wire.resetSeq_now _ _ _

theorem exec_writeBit_now {b : Bit} (h : exec (.writeBit b) s = .next t) :
    t.wire.now = s.wire.now + writeSlotTime s.profile b := by
  cases h
  exact Wire.writeBitSeq_now _ _ _

theorem exec_readBit_now (h : exec .readBit s = .next t) : t.wire.now = s.wire.now + readSlotTime s.profile := by
  cases h
  exact Wire.readBitSeq_now _ _ _

theorem exec_writeByte_now {v : Byte} (h : exec (.writeByte v) s = .next t) :
    t.wire.now = s.wire.now + writeTime s.profile (bitsOfByte v) := by
  cases h
  exact Wire.writeByteSeq_now _ _ _

theorem exec_touchByte_now {v : Byte} (h : exec (.touchByte v) s = .next t) :
    t.wire.now = s.wire.now + touchByteTime s.profile v := by
  cases h
  exact Wire.touchByteSeq_now _ _ _ _

theorem exec_readByte_now (h : exec .readByte s = .next t) :
    t.wire.now = s.wire.now + touchByteTime s.profile 0xFF := by
  rw [← touchOfAllOnesIsARead] at h
  exact exec_touchByte_now h

theorem exec_skipAddress_now (h : exec .skipAddress s = .next t) :
    t.wire.now = s.wire.now + writeTime s.profile (bitsOfByte skipAddressByte) := by
  cases h
  exact Wire.writeByteSeq_now _ _ _

theorem exec_block_now {n : Half} (hlegal : n.toNat ≤ s.params.bufBytes) (h : exec (.block n) s = .next t) :
    ∃ bs, bs.length = n.toNat ∧ s.bufHolds bs ∧
      t.wire.now = s.wire.now + (bs.map (touchByteTime s.profile)).sum := by
  obtain ⟨bs, hlen, hholds, rfl⟩ := bufCommand_next_of_legal (lenBytesLegal_iff.2 hlegal) h
  exact ⟨bs, hlen, hholds, Wire.touchBytesSeq_now _ _ _ _⟩

theorem exec_matchAddress_now (h : exec .matchAddress s = .next t) :
    ∃ bs, bs.length = s.params.addrBytes ∧ s.bufHolds bs ∧
      t.wire.now = s.wire.now + writeTime s.profile (bitsOfBytes (matchAddressByte :: bs)) := by
  unfold exec execMatchAddress at h
  obtain ⟨bs, hlen, hholds, rfl⟩ := bufCommand_next_of_legal rfl h
  exact ⟨bs, hlen, hholds, congrArg Wire.now (Wire.writeBytesSeq_eq _ _ _ _)⟩

/-- SPEED_SKIP ends at standard speed exactly where its first reset found no presence (40_bus_transport R148). -/
theorem exec_speedSkip_now (howc : s.params.timings = Timings.owc) (h : exec .speedSkip s = .next t) :
    t.wire.now = s.wire.now + if t.speed = .standard then 3840 else 6564 := by
  obtain ⟨habsent, hpresent, -, -, htimes⟩ := speedSkipSwitchesToOverdrive s
  obtain ⟨hfirst, hsecond⟩ := htimes howc
  cases hr : (s.wire.resetSeq s.bus s.params.timings.std).1 with
  | false =>
    obtain rfl := Host.Outcome.next.inj (h.symm.trans (habsent hr))
    exact hfirst
  | true =>
    obtain rfl := Host.Outcome.next.inj (h.symm.trans (hpresent hr))
    exact hsecond

/-- SET_SPEED and the checksum commands leave the bus side alone (10_state R43). -/
theorem exec_wire_eq {i : Instr} (hi : (∃ b, i = .setSpeed b) ∨ (∃ n, i = .crc8 n) ∨ (∃ n, i = .crc8Table n) ∨
    (∃ n, i = .crc8Check n) ∨ (∃ n, i = .crc16 n)) (h : exec i s = .next t) : t.wire = s.wire := by
  rw [exec_writes h]
  obtain ⟨_, rfl⟩ | ⟨_, rfl⟩ | ⟨_, rfl⟩ | ⟨_, rfl⟩ | ⟨_, rfl⟩ := hi <;> rfl

end

/-! ### The values of this hardware -/

section
variable {s : State} (howc : s.params.timings = Timings.owc)
include howc

theorem State.profile_std (hspeed : s.speed = .standard) : s.profile = tpStd := by
  rw [State.profile_owc howc, hspeed]
  rfl

theorem State.profile_od (hspeed : s.speed = .overdrive) : s.profile = tpOd := by
  rw [State.profile_owc howc, hspeed]
  rfl

end

/-- Slots of equal length, whatever their bits. -/
theorem sum_map_bits_of_const {f : Bit → Nat} {c : Nat} (h : ∀ b, f b = c) (bits : List Bit) :
    (bits.map f).sum = c * bits.length := by
  obtain rfl : f = fun _ => c := funext h
  simp [Nat.mul_comm]

/-- Slots whose length depends on their bit: those that send 1 are shorter by `e`. -/
theorem sum_map_bits_add {f : Bit → Nat} {e : Nat} (h : f true + e = f false) (bits : List Bit) :
    (bits.map f).sum + e * bits.count true = f false * bits.length := by
  induction bits with
  | nil => rfl
  | cons b bs ih => cases b <;> simp [Nat.mul_succ] <;> omega

theorem writeTime_std (bits : List Bit) : writeTime tpStd bits = 280 * bits.length :=
  (writeTime_eq_sum _ _).trans (sum_map_bits_of_const (by decide) bits)

theorem touchByteTime_std (v : Byte) : touchByteTime tpStd v = 2240 :=
  sum_map_bits_of_const (c := 280) (by decide) (bitsOfByte v)

/-- In overdrive a write slot takes 40 units, and 4 less where it sends 1 (R120). -/
theorem writeTime_od (bits : List Bit) : writeTime tpOd bits + 4 * bits.count true = 40 * bits.length := by
  rw [writeTime_eq_sum]
  exact sum_map_bits_add rfl bits

theorem writeTime_od_byte (v : Byte) : writeTime tpOd (bitsOfByte v) = 320 - 4 * onesOfByte v := by
  have hbits := writeTime_od (bitsOfByte v)
  rw [bitsOfByte_length] at hbits
  rw [onesOfByte]
  omega

/-- In overdrive a touch slot takes 40 units, and 3 less where it sends 1 (R120). -/
theorem touchByteTime_od (v : Byte) : touchByteTime tpOd v = 320 - 3 * onesOfByte v := by
  have hbits := sum_map_bits_add (f := touchSlotTime tpOd) (e := 3) rfl (bitsOfByte v)
  have hzero : touchSlotTime tpOd false = 40 := rfl
  rw [bitsOfByte_length, hzero] at hbits
  rw [touchByteTime, onesOfByte]
  omega

theorem count_bitsOfBytes_cons (v : Byte) (bs : List Byte) :
    (bitsOfBytes (v :: bs)).count true = onesOfByte v + onesOfBytes bs := List.count_append

/-- Settles O36: the time of each command, evaluated in the profile its speed selects. -/
theorem commandDurations : Obligations.CommandDurations := by
  intro i s t howc h
  refine ⟨fun d hrow hspeed => ?_, fun d hrow hspeed => ?_, ?_, fun hi => ?_⟩
  · have hP := State.profile_std howc hspeed
    obtain ⟨rfl, rfl⟩ | ⟨b, rfl, rfl⟩ | ⟨rfl, rfl⟩ | ⟨v, rfl, rfl⟩ | ⟨rfl, rfl⟩ | ⟨v, rfl, rfl⟩ | ⟨n, rfl, hn, rfl⟩ |
      ⟨rfl, hbits, rfl⟩ | ⟨rfl, rfl⟩ := hrow
    · rw [exec_reset_now h, hP]; rfl
    · rw [exec_writeBit_now h, hP]; cases b <;> rfl
    · rw [exec_readBit_now h, hP]; rfl
    · rw [exec_writeByte_now h, hP, writeTime_std]; rfl
    · rw [exec_readByte_now h, hP, touchByteTime_std]
    · rw [exec_touchByte_now h, hP, touchByteTime_std]
    · obtain ⟨bs, hlen, -, hnow⟩ := exec_block_now hn h
      rw [hnow, hP, funext touchByteTime_std]
      simp [hlen, Nat.mul_comm]
    · obtain ⟨bs, hlen, -, hnow⟩ := exec_matchAddress_now h
      rw [hnow, hP, writeTime_std, bitsOfBytes_length, List.length_cons, hlen, Params.addrBytes, hbits]
    · rw [exec_skipAddress_now h, hP, writeTime_std]; rfl
  · have hP := State.profile_od howc hspeed
    obtain ⟨rfl, rfl⟩ | ⟨rfl, rfl⟩ | ⟨rfl, rfl⟩ | ⟨rfl, rfl⟩ | ⟨v, rfl, rfl⟩ | ⟨rfl, rfl⟩ | ⟨v, rfl, rfl⟩ |
      ⟨n, bs, rfl, hn, hlen, hholds, rfl⟩ | ⟨bs, rfl, hbits, hlen, hholds, rfl⟩ | ⟨rfl, rfl⟩ := hrow
    · rw [exec_reset_now h, hP]; rfl
    · rw [exec_writeBit_now h, hP]; rfl
    · rw [exec_writeBit_now h, hP]; rfl
    · rw [exec_readBit_now h, hP]; rfl
    · rw [exec_writeByte_now h, hP, writeTime_od_byte]
    · rw [exec_readByte_now h, hP]; rfl
    · rw [exec_touchByte_now h, hP, touchByteTime_od]
    · obtain ⟨cs, hlen', hholds', hnow⟩ := exec_block_now hn h
      obtain rfl := hholds.unique hholds' (hlen.trans hlen'.symm)
      rw [hnow, hP, funext touchByteTime_od]
    · obtain ⟨cs, hlen', hholds', hnow⟩ := exec_matchAddress_now h
      rw [Params.addrBytes, hbits] at hlen'
      obtain rfl := hholds.unique hholds' (hlen.trans hlen'.symm)
      have htime := writeTime_od (bitsOfBytes (matchAddressByte :: bs))
      have hones : onesOfByte matchAddressByte = 4 := rfl
      rw [count_bitsOfBytes_cons, hones, bitsOfBytes_length, List.length_cons, hlen] at htime
      rw [hnow, hP]
      omega
    · rw [exec_skipAddress_now h, hP, writeTime_od_byte]; rfl
  · rintro rfl
    exact exec_speedSkip_now howc h
  · rw [exec_wire_eq hi h]

end Sys2Proof.Machine
end

section
/-!
PROOFS. The time of one walk (70_reset_and_hazards R300, 41_discovery R181): that of its reset, of the search command and
of each bit by the value recorded for it, and its samples.
-/

namespace Sys2Proof.Machine

/-! ### The samples of the sequences -/

theorem sampleCount_append (h evs : List LineEvent) : sampleCount (h ++ evs) = sampleCount h + sampleCount evs := by
  induction h with
  | nil => exact (Nat.zero_add _).symm
  | cons e h ih => cases e <;> simp [sampleCount, ih, Nat.add_right_comm]

theorem sampleCount_writeTrace (P : TimingProfile) (bits : List Bit) (t : Nat) :
    sampleCount (writeTrace P bits t) = 0 := by
  induction bits generalizing t with
  | nil => rfl
  | cons b bs ih => exact ih _

theorem sampleCount_resetSeq (bus : Bus) (P : TimingProfile) (w : Wire) :
    sampleCount (w.resetSeq bus P).2.hist = sampleCount w.hist + 1 := by
  rw [Wire.resetSeq_eq]
  simp [sampleCount_append, sampleCount]

theorem sampleCount_readBitSeq (bus : Bus) (P : TimingProfile) (w : Wire) :
    sampleCount (w.readBitSeq bus P).2.hist = sampleCount w.hist + 1 := by
  rw [Wire.readBitSeq_eq]
  simp [sampleCount_append, sampleCount]

theorem sampleCount_writeBitSeq (P : TimingProfile) (b : Bit) (w : Wire) :
    sampleCount (w.writeBitSeq P b).hist = sampleCount w.hist := by
  rw [Wire.writeBitSeq_eq]
  simp [sampleCount_append, sampleCount]

theorem sampleCount_writeByteSeq (P : TimingProfile) (v : Byte) (w : Wire) :
    sampleCount (w.writeByteSeq P v).hist = sampleCount w.hist := by
  rw [Wire.writeByteSeq_eq]
  simp [sampleCount_append, sampleCount_writeTrace]

/-! ### The bits of a walk -/

/-- The time of one bit of a walk: two reads, and the direction written back (R181). -/
def walkBitTime (P : TimingProfile) (b : Bit) : Nat := 2 * readSlotTime P + writeSlotTime P b

/-- The time a walk takes before its first bit: its reset and the search command (R181). -/
def walkStartTime (P : TimingProfile) : Nat := resetTimeOf P + writeTime P (bitsOfByte searchByte)

/-- The bits of an address from bit 0 on. -/
def addressBits (a : Address) (n : Nat) : List Bit := (List.range n).map fun i => a.getLsbD i

theorem walkDirection_waddr (depth : Nat) (i : Fin 64) (b bc : Bit) (d : Discovery) :
    (walkDirection depth i b bc d).2.waddr = d.waddr := by
  obtain ⟨-, hwaddr, -⟩ := walkDirection_withWaddr depth i b bc (d := d) (a := d.waddr) fun _ _ => rfl
  exact hwaddr

/-- A walk from bit `i` on leaves the bits below it as they are. -/
theorem walkBits_agreeBelow (depth : Nat) (bus : Bus) (P : TimingProfile) {is : List (Fin 64)} {i : Nat}
    (his : PositionsFrom i is) (d : Discovery) (w : Wire) :
    AgreeBelow i (walkBits depth bus P is d w).disc.waddr d.waddr := by
  induction is generalizing i d w with
  | nil => exact fun _ _ => rfl
  | cons x is ih =>
    obtain ⟨rfl, hfrom⟩ := his.cons
    obtain ⟨-, -, hend⟩ | hgo := walkBits_cons_cases depth bus P x is d w
    · rw [hend]
      exact fun _ _ => rfl
    · intro j hj
      rw [hgo, ih hfrom _ _ j (by omega), Discovery.record_waddr, setAddressBit_getLsbD, if_neg hj.ne,
        walkDirection_waddr]

/-- The bits of a walk that is done take their time by the values recorded, and two samples each. -/
theorem walkBits_done {depth : Nat} {bus : Bus} {P : TimingProfile} {is : List (Fin 64)} {i : Nat}
    (his : PositionsFrom i is) {d : Discovery} {w : Wire} {e : WalkEnd} (he : walkBits depth bus P is d w = e)
    (hdone : e.result = .done) :
    e.wire.now = w.now + (is.map fun x => walkBitTime P (e.disc.waddr.getLsbD x.val)).sum ∧
      sampleCount e.wire.hist = sampleCount w.hist + 2 * is.length := by
  induction is generalizing i d w with
  | nil =>
    subst he
    exact ⟨rfl, rfl⟩
  | cons x is ih =>
    obtain ⟨rfl, hfrom⟩ := his.cons
    obtain ⟨-, -, hend⟩ | hgo := walkBits_cons_cases depth bus P x is d w
    · rw [← he, hend] at hdone
      cases hdone
    · rw [hgo] at he
      have hbit : e.disc.waddr.getLsbD x.val = (walkDirection depth x (w.readBitSeq bus P).1
          ((w.readBitSeq bus P).2.readBitSeq bus P).1 d).1 := by
        rw [← he, walkBits_agreeBelow depth bus P hfrom _ _ x.val (Nat.lt_succ_self _), Discovery.record_waddr,
          setAddressBit_getLsbD, if_pos rfl]
      obtain ⟨hnow, hcount⟩ := ih hfrom he
      rw [← hbit, Wire.writeBitSeq_now, Wire.readBitSeq_now, Wire.readBitSeq_now] at hnow
      rw [sampleCount_writeBitSeq, sampleCount_readBitSeq, sampleCount_readBitSeq] at hcount
      rw [List.map_cons, List.sum_cons, List.length_cons, walkBitTime]
      exact ⟨by omega, by omega⟩

/-- The bits of a walk are all done, or done up to one whose reads were both 1, after which the walk is given up. -/
theorem walkBits_done_or_violation (depth : Nat) (bus : Bus) (P : TimingProfile) (is : List (Fin 64)) (d : Discovery)
    (w : Wire) :
    (walkBits depth bus P is d w).result = .done ∨
    ∃ before x after, is = before ++ x :: after ∧
      let e := walkBits depth bus P before d w
      e.result = .done ∧ walkBits depth bus P is d w =
        ⟨.protocolViolation, e.disc, ((e.wire.readBitSeq bus P).2.readBitSeq bus P).2⟩ := by
  induction is generalizing d w with
  | nil => exact .inl rfl
  | cons x is ih =>
    cases hboth : (w.readBitSeq bus P).1 && ((w.readBitSeq bus P).2.readBitSeq bus P).1 with
    | true => exact .inr ⟨[], x, is, rfl, rfl, walkBits_cons_of_both depth x is d rfl rfl hboth⟩
    | false =>
      have hstep (is : List (Fin 64)) := walkBits_cons_of_not_both depth x is d rfl rfl hboth
      rw [hstep]
      obtain hdone | ⟨before, y, after, rfl, he⟩ := ih _ _
      · exact .inl hdone
      · exact .inr ⟨x :: before, y, after, rfl, by rw [hstep]; exact he⟩

/-- Over the positions from bit 0 on, what is made of each bit of an address. -/
theorem PositionsFrom.map_bits {is : List (Fin 64)} (h : PositionsFrom 0 is) (f : Bit → Nat) (a : Address) :
    is.map (fun x => f (a.getLsbD x.val)) = (addressBits a is.length).map f := by
  rw [addressBits, List.range_eq_range', ← h, List.map_map, List.map_map]
  rfl

theorem PositionsFrom.of_append {i : Nat} {is js : List (Fin 64)} (h : PositionsFrom i (is ++ js)) :
    PositionsFrom i is := by
  rw [PositionsFrom, List.map_append, List.length_append, ← List.range'_append_1] at h
  exact List.append_inj_left h (by simp)

/-! ### The time of a walk -/

theorem searchWalk_now_of_noPresence {s : State} (h : (searchWalk s).1 = .noPresence) :
    (searchWalk s).2.wire.now = s.wire.now + resetTimeOf s.profile := by
  cases hr : (s.wire.resetSeq s.bus s.profile).1 with
  | false =>
    rw [searchWalk_of_absent hr]
    exact Wire.resetSeq_now _ _ _
  | true =>
    rw [searchWalk_of_present rfl hr] at h
    exact absurd h (walkBits_result_ne_noPresence _ _ _ _ _ _)

/-- A walk that is not for want of presence ran the bits of an address after its reset and the search command. -/
theorem searchWalk_of_ne_noPresence {s : State} (h : (searchWalk s).1 ≠ .noPresence) :
    ∃ w e, walkBits s.params.stackDepth s.bus s.profile (bitPositions s.params.addrBits) s.disc w = e ∧
      w.now = s.wire.now + walkStartTime s.profile ∧
      sampleCount w.hist = sampleCount s.wire.hist + 1 ∧ (searchWalk s).1 = e.result ∧
      (searchWalk s).2.wire = e.wire ∧ (searchWalk s).2.disc = e.disc := by
  cases hr : (s.wire.resetSeq s.bus s.profile).1 with
  | false =>
    rw [searchWalk_of_absent hr] at h
    exact absurd rfl h
  | true =>
    rw [searchWalk_of_present rfl hr]
    refine ⟨_, _, rfl, ?_, ?_, rfl, rfl, rfl⟩
    · rw [Wire.writeByteSeq_now, Wire.resetSeq_now, Nat.add_assoc, walkStartTime]
    · rw [sampleCount_writeByteSeq, sampleCount_resetSeq]

section
variable {s : State} (hn : s.params.addrBits ≤ 64)
include hn

theorem searchWalk_now_of_done (h : (searchWalk s).1 = .done) :
    (searchWalk s).2.wire.now = s.wire.now + walkStartTime s.profile +
      ((addressBits (searchWalk s).2.disc.waddr s.params.addrBits).map (walkBitTime s.profile)).sum := by
  obtain ⟨w, e, he, hstart, -, hresult, hwire, hdisc⟩ :=
    searchWalk_of_ne_noPresence (by rw [h]; exact WalkResult.noConfusion)
  have hfrom := bitPositions_from s.params.addrBits
  obtain ⟨hnow, -⟩ := walkBits_done hfrom he (hresult.symm.trans h)
  rw [hfrom.map_bits, bitPositions_length, min_eq_left hn] at hnow
  rw [hwire, hdisc, hnow, hstart]

/-- A walk given up at bit `i` was done with the bits before it, and has read that bit twice. -/
theorem searchWalk_now_of_violation (h : (searchWalk s).1 = .protocolViolation) :
    ∃ i, i < s.params.addrBits ∧
      sampleCount (searchWalk s).2.wire.hist = sampleCount s.wire.hist + 1 + 2 * (i + 1) ∧
      (searchWalk s).2.wire.now = s.wire.now + walkStartTime s.profile +
        ((addressBits (searchWalk s).2.disc.waddr i).map (walkBitTime s.profile)).sum + 2 * readSlotTime s.profile := by
  obtain ⟨w, e, he, hstart, hcount, hresult, hwire, hdisc⟩ :=
    searchWalk_of_ne_noPresence (by rw [h]; exact WalkResult.noConfusion)
  have hfrom := bitPositions_from s.params.addrBits
  have hlen := bitPositions_length s.params.addrBits
  obtain hdone | ⟨before, x, after, hsplit, hbefore, hend⟩ := walkBits_done_or_violation s.params.stackDepth s.bus
    s.profile (bitPositions s.params.addrBits) s.disc w
  · rw [he, ← hresult, h] at hdone
    cases hdone
  · rw [hsplit] at hfrom hlen
    have hfrom' := hfrom.of_append
    obtain ⟨hnow, hsamples⟩ := walkBits_done hfrom' rfl hbefore
    rw [hfrom'.map_bits, hstart] at hnow
    rw [List.length_append, List.length_cons] at hlen
    rw [hwire, hdisc, ← he, hend]
    refine ⟨before.length, by omega, ?_, ?_⟩
    · rw [sampleCount_readBitSeq, sampleCount_readBitSeq, hsamples, hcount]
      omega
    · rw [Wire.readBitSeq_now, Wire.readBitSeq_now, hnow, Nat.add_assoc _ (readSlotTime _), Nat.two_mul]

end

/-! ### The values of this hardware -/

theorem addressBits_length (a : Address) (n : Nat) : (addressBits a n).length = n := by
  rw [addressBits, List.length_map, List.length_range]

theorem count_addressBits (a : Address) (n : Nat) :
    (addressBits a n).count true = (List.range n).countP fun i => a.getLsbD i := by
  rw [addressBits, List.count, List.countP_map]
  simp [Function.comp_def]

theorem walkTime_std (a : Address) (n : Nat) : ((addressBits a n).map (walkBitTime tpStd)).sum = 840 * n := by
  rw [sum_map_bits_of_const (c := 840) (by decide), addressBits_length]

/-- In overdrive a bit of a walk takes 114 units, and 4 less where a 1 is written back (R120). -/
theorem walkTime_od (a : Address) (n : Nat) :
    ((addressBits a n).map (walkBitTime tpOd)).sum = 114 * n - 4 * (List.range n).countP fun i => a.getLsbD i := by
  have hbits := sum_map_bits_add (f := walkBitTime tpOd) (e := 4) rfl (addressBits a n)
  have hzero : walkBitTime tpOd false = 114 := rfl
  rw [count_addressBits, addressBits_length, hzero] at hbits
  omega

/-- In overdrive two reads take 74 units, and the bit written back 36 or 40 (R120). -/
theorem walkTime_od_written (a : Address) (n : Nat) :
    ((addressBits a n).map (walkBitTime tpOd)).sum =
      74 * n + ((List.range n).map fun j => if a.getLsbD j then 36 else 40).sum := by
  have hbit : walkBitTime tpOd = fun b => 74 + if b then 36 else 40 := by
    funext b
    cases b <;> rfl
  rw [hbit, List.sum_map_add]
  simp [addressBits, Function.comp_def, Nat.mul_comm]

theorem walkStartTime_std : walkStartTime tpStd = 6080 := rfl

theorem walkStartTime_od : walkStartTime tpOd = 788 := rfl

section
variable {s : State} (howc : s.params.timings = Timings.owc)
include howc

theorem searchWalk_duration_of_noPresence (h : (searchWalk s).1 = .noPresence) :
    (searchWalk s).2.wire.now = s.wire.now + if s.speed = .standard then 3840 else 484 := by
  rw [searchWalk_now_of_noPresence h]
  cases hspeed : s.speed with
  | standard => rw [State.profile_std howc hspeed]; rfl
  | overdrive => rw [State.profile_od howc hspeed]; rfl

variable (hn : s.params.addrBits ≤ 64)
include hn

theorem searchWalk_duration_of_done (h : (searchWalk s).1 = .done) :
    (searchWalk s).2.wire.now = s.wire.now +
      if s.speed = .standard then 6080 + 840 * s.params.addrBits
      else 788 + 114 * s.params.addrBits -
        4 * (List.range s.params.addrBits).countP fun i => (searchWalk s).2.disc.waddr.getLsbD i := by
  rw [searchWalk_now_of_done hn h, Nat.add_assoc]
  cases hspeed : s.speed with
  | standard => rw [State.profile_std howc hspeed, walkTime_std]; rfl
  | overdrive =>
    have hle := List.countP_le_length (p := fun i => (searchWalk s).2.disc.waddr.getLsbD i)
      (l := List.range s.params.addrBits)
    rw [List.length_range] at hle
    rw [State.profile_od howc hspeed, walkTime_od, walkStartTime_od, ← Nat.add_sub_assoc (by omega)]
    rfl

theorem searchWalk_duration_of_violation (h : (searchWalk s).1 = .protocolViolation) :
    ∃ i, i < s.params.addrBits ∧
      sampleCount (searchWalk s).2.wire.hist = sampleCount s.wire.hist + 1 + 2 * (i + 1) ∧
      (searchWalk s).2.wire.now = s.wire.now +
        if s.speed = .standard then 6640 + 840 * i
        else 788 + 74 * (i + 1) +
          ((List.range i).map fun j => if (searchWalk s).2.disc.waddr.getLsbD j then 36 else 40).sum := by
  obtain ⟨i, hi, hcount, hnow⟩ := searchWalk_now_of_violation hn h
  refine ⟨i, hi, hcount, ?_⟩
  rw [hnow]
  cases hspeed : s.speed with
  | standard =>
    have hread : readSlotTime tpStd = 280 := rfl
    rw [State.profile_std howc hspeed, walkStartTime_std, walkTime_std, hread, if_pos rfl]
    omega
  | overdrive =>
    have hread : readSlotTime tpOd = 37 := rfl
    rw [State.profile_od howc hspeed, walkStartTime_od, walkTime_od_written, hread, if_neg Speed.noConfusion]
    omega

end

/-- Settles O58: the time of each kind of walk, and the first of them for 64 bits. -/
theorem walkDurations : Obligations.WalkDurations := by
  intro s howc hn r n ones written
  refine ⟨searchWalk_duration_of_done howc hn, fun h h64 => ?_, searchWalk_duration_of_noPresence howc,
    searchWalk_duration_of_violation howc hn⟩
  have hnow : r.2.wire.now = s.wire.now +
    if s.speed = .standard then 6080 + 840 * n else 788 + 114 * n - 4 * ones := searchWalk_duration_of_done howc hn h
  rw [hnow, h64]

end Sys2Proof.Machine
end
